-- ==== Sys2Proof/Word.lean ====
section
/-! DEFINITION. The word types of the wave-share CORE and nothing else: bytes, the command word, the result, samples, frames
and magnitudes (spec/00_scope.md R11, R13; spec/20_memory.md R64, R65; spec/30_encoding.md R90, R91). -/

namespace Sys2Proof

/-- A byte, `u8` (R11). -/
abbrev Byte := BitVec 8

/-- A command word, CMD[63:0] (30_encoding.md R90). -/
abbrev CmdWord := BitVec 64

/-- A command's result, RESULT[31:0] (30_encoding.md R91). -/
abbrev Result := BitVec 32

/-- An audio sample, `s16`: a two's-complement 16-bit integer (20_memory.md R64). -/
abbrev Sample := BitVec 16

/-- One frame: N = 1024 samples (00_scope.md R16, R9). -/
abbrev Frame := Vector Sample 1024

/-- A magnitude, a noise floor, or a sum of them: an exact non-negative real (00_scope.md R13), held as the exact expression
that the rules make of the FFT engine's outputs, so that a state is plain data and no value is rounded (log 1). The real number
an expression stands for is `Mag.value`. -/
inductive Mag where
  /-- 0. -/
  | zero
  /-- SpecMag(x)[b] (42_rx.md R203). -/
  | bin (x : Frame) (b : Fin 513)
  /-- p + q. -/
  | add (p q : Mag)
  /-- (num / den) x m. -/
  | scale (num den : Nat) (m : Mag)
  deriving DecidableEq, Repr, Inhabited

/-- One spectrum: NBINS = 513 magnitudes, bins 0..512 (00_scope.md R9, 42_rx.md R203). -/
abbrev Spectrum := Vector Mag 513

end Sys2Proof
end

