-- ==== Sys2Proof/Config.lean ====
section
/-! DEFINITION. What is fixed for this hardware (the constants of spec/00_scope.md R9), and the OPEN parameters of R10: the
FFT engine's magnitude function, the Reed-Solomon codec and the sample source. Each open parameter is an opaque constant with
no body: nothing can be proved of its values beyond the contract its form gives. -/

namespace Sys2Proof.Config

/-! ### Constants (00_scope.md R9) -/

/-- `N`, samplesPerFrame: 1024 samples. -/
abbrev samplesPerFrame : Nat := 1024
/-- `NBINS`: bins 0..N/2. -/
abbrev nBins : Nat := 513
/-- `kMaxSpectrumHistory` (HMAX). -/
abbrev maxHistory : Nat := 4
/-- `kMaxDataBits`. -/
abbrev maxDataBits : Nat := 256
/-- `kMaxDataSize`, the size of ENC. -/
abbrev maxDataSize : Nat := 256
/-- `kMaxLength` (KMAXLEN): the longest payload, in bytes. -/
abbrev maxLength : Nat := 140
/-- `kDefaultFixedLength` (KDFL): the payload length of FixedLength mode. -/
abbrev fixedLength : Nat := 32
/-- `nBitsInMarker` (NMB): the marker slots. -/
abbrev markerBits : Nat := 16
/-- `nMarkerFrames` (NMF). -/
abbrev markerFrames : Nat := 16
/-- `nRampFramesBegin` (NRB). -/
abbrev rampBegin : Nat := 2
/-- `nRampFramesEnd` (NRE). -/
abbrev rampEnd : Nat := 2
/-- `nPostMarkerFrames` (NPM). -/
abbrev postFrames : Nat := 8
/-- `LOCK_FRAMES`: consecutive matching frames that lock. -/
abbrev lockFrames : Nat := 8
/-- `LEN_ECC`: the parity bytes of the length field. -/
abbrev lenEcc : Nat := 2
/-- `kMaxRecordedFrames`: the rows of REC. -/
abbrev maxRecorded : Nat := 4096
/-- SSB_IN: bytes of a captured sample. -/
abbrev sampleBytesIn : Nat := 2
/-- SSB_OUT: bytes of an emitted sample. -/
abbrev sampleBytesOut : Nat := 2
/-- The lowest legal sample rate, Hz. -/
abbrev minRate : Nat := 8000
/-- The highest legal sample rate, Hz. -/
abbrev maxRate : Nat := 192000
/-- The least and greatest ECC parity counts. -/
abbrev minEcc : Nat := 2
abbrev maxEcc : Nat := 64
/-- `AFULL`: full scale. -/
abbrev fullScale : Nat := 32767

/-! ### The open parameters as arguments (00_scope.md R10)

The datapath's definitions take them as arguments, so a law about them is a law for EVERY admissible FFT engine
and codec, and a worked example can be run under the spec's own test double. `exec` runs them at `Config.params`. -/

end Sys2Proof.Config

namespace Sys2Proof

/-- The real number a magnitude stands for under the FFT engine's magnitude function S (00_scope.md R13). -/
noncomputable def Mag.value (S : Frame → Fin 513 → NNReal) : Mag → ℝ
  | .zero => 0
  | .bin x b => S x b
  | .add p q => p.value S + q.value S
  | .scale num den m => (num : ℝ) / (den : ℝ) * m.value S

/-- Under the magnitude function that is 0 everywhere every magnitude is 0: the engine of silence exists. -/
theorem Mag.value_silence (m : Mag) : m.value (fun _ _ => 0) = 0 := by
  induction m with
  | zero => rfl
  | bin x b => simp [Mag.value]
  | add p q hp hq => simp [Mag.value, hp, hq]
  | scale num den m hm => simp [Mag.value, hm]

/-- An FFT engine with the threshold comparators that read it: its magnitude function, ANY function from frames of 1024 samples
to 513 values in R>=0 (42_rx.md R203), and the exact comparison of two magnitudes (00_scope.md R13). Every magnitude function
has its comparison (`Engine.ofSpecMag`). -/
structure Engine where
  specMag : Frame → Fin 513 → NNReal := fun _ _ => 0
  less    : Mag → Mag → Bool := fun _ _ => false
  exact   : ∀ p q, less p q = true ↔ p.value specMag < q.value specMag := by
    intro p q
    simp [Mag.value_silence]
  deriving Inhabited

/-- The collaborators the block calls: the FFT engine (42_rx.md R203) and the codec port's two pure functions (20_memory.md R69,
R70). `dec` answers `none` for the source's UncorrectableError. -/
structure Params where
  engine : Engine
  enc    : Nat → List Byte → List Byte
  dec    : Nat → List Byte → Option (List Byte)

/-- The real number a magnitude stands for under the collaborators P. -/
noncomputable def Params.val (P : Params) (m : Mag) : ℝ := m.value P.engine.specMag

/-- p < q, exactly (00_scope.md R13). -/
def Params.less (P : Params) (p q : Mag) : Bool := P.engine.less p q

/-- The contract of 20_memory.md R70: a codeword is E bytes longer than its message, a decoded message E bytes shorter than its
codeword. A codec without it is outside the admitted parameters (93_implementation_defined.md I10). Every FFT engine is
admitted (42_rx.md R203). -/
structure Params.Admitted (P : Params) : Prop where
  enc_length : ∀ E m, (P.enc E m).length = m.length + E
  dec_length : ∀ E c m, E ≤ c.length → P.dec E c = some m → m.length = c.length - E

/-- wt(e): the number of non-zero bytes of an error pattern (20_memory.md R71). -/
def byteWeight (e : List Byte) : Nat := (e.filter (· != 0)).length

/-- Bytewise exclusive or (20_memory.md R71). -/
def xorBytes (a b : List Byte) : List Byte := List.zipWith (· ^^^ ·) a b

/-- Law L1 of 20_memory.md R71, at one parity count and one message: up to E div 2 byte errors are corrected. A NAMED PREMISE
of a claim that needs it, never a fact about `Config.params` (log 6). -/
def Params.Corrects (P : Params) (E : Nat) (m : List Byte) : Prop :=
  ∀ e : List Byte, e.length = m.length + E → byteWeight e ≤ E / 2 → P.dec E (xorBytes (P.enc E m) e) = some m

/-- Law L2 of 20_memory.md R71, at one parity count and one message: more than E div 2 byte errors are detected. A named
premise only (93_implementation_defined.md I6, log 6). -/
def Params.Detects (P : Params) (E : Nat) (m : List Byte) : Prop :=
  ∀ e : List Byte, e.length = m.length + E → E / 2 < byteWeight e → P.dec E (xorBytes (P.enc E m) e) = none

/-- The source's answer to one pull: the count k in 0..1024 and the samples x[0..k-1]; the samples from k on are not part of
the answer (20_memory.md R67). -/
structure Answer where
  count   : Fin 1025
  samples : Frame
  deriving DecidableEq, Repr, Inhabited

end Sys2Proof

namespace Sys2Proof.Config

/-! ### The open parameters of the hardware (no body: free) -/

/-- The FFT engine: SpecMag is any function from frames to 513 non-negative reals, and nothing else is known of it (42_rx.md
R203; log 2). -/
opaque engine : Engine
/-- Byte i of the codeword RSEnc(E, m) (20_memory.md R70; log 3). -/
opaque rsEncByte : Nat → List Byte → Nat → Byte
/-- Whether RSDec(E, c) is Ok (20_memory.md R70; log 3). -/
opaque rsDecOk : Nat → List Byte → Bool
/-- Byte i of the message of RSDec(E, c) when it is Ok (log 3). -/
opaque rsDecByte : Nat → List Byte → Nat → Byte
/-- The source's answer to pull number n, when the host has placed none (20_memory.md R67, a draw; log 4). -/
opaque sourceDraw : Nat → Answer

/-- RSEnc: any function of (E, m) whose codeword has |m| + E bytes (20_memory.md R70). -/
def rsEnc (E : Nat) (m : List Byte) : List Byte :=
  (List.range (m.length + E)).map (rsEncByte E m)

/-- RSDec: any function of (E, c) that answers Err or a message of |c| - E bytes (20_memory.md R70). -/
def rsDec (E : Nat) (c : List Byte) : Option (List Byte) :=
  if rsDecOk E c then some ((List.range (c.length - E)).map (rsDecByte E c)) else none

/-- The collaborators of this hardware. -/
def params : Params := ⟨engine, rsEnc, rsDec⟩

end Sys2Proof.Config
end

