-- ==== Sys2Proof/Syntax.lean ====
section
/-! DEFINITION. The commands of the wave-share CORE: one constructor per row of spec/opcode_table.json (spec/30_encoding.md
R92, R100), each operand with exactly the width of its field (R93 to R99), and the assembler's lines (R106, R107), whose
operands are unbounded numbers that WellFormed.lean checks. -/

namespace Sys2Proof

/-- The 23 commands (30_encoding.md R100). -/
inductive Instr where
  /-- SETPARAM fdelta, fstart, fpt, bpt, vol: format P (R93). -/
  | setparam (fd : BitVec 8) (fs : BitVec 10) (fpt : BitVec 4) (bpt : BitVec 6) (vol : BitVec 7)
  /-- SETMODE mode: format M (R94). -/
  | setmode (m : BitVec 1)
  /-- SETECC ecc: format E (R95). -/
  | setecc (e : BitVec 7)
  /-- SETRATE rin, rout: format R (R96). -/
  | setrate (rin rout : BitVec 24)
  /-- WTXB idx, data: format W (R97). -/
  | wtxb (idx data : BitVec 8)
  /-- INIT len: format L (R98). -/
  | init (len : BitVec 8)
  /-- SEND: format Z. -/
  | send
  /-- RECEIVE: format Z. -/
  | receive
  /-- RDRX idx: format X (R99). -/
  | rdrx (idx : BitVec 8)
  | getrxlen
  | gethasdata
  | getavgrxt
  | getftr
  | getfltr
  | getfta
  | getflta
  | gettbc
  | getrxstate
  | getratein
  | getrateout
  | getspf
  | getssbin
  | getssbout
  deriving DecidableEq, Repr

/-- One line of the assembler (30_encoding.md R106), its operands the numbers as written, in the field order of R92, and the
two pseudo-instructions (R107). -/
inductive Line where
  | setparam (fd fs fpt bpt vol : Nat)
  /-- `SETMODE VAR|FIXED`: VAR = 0, FIXED = 1. -/
  | setmode (fixed : Bool)
  | setecc (e : Nat)
  | setrate (rin rout : Nat)
  | wtxb (idx byte : Nat)
  | init (len : Nat)
  | rdrx (idx : Nat)
  /-- A Z-format mnemonic, which takes no operand. -/
  | plain (i : Instr)
  /-- `TXLOAD "s"` for a byte string s. -/
  | txload (s : List Byte)
  /-- `DEFAULTS`. -/
  | defaults
  deriving DecidableEq, Repr

end Sys2Proof
end

