-- ==== Sys2Proof/WellFormed.lean ====
section
/-! DEFINITION. Which assembler lines are well formed: "An assembler rejects an operand that does not fit its field width"
(spec/30_encoding.md R106). An `Instr` needs no check: its operands have exactly the widths of their fields, so every
`Instr` is well formed. -/

namespace Sys2Proof

/-- An operand fits a field of `bits` bits (30_encoding.md R106). -/
def fits (bits v : Nat) : Bool := decide (v < 2 ^ bits)

/-- The commands of format Z (30_encoding.md R92). -/
def Instr.isZ : Instr → Bool
  | .setparam .. | .setmode _ | .setecc _ | .setrate .. | .wtxb .. | .init _ | .rdrx _ => false
  | .send | .receive | .getrxlen | .gethasdata | .getavgrxt | .getftr | .getfltr | .getfta | .getflta | .gettbc
  | .getrxstate | .getratein | .getrateout | .getspf | .getssbin | .getssbout => true

/-- Every operand fits its field (R93 to R99), a `plain` line is a Z-format mnemonic (R92), and TXLOAD's string has at most
140 bytes (R107). -/
def Line.wellFormed : Line → Bool
  | .setparam fd fs fpt bpt vol => fits 8 fd && fits 10 fs && fits 4 fpt && fits 6 bpt && fits 7 vol
  | .setmode _ => true
  | .setecc e => fits 7 e
  | .setrate rin rout => fits 24 rin && fits 24 rout
  | .wtxb idx byte => fits 8 idx && fits 8 byte
  | .init len => fits 8 len
  | .rdrx idx => fits 8 idx
  | .plain i => i.isZ
  | .txload s => decide (s.length ≤ Config.maxLength)
  | .defaults => true

end Sys2Proof
end

