-- ==== Sys2Proof/Decode.lean ====
section
/-! DEFINITION. The command decoder and, after it, the encoder, both written from the format table of spec/30_encoding.md R92
and the opcode map of R100; the mask and match rows of R103; and the byte order of a command word carried as bytes
(spec/20_memory.md R65). Decoding is total: a word that is no command is rejected by name (R101, R102). -/

namespace Sys2Proof

/-- Why a word, or a byte list, is no command (30_encoding.md R101). -/
inductive Reject where
  /-- OPC is not in the table of R100. -/
  | undefinedOpcode (opc : BitVec 8)
  /-- A reserved bit of the opcode's format is 1. -/
  | reservedBit (opc : BitVec 8)
  /-- Fewer than eight bytes: every command is exactly 64 bits long (R90). -/
  | truncated
  deriving DecidableEq, Repr

/-- OPC = CMD[63:56] (R90). -/
def opcodeOf (w : CmdWord) : BitVec 8 := w.extractLsb' 56 8

/-- A command whose reserved bits CMD[lo+n-1:lo] must be zero (R101): the check comes before any operand is looked at. -/
def ifReservedZero {n : Nat} (reserved : BitVec n) (opc : BitVec 8) (i : Instr) : Except Reject Instr :=
  if reserved = 0#n then .ok i else .error (.reservedBit opc)

/-- A format-Z command: CMD[55:0] is reserved (R92). -/
def decodeZ (w : CmdWord) (i : Instr) : Except Reject Instr :=
  ifReservedZero (w.extractLsb' 0 56) (opcodeOf w) i

/-- The decoder: OPC finds the format (R90, R100), the reserved bits are checked, the fields are those of R92. -/
def decode (w : CmdWord) : Except Reject Instr :=
  let opc := opcodeOf w
  if opc = 0x01#8 then
    ifReservedZero (w.extractLsb' 0 21) opc
      (.setparam (w.extractLsb' 48 8) (w.extractLsb' 38 10) (w.extractLsb' 34 4) (w.extractLsb' 28 6) (w.extractLsb' 21 7))
  else if opc = 0x02#8 then ifReservedZero (w.extractLsb' 1 55) opc (.setmode (w.extractLsb' 0 1))
  else if opc = 0x03#8 then ifReservedZero (w.extractLsb' 7 49) opc (.setecc (w.extractLsb' 0 7))
  else if opc = 0x04#8 then ifReservedZero (w.extractLsb' 0 8) opc (.setrate (w.extractLsb' 32 24) (w.extractLsb' 8 24))
  else if opc = 0x08#8 then ifReservedZero (w.extractLsb' 16 40) opc (.wtxb (w.extractLsb' 8 8) (w.extractLsb' 0 8))
  else if opc = 0x09#8 then ifReservedZero (w.extractLsb' 8 48) opc (.init (w.extractLsb' 0 8))
  else if opc = 0x0A#8 then decodeZ w .send
  else if opc = 0x10#8 then decodeZ w .receive
  else if opc = 0x11#8 then ifReservedZero (w.extractLsb' 8 48) opc (.rdrx (w.extractLsb' 0 8))
  else if opc = 0x12#8 then decodeZ w .getrxlen
  else if opc = 0x20#8 then decodeZ w .gethasdata
  else if opc = 0x21#8 then decodeZ w .getavgrxt
  else if opc = 0x22#8 then decodeZ w .getftr
  else if opc = 0x23#8 then decodeZ w .getfltr
  else if opc = 0x24#8 then decodeZ w .getfta
  else if opc = 0x25#8 then decodeZ w .getflta
  else if opc = 0x26#8 then decodeZ w .gettbc
  else if opc = 0x27#8 then decodeZ w .getrxstate
  else if opc = 0x30#8 then decodeZ w .getratein
  else if opc = 0x31#8 then decodeZ w .getrateout
  else if opc = 0x32#8 then decodeZ w .getspf
  else if opc = 0x33#8 then decodeZ w .getssbin
  else if opc = 0x34#8 then decodeZ w .getssbout
  else .error (.undefinedOpcode opc)

/-- A format-Z word: OPC, then 56 zero bits (R92). -/
def encodeZ (opc : BitVec 8) : CmdWord := opc ++ 0#56

/-- The encoder: the fields of R92 from the high bits down, reserved bits zero. -/
def encode : Instr → CmdWord
  | .setparam fd fs fpt bpt vol => 0x01#8 ++ fd ++ fs ++ fpt ++ bpt ++ vol ++ 0#21
  | .setmode m => 0x02#8 ++ 0#55 ++ m
  | .setecc e => 0x03#8 ++ 0#49 ++ e
  | .setrate rin rout => 0x04#8 ++ rin ++ rout ++ 0#8
  | .wtxb idx data => 0x08#8 ++ 0#40 ++ idx ++ data
  | .init len => 0x09#8 ++ 0#48 ++ len
  | .send => encodeZ 0x0A#8
  | .receive => encodeZ 0x10#8
  | .rdrx idx => 0x11#8 ++ 0#48 ++ idx
  | .getrxlen => encodeZ 0x12#8
  | .gethasdata => encodeZ 0x20#8
  | .getavgrxt => encodeZ 0x21#8
  | .getftr => encodeZ 0x22#8
  | .getfltr => encodeZ 0x23#8
  | .getfta => encodeZ 0x24#8
  | .getflta => encodeZ 0x25#8
  | .gettbc => encodeZ 0x26#8
  | .getrxstate => encodeZ 0x27#8
  | .getratein => encodeZ 0x30#8
  | .getrateout => encodeZ 0x31#8
  | .getspf => encodeZ 0x32#8
  | .getssbin => encodeZ 0x33#8
  | .getssbout => encodeZ 0x34#8

/-- The formats (R92). -/
inductive Format where
  | z | p | m | e | r | w | l | x
  deriving DecidableEq, Repr

/-- The mask of a format: OPC and every reserved bit (R103). -/
def Format.mask : Format → CmdWord
  | .z => 0xFFFFFFFFFFFFFFFF#64
  | .p => 0xFF000000001FFFFF#64
  | .m => 0xFFFFFFFFFFFFFFFE#64
  | .e => 0xFFFFFFFFFFFFFF80#64
  | .r => 0xFF000000000000FF#64
  | .w => 0xFFFFFFFFFFFF0000#64
  | .l => 0xFFFFFFFFFFFFFF00#64
  | .x => 0xFFFFFFFFFFFFFF00#64

/-- A row of the opcode map (R100): the opcode and its format. -/
structure OpRow where
  opc    : BitVec 8
  format : Format
  deriving DecidableEq, Repr

/-- A row's match value, OPC << 56 (R103). -/
def OpRow.pattern (r : OpRow) : CmdWord := r.opc ++ 0#56

/-- A row matches a word when (w AND mask) = match (R103). -/
def OpRow.covers (r : OpRow) (w : CmdWord) : Bool := decide (w &&& r.format.mask = r.pattern)

/-- The opcode map, in the table's order (R100). -/
def opcodeMap : List OpRow :=
  [⟨0x01#8, .p⟩, ⟨0x02#8, .m⟩, ⟨0x03#8, .e⟩, ⟨0x04#8, .r⟩, ⟨0x08#8, .w⟩, ⟨0x09#8, .l⟩, ⟨0x0A#8, .z⟩, ⟨0x10#8, .z⟩,
   ⟨0x11#8, .x⟩, ⟨0x12#8, .z⟩, ⟨0x20#8, .z⟩, ⟨0x21#8, .z⟩, ⟨0x22#8, .z⟩, ⟨0x23#8, .z⟩, ⟨0x24#8, .z⟩, ⟨0x25#8, .z⟩,
   ⟨0x26#8, .z⟩, ⟨0x27#8, .z⟩, ⟨0x30#8, .z⟩, ⟨0x31#8, .z⟩, ⟨0x32#8, .z⟩, ⟨0x33#8, .z⟩, ⟨0x34#8, .z⟩]

/-- The bytes of a command word where a host carries it as bytes, least-significant byte first (20_memory.md R65). -/
def wordBytes (w : CmdWord) : List Byte := (List.range 8).map fun i => w.extractLsb' (8 * i) 8

/-- The command word eight bytes carry, least-significant byte first (R65, R90), and the bytes left over (log 13). -/
def wordOfBytes : List Byte → Option (CmdWord × List Byte)
  | b0 :: b1 :: b2 :: b3 :: b4 :: b5 :: b6 :: b7 :: rest => some (b7 ++ b6 ++ b5 ++ b4 ++ b3 ++ b2 ++ b1 ++ b0, rest)
  | _ => none

/-- The decoder over bytes: the instruction and the rest of the list, or the reason there is none. -/
def decodeBytes (bs : List Byte) : Except Reject (Instr × List Byte) :=
  match wordOfBytes bs with
  | none => .error .truncated
  | some (w, rest) => (decode w).map fun i => (i, rest)

/-- The command word whose bits the opcode table numbers as `w`; the bits from `nbits` on are zero. -/
def tableWord (nbits w : Nat) : CmdWord := BitVec.ofNat 64 (w % 2 ^ nbits)

/-- The instruction the decoder reads from the word whose bits are `w`: the word is laid out as its eight bytes, least
significant first (R65), and those are decoded. -/
def decodeTableWord (nbits w : Nat) : Option Instr :=
  match decodeBytes (wordBytes (tableWord nbits w)) with
  | .ok (i, _) => some i
  | .error _ => none

end Sys2Proof
end

