-- ==== Sys2Proof/Machine/State.lean ====
section
/-! DEFINITION. The machine's state, as plain data. The three records Cfg, Tx and Rx together hold exactly the fields of the
state table of spec/10_state.md R55, under its own names; Port is the model's record of what stands outside the block at its
ports (spec/20_memory.md R66, R67; spec/30_encoding.md R90, R91), which the spec does not count as state (10_state.md R51). -/

namespace Sys2Proof.Machine

/-- MODE (u1): 0 = VariableLength, 1 = FixedLength (10_state.md R22). -/
inductive Mode where
  | variable
  | fixed
  deriving DecidableEq, Repr, Inhabited

/-- RXSTATE (u2), the Rx state (10_state.md R40). -/
inductive RxState where
  | listening
  | markerLocked
  | recording
  | analyzing
  deriving DecidableEq, Repr, Inhabited

/-- STATUS[1:0] (60_exceptions.md R290). -/
inductive Status where
  | ok
  | clamped
  | rejected
  | illegal
  deriving DecidableEq, Repr, Inhabited

/-- A command's response, STATUS and RESULT (30_encoding.md R91). -/
structure Response where
  status : Status
  result : Result
  deriving DecidableEq, Repr, Inhabited

/-- What the host does to the block: it issues a command word (30_encoding.md R90), or it applies the reset input, between
commands (70_reset_and_hazards.md R321). -/
inductive HostEvent where
  | command (w : CmdWord)
  | resetInput
  deriving DecidableEq, Repr, Inhabited

/-- A byte memory: the cells of a byte space that do not hold zero, addresses strictly rising (20_memory.md R60). -/
abbrev ByteMem := List Host.Cell

/-- An element memory held by rows: the rows that are not all zero, indices strictly rising (20_memory.md R61). -/
abbrev RowMem (α : Type) := List (Nat × α)

/-- One row of REC: kMaxDataBits = 256 magnitudes (10_state.md R43). -/
abbrev RecRow := Vector Mag 256

/-- The configuration registers, ProtocolParameters (10_state.md R22). -/
structure Cfg where
  /-- FDELTA (u8): spacing of adjacent slots, in bins. -/
  fdelta  : BitVec 8
  /-- FSTART (u10): bin of marker slot 0. -/
  fstart  : BitVec 10
  /-- FPT (u4): frames per byte-group. -/
  fpt     : BitVec 4
  /-- BPT (u6): bytes per byte-group. -/
  bpt     : BitVec 6
  /-- VOL (u7): volume in percent. -/
  vol     : BitVec 7
  /-- ECC (u7): payload parity bytes. -/
  ecc     : BitVec 7
  /-- MODE (u1). -/
  mode    : Mode
  /-- RATE_IN (u24): capture rate, Hz. -/
  rateIn  : BitVec 24
  /-- RATE_OUT (u24): playback rate, Hz. -/
  rateOut : BitVec 24
  deriving DecidableEq, Repr

/-- The Tx session state, TxSession (10_state.md R24 to R35). -/
structure Tx where
  /-- TXSTAGE (140 bytes): the staged payload (R24). -/
  txstage : ByteMem
  /-- TXTEXT (140 bytes): the owned copy (R25). -/
  txtext  : ByteMem
  /-- TXLEN (u8): bytes the last INIT copied (R26). -/
  txlen   : BitVec 8
  /-- SDL (u8): the payload length the last INIT encoded (R27). -/
  sdl     : BitVec 8
  /-- ENC (256 bytes): encodedData (R28). -/
  enc     : ByteMem
  /-- ENCLEN (u9): its meaningful bytes (R29). -/
  enclen  : BitVec 9
  /-- NGRP (u8): the session's byte-groups (R30). -/
  ngrp    : BitVec 8
  /-- TOTAL (u16): the session's frames (R31). -/
  total   : BitVec 16
  /-- FRAMEID (u16): the next frame to emit (R33). -/
  frameid : BitVec 16
  /-- HASDATA (u1): a session is in flight (R32). -/
  hasdata : Bool
  /-- TT_DIRTY (u1): the tone table is dirty (R34). -/
  ttDirty : Bool
  /-- TONE (272 rows of 1024 samples): the tone table (R35). -/
  tone    : RowMem Frame
  deriving DecidableEq, Repr

/-- The Rx session state, RxSession (10_state.md R37 to R50). -/
structure Rx where
  /-- SAMP (1024 samples): the last frame processed (R37). -/
  samp    : Frame
  /-- SPEC (513 magnitudes): its spectrum (R38). -/
  spec    : Spectrum
  /-- HIST (4 spectra): the history (R39). -/
  hist    : Vector Spectrum 4
  /-- HID (u2): the slot the next frame overwrites (R39). -/
  hid     : BitVec 2
  /-- HCOUNT (u3): the slots written since reset (R39). -/
  hcount  : BitVec 3
  /-- RXSTATE (u2) (R40). -/
  rxstate : RxState
  /-- RUN (u16, saturating): consecutive marker matches (R42). -/
  run     : BitVec 16
  /-- REC (4096 rows of 256 magnitudes): the recording (R43). -/
  recMem  : RowMem RecRow
  /-- RECF (4096 magnitudes): the floor recorded with each row (R43). -/
  recf    : RowMem Mag
  /-- ACC (256 magnitudes): the bit accumulator (R44). -/
  acc     : RecRow
  /-- FACC: the accumulated floor (R44). -/
  facc    : Mag
  /-- FLTR (u16): frames left to record (R45). -/
  fltr    : BitVec 16
  /-- FLTA (u16): frames left to analyse (R46). -/
  flta    : BitVec 16
  /-- RXRAW (256 bytes): the rebuilt bytes (R47). -/
  rxraw   : ByteMem
  /-- RXDATA (140 bytes): the decoded payload (R48). -/
  rxdata  : ByteMem
  /-- RXLEN (u8): its length (R48). -/
  rxlen   : BitVec 8
  /-- RXT (u32, saturating): ticks of the current candidate (R49). -/
  rxt     : BitVec 32
  /-- RXT_SUM (u64, wrapping): RXT summed over decodes (R49). -/
  rxtSum  : BitVec 64
  /-- RXCOUNT (u32, wrapping): successful decodes (R49). -/
  rxcount : BitVec 32
  /-- TBC (u32, wrapping): bytes captured (R50). -/
  tbc     : BitVec 32
  deriving DecidableEq, Repr

/-- What stands at the block's ports: the model's own record, not the block's state (logs 4, 5). -/
structure Port where
  /-- What the host has still to do, oldest first. -/
  events    : List HostEvent
  /-- The source answers the host has placed for the next pulls, oldest first; past their end an answer is a free draw. -/
  source    : List Answer
  /-- How many pulls have taken place: the index of the next free draw. -/
  pulls     : Nat
  /-- The frames handed to the sink, newest first (20_memory.md R66). -/
  sink      : List Frame
  /-- The responses returned, newest first (30_encoding.md R91). -/
  responses : List Response
  deriving DecidableEq, Repr

/-- The whole state. -/
structure State where
  cfg  : Cfg
  tx   : Tx
  rx   : Rx
  port : Port
  deriving DecidableEq, Repr

/-- Why the machine stops with a fault: never. The block has no traps and no exception mechanism (60_exceptions.md R298), every
error is an architected response, and no rule leads to a stuck state (R308); so there is no fault to name. -/
inductive Fault where
  deriving DecidableEq, Repr

/-- Why an instruction is refused. -/
inductive Refusal where
  /-- Raised by exec's arm of an instruction without a meaning (safe); no arm raises it in this model. -/
  | notModelled (mnemonic : String)
  deriving DecidableEq, Repr

/-- The configuration registers at reset (10_state.md R22). -/
def Cfg.reset : Cfg where
  fdelta := 1
  fstart := 40
  fpt := 6
  bpt := 3
  vol := 50
  ecc := 8
  mode := .variable
  rateIn := 48000
  rateOut := 48000

/-- The Tx session state at reset (10_state.md R55; TONE is unspecified there: zero, log 7). -/
def Tx.reset : Tx where
  txstage := []
  txtext := []
  txlen := 0
  sdl := 0
  enc := []
  enclen := 0
  ngrp := 0
  total := 0
  frameid := 0
  hasdata := false
  ttDirty := true
  tone := []

/-- The Rx session state at reset (10_state.md R55; REC and RECF are unspecified there: zero, log 8). -/
def Rx.reset : Rx where
  samp := Vector.replicate 1024 0
  spec := Vector.replicate 513 .zero
  hist := Vector.replicate 4 (Vector.replicate 513 .zero)
  hid := 0
  hcount := 0
  rxstate := .listening
  run := 0
  recMem := []
  recf := []
  acc := Vector.replicate 256 .zero
  facc := .zero
  fltr := 0
  flta := 0
  rxraw := []
  rxdata := []
  rxlen := 0
  rxt := 0
  rxtSum := 0
  rxcount := 0
  tbc := 0

/-- The ports before the host has done anything: nothing issued, delivered, emitted or returned (log 5). -/
def Port.idle : Port where
  events := []
  source := []
  pulls := 0
  sink := []
  responses := []

/-- The machine right after reset (70_reset_and_hazards.md R320). -/
def State.reset : State := ⟨Cfg.reset, Tx.reset, Rx.reset, Port.idle⟩

end Sys2Proof.Machine
end

