-- ==== Sys2Proof/Machine/Ops.lean ====
section
/-! DEFINITION. The named operations every command is built from: the pseudocode's arithmetic (spec/00_scope.md R12, R14), the
internal memories (spec/20_memory.md R60, R61), the ports (R64, R66, R67), a command's completion and the two ways it can be
turned away (spec/60_exceptions.md R290), the reset input (spec/70_reset_and_hazards.md R320, R321) and AbortSessions
(spec/40_config.md R134). The block has no exception to take and none to return from (60_exceptions.md R298, R299). -/

namespace Sys2Proof.Machine

/-! ### Arithmetic -/

/-- ceil(a / b): the least integer >= a/b, for b > 0 (R12). -/
def ceilDiv (a b : Nat) : Nat := (a + b - 1) / b

/-- asr(v, s) = floor(v / 2^s) (R12). -/
def asr (v : Int) (s : Nat) : Int := v / (2 : Int) ^ s

/-- sat16(v) = min(32767, max(-32768, v)) (R12). -/
def sat16 (v : Int) : Int := min 32767 (max (-32768) v)

/-- A register of width w counts one up and stays at its greatest value (10_state.md R42, R49). -/
def satInc {w : Nat} (v : BitVec w) : BitVec w := BitVec.ofNat w (min (v.toNat + 1) (2 ^ w - 1))

/-- Element i of an array of n, or `d` where there is no element i (no rule asks for one: log 9). -/
def elem {α : Type} {n : Nat} (v : Vector α n) (d : α) (i : Nat) : α := if h : i < n then v[i] else d

/-- The sum of f over the indices 0..n-1, exact (00_scope.md R13). -/
def sumMag (n : Nat) (f : Nat → Mag) : Mag := ((List.range n).map f).foldl Mag.add .zero

/-! ### Internal memories -/

/-- An internal memory: its number of elements and what an element holds that is not listed. -/
structure Space (α : Type) where
  size     : Nat
  unlisted : α

/-- TXSTAGE, 140 bytes (R60). -/
def Space.txstage : Space Byte := ⟨140, 0⟩
/-- TXTEXT, 140 bytes (R60). -/
def Space.txtext : Space Byte := ⟨140, 0⟩
/-- ENC, 256 bytes (R60). -/
def Space.enc : Space Byte := ⟨256, 0⟩
/-- RXRAW, 256 bytes (R60). -/
def Space.rxraw : Space Byte := ⟨256, 0⟩
/-- RXDATA, 140 bytes (R60). -/
def Space.rxdata : Space Byte := ⟨140, 0⟩
/-- TONE, 272 rows of 1024 samples (R61). -/
def Space.tone : Space Frame := ⟨272, Vector.replicate 1024 0⟩
/-- REC, 4096 rows of 256 magnitudes (R61). -/
def Space.recMem : Space RecRow := ⟨4096, Vector.replicate 256 .zero⟩
/-- RECF, 4096 magnitudes (R61). -/
def Space.recf : Space Mag := ⟨4096, .zero⟩

namespace Memory

variable {α : Type}

/-- MEM[a] (R14). -/
def read (sp : Space α) : List (Nat × α) → Nat → α
  | [], _ => sp.unlisted
  | (b, v) :: m, a => if a = b then v else read sp m a

/-- The canonical list with element a holding v. -/
def insert [DecidableEq α] (sp : Space α) : List (Nat × α) → Nat → α → List (Nat × α)
  | [], a, v => if v = sp.unlisted then [] else [(a, v)]
  | (b, w) :: m, a, v =>
    if a < b then (if v = sp.unlisted then (b, w) :: m else (a, v) :: (b, w) :: m)
    else if a = b then (if v = sp.unlisted then m else (a, v) :: m)
    else (b, w) :: insert sp m a v

/-- MEM[a] <- v (R14). An element the space does not have stays away (no rule writes one: R60, log 9). -/
def write [DecidableEq α] (sp : Space α) (m : List (Nat × α)) (a : Nat) (v : α) : List (Nat × α) :=
  if a < sp.size then insert sp m a v else m

/-- MemRead(space, a, n): the n elements from a on (R60). -/
def readN (sp : Space α) (m : List (Nat × α)) (a n : Nat) : List α := (List.range n).map fun i => read sp m (a + i)

/-- MemWrite(space, a, n, v): the elements of v from a on (R60). -/
def writeN [DecidableEq α] (sp : Space α) (m : List (Nat × α)) (a : Nat) : List α → List (Nat × α)
  | [] => m
  | v :: vs => writeN sp (write sp m a v) (a + 1) vs

/-- The whole space at once: element i holds vs[i], and the elements past the end of vs hold what is not listed (the clears of
41_tx.md R152 and 42_rx.md R229). -/
def fill [DecidableEq α] (sp : Space α) (vs : List α) : List (Nat × α) := writeN sp [] 0 vs

/-- The canonical form: indices strictly rising, each an element of the space, none holding what is not listed. -/
abbrev wf [DecidableEq α] (sp : Space α) (m : List (Nat × α)) : Prop :=
  m.Pairwise (fun c c' => c.1 < c'.1) ∧ ∀ c ∈ m, c.1 < sp.size ∧ c.2 ≠ sp.unlisted

/-- Bit i of the byte at a <- 1. -/
def setBit (sp : Space Byte) (m : ByteMem) (a i : Nat) : ByteMem :=
  write sp m a (read sp m a ||| BitVec.ofNat 8 (2 ^ i))

end Memory

/-! ### Byte order at the ports (20_memory.md R64) -/

/-- A sample as bytes, least-significant byte first. -/
def sampleBytes (x : Sample) : List Byte := [x.extractLsb' 0 8, x.extractLsb' 8 8]

/-- A frame as bytes: the samples in index order. -/
def frameBytes (x : Frame) : List Byte := x.toList.flatMap sampleBytes

/-- A command's result as bytes, least-significant byte first (R65). -/
def resultBytes (r : Result) : List Byte := (List.range 4).map fun i => r.extractLsb' (8 * i) 8

/-- The result four bytes carry, least-significant byte first (R65), and the bytes left over (log 13). -/
def resultOfBytes : List Byte → Option (Result × List Byte)
  | b0 :: b1 :: b2 :: b3 :: rest => some (b3 ++ b2 ++ b1 ++ b0, rest)
  | _ => none

/-! ### Ports and completion -/

/-- A command completes: its status and result go back to the host (R290; 30_encoding.md R91). -/
def State.respond (s : State) (st : Status) (r : Result) : State :=
  { s with port := { s.port with responses := ⟨st, r⟩ :: s.port.responses } }

/-- raise REJECTED: the state is left unchanged, result 0 (00_scope.md R14). -/
def State.reject (s : State) : State := s.respond .rejected 0

/-- raise ILLEGAL: no pull, no emit, no write, result 0 (00_scope.md R14; 30_encoding.md R101). -/
def State.illegal (s : State) : State := s.respond .illegal 0

/-- emit(frame): the sink takes one frame (20_memory.md R66). -/
def State.emit (s : State) (x : Frame) : State :=
  { s with port := { s.port with sink := x :: s.port.sink } }

/-- The answer the next pull gets: the host's, where it has placed one, else a free draw (20_memory.md R67; log 4). -/
def Port.answer (p : Port) : Answer := p.source.headD (Config.sourceDraw p.pulls)

/-- A pull consumes its answer (20_memory.md R74). -/
def Port.pulled (p : Port) : Port := { p with source := p.source.tail, pulls := p.pulls + 1 }

/-- The frame RECEIVE analyses: x'[n] = x[n] for n < k and 0 from k on (20_memory.md R68). -/
def zeroPad (a : Answer) : Frame :=
  Vector.ofFn fun n => if n.val < a.count.val then a.samples.get n else 0

/-- The block at its reset values; what stands outside it at the ports stays (70_reset_and_hazards.md R320, R321). -/
def State.applyReset (s : State) : State :=
  { s with cfg := Cfg.reset, tx := Tx.reset, rx := Rx.reset }

/-- The host's next event is taken from the port. -/
def State.takeEvent (s : State) : State := { s with port := { s.port with events := s.port.events.tail } }

/-- The block between commands (60_exceptions.md R307): it holds its state. -/
def State.idle (s : State) : State := s

/-- The Tx half of AbortSessions(): HASDATA <- 0, FRAMEID <- 0 (40_config.md R134). -/
def Tx.abort (t : Tx) : Tx := { t with hasdata := false, frameid := 0 }

/-- The Rx half of AbortSessions(): the candidate is discarded (40_config.md R134). -/
def Rx.abort (r : Rx) : Rx :=
  { r with rxstate := .listening, run := 0, fltr := 0, flta := 0, rxt := 0, acc := Vector.replicate 256 .zero, facc := .zero }

/-- AbortSessions() (40_config.md R134): the effect every committed configuration command performs. -/
def State.abortSessions (s : State) : State := { s with tx := s.tx.abort, rx := s.rx.abort }

end Sys2Proof.Machine
end

