-- ==== Sys2Proof/Machine/Layout.lean ====
section
/-! DEFINITION. The protocol layout: the values derived from the configuration registers and never stored (spec/10_state.md R52,
spec/40_config.md R120, R121, R124, spec/42_rx.md R215), and what makes a configuration legal (10_state.md R22). -/

namespace Sys2Proof.Machine.Cfg

/-- NDB = 8 x BPT: the data slots. -/
def ndb (c : Cfg) : Nat := 8 * c.bpt.toNat

/-- NBL: the blend frames at each group boundary. -/
def nbl (c : Cfg) : Nat := if 2 ≤ c.fpt.toNat then 1 else 0

/-- W = FPT - NBL: the decision window. -/
def window (c : Cfg) : Nat := c.fpt.toNat - c.nbl

/-- The bin of slot s: the slots are FDELTA bins apart from FSTART on (R121). -/
def slotBin (c : Cfg) (s : Nat) : Nat := c.fstart.toNat + s * c.fdelta.toNat

/-- mb(j): the bin of marker slot j. -/
def mb (c : Cfg) (j : Nat) : Nat := c.slotBin j

/-- db(k): the bin of data slot k. -/
def db (c : Cfg) (k : Nat) : Nat := c.slotBin (Config.markerBits + k)

/-- A: the per-tone amplitude (41_tx.md R161). -/
def amp (c : Cfg) : Nat := (c.vol.toNat * (Config.fullScale / c.ndb)) / 100

/-- HZPF = RATE_IN / N: the bin width in Hz. -/
def hzpf (c : Cfg) : Rat := (c.rateIn.toNat : Rat) / Config.samplesPerFrame

/-- The frequency of bin b in Hz, b x RATE_IN / N (40_config.md R133). -/
def binHz (c : Cfg) (b : Nat) : Rat := (b : Rat) * c.hzpf

/-- ENCMAX: the longest encodedData the configuration can produce (42_rx.md R215). -/
def encmax (c : Cfg) : Nat :=
  match c.mode with
  | .variable => 3 + Config.maxLength + c.ecc.toNat
  | .fixed => Config.fixedLength + c.ecc.toNat

/-- GMAX = ceil(ENCMAX / BPT). -/
def gmax (c : Cfg) : Nat := ceilDiv c.encmax c.bpt.toNat

/-- FTR = NRB + GMAX x FPT: the recording budget, `framesToRecord`. -/
def ftr (c : Cfg) : Nat := Config.rampBegin + c.gmax * c.fpt.toNat

/-- FTA = FTR: `framesToAnalyze`. -/
def fta (c : Cfg) : Nat := c.ftr

/-- The bin of the highest data slot, db(NDB - 1) (40_config.md R124). -/
def topBin (c : Cfg) : Nat := c.fstart.toNat + (15 + 8 * c.bpt.toNat) * c.fdelta.toNat

/-- The legal values of the configuration registers, with the Nyquist rule (10_state.md R22; 40_config.md R124). -/
abbrev Legal (c : Cfg) : Prop :=
  1 ≤ c.fdelta.toNat ∧ 1 ≤ c.fstart.toNat ∧ c.topBin ≤ 511 ∧ 1 ≤ c.fpt.toNat ∧ 1 ≤ c.bpt.toNat ∧ c.bpt.toNat ≤ 32 ∧
  c.vol.toNat ≤ 100 ∧ 2 ≤ c.ecc.toNat ∧ c.ecc.toNat ≤ 64 ∧ 8000 ≤ c.rateIn.toNat ∧ c.rateIn.toNat ≤ 192000 ∧
  8000 ≤ c.rateOut.toNat ∧ c.rateOut.toNat ≤ 192000

end Sys2Proof.Machine.Cfg
end

