-- ==== Sys2Proof/Machine/Operands.lean ====
section
/-! DEFINITION. Every operand form: what each command does to its operand fields before it uses them (the clamps of
spec/40_config.md R122, R123, R130 and spec/41_tx.md R152) and which operand values it rejects (R124, R132; 41_tx.md R150;
spec/42_rx.md R240). Operands are unsigned, zero-extended, unscaled and unshifted (spec/30_encoding.md R93 to R99). -/

namespace Sys2Proof.Machine

/-- The operands of SETPARAM, zero-extended (30_encoding.md R93). -/
structure Knobs where
  fd  : Nat
  fs  : Nat
  fpt : Nat
  bpt : Nat
  vol : Nat
  deriving DecidableEq, Repr

/-- A zero field becomes 1, the smallest legal value (40_config.md R123). -/
def raiseZero (v : Nat) : Nat := if v = 0 then 1 else v

/-- The clamps of SETPARAM (40_config.md R122). -/
def Knobs.clamp (k : Knobs) : Knobs where
  fd := raiseZero k.fd
  fs := raiseZero k.fs
  fpt := raiseZero k.fpt
  bpt := min (raiseZero k.bpt) 32
  vol := min k.vol 100

/-- c = 1: some clamp of SETPARAM replaced its field (40_config.md R122; 60_exceptions.md R291). -/
def Knobs.clamps (k : Knobs) : Bool :=
  k.fd == 0 || k.fs == 0 || k.fpt == 0 || k.bpt == 0 || decide (32 < k.bpt) || decide (100 < k.vol)

/-- The bin of the highest data slot (40_config.md R122). -/
def Knobs.top (k : Knobs) : Nat := k.fs + (15 + 8 * k.bpt) * k.fd

/-- The layout passes the Nyquist limit (40_config.md R124). -/
def Knobs.beyondNyquist (k : Knobs) : Bool := decide (511 < k.top)

/-- The parity count SETECC writes: clamped to 2..64 (40_config.md R130). -/
def clampEcc (e : Nat) : Nat := min (max e Config.minEcc) Config.maxEcc

/-- SETECC's operand was clamped (40_config.md R130). -/
def eccClamps (e : Nat) : Bool := decide (e < Config.minEcc) || decide (Config.maxEcc < e)

/-- A sample rate is in 8000..192000 Hz (40_config.md R132). -/
def rateInRange (r : Nat) : Bool := decide (Config.minRate ≤ r) && decide (r ≤ Config.maxRate)

/-- An index of TXSTAGE or RXDATA (41_tx.md R150; 42_rx.md R240). -/
def indexInRange (i : Nat) : Bool := decide (i < Config.maxLength)

/-- L: the bytes INIT copies (41_tx.md R152). -/
def copiedLength (len : Nat) : Nat := min len Config.maxLength

/-- INIT drops bytes: LEN > 140, or FixedLength with L > 32 (41_tx.md R152; 60_exceptions.md R291). -/
def lengthClamps (m : Mode) (len : Nat) : Bool :=
  decide (Config.maxLength < len) ||
    match m with
    | .variable => false
    | .fixed => decide (Config.fixedLength < copiedLength len)

/-- SETMODE's operand (30_encoding.md R94). -/
def Mode.ofBit (b : BitVec 1) : Mode := if b = 0#1 then .variable else .fixed

end Sys2Proof.Machine
end

