-- ==== Sys2Proof/Machine/Flags.lean ====
section
/-! DEFINITION. Every flag the spec computes: the status codes and when a command is CLAMPED (spec/60_exceptions.md R290), the
mode and Rx state codes, the flags derived from RXSTATE (spec/10_state.md R41), a flag as a result (spec/43_query.md R260), and
RECEIVE's result word (spec/42_rx.md R200). The block has no condition codes and no arithmetic flags (10_state.md R51). -/

namespace Sys2Proof.Machine

/-- STATUS[1:0] (60_exceptions.md R290). -/
def Status.code : Status → BitVec 2
  | .ok => 0
  | .clamped => 1
  | .rejected => 2
  | .illegal => 3

/-- status <- (c = 1 ? CLAMPED : OK) (40_config.md R122). -/
def Status.ofClamp (c : Bool) : Status := if c then .clamped else .ok

/-- MODE as its bit (10_state.md R22). -/
def Mode.code : Mode → BitVec 1
  | .variable => 0
  | .fixed => 1

/-- RXSTATE as its two bits (10_state.md R40). -/
def RxState.code : RxState → BitVec 2
  | .listening => 0
  | .markerLocked => 1
  | .recording => 2
  | .analyzing => 3

/-- receivingData (10_state.md R41). -/
def RxState.receivingData : RxState → Bool
  | .markerLocked | .recording => true
  | .listening | .analyzing => false

/-- analyzingData (10_state.md R41). -/
def RxState.analyzingData : RxState → Bool
  | .analyzing => true
  | .listening | .markerLocked | .recording => false

/-- zext_32 of a one-bit flag (43_query.md R260). -/
def flagResult (b : Bool) : Result := BitVec.ofNat 32 b.toNat

/-- The response word {STATUS[1:0], RESULT[31:0]} (30_encoding.md R91). -/
def Response.word (r : Response) : BitVec 34 := r.status.code ++ r.result

/-- RECEIVE's result, {19'b0, newrx, 1'b0, k[10:0]} (42_rx.md R200). -/
def receiveResult (newrx : Bool) (k : Nat) : Result :=
  0#19 ++ BitVec.ofBool newrx ++ 0#1 ++ BitVec.ofNat 11 k

end Sys2Proof.Machine
end

