-- ==== Sys2Proof/Machine/Tone.lean ====
section
/-! DEFINITION. The NCO/DDS tone generator and the envelope shaper of spec/41_tx.md: the sine ROM (R162), the tone templates
(R163, R165), the tone table (R166), the waveforms (R168, R169), the envelopes (R170 to R172), the segments of a session (R156)
and the frame-sample function (R173). All arithmetic is exact, on integers (spec/00_scope.md R12). -/

namespace Sys2Proof.Machine

/-! ### The sine ROM -/

/-- Rows 0..143 of the table of R162, sixteen values a row. -/
def quarterLow : List (List Nat) :=
  [[0, 201, 402, 603, 804, 1005, 1206, 1407, 1608, 1809, 2009, 2210, 2410, 2611, 2811, 3012],
   [3212, 3412, 3612, 3811, 4011, 4210, 4410, 4609, 4808, 5007, 5205, 5404, 5602, 5800, 5998, 6195],
   [6393, 6590, 6786, 6983, 7179, 7375, 7571, 7767, 7962, 8157, 8351, 8545, 8739, 8933, 9126, 9319],
   [9512, 9704, 9896, 10087, 10278, 10469, 10659, 10849, 11039, 11228, 11417, 11605, 11793, 11980, 12167, 12353],
   [12539, 12725, 12910, 13094, 13279, 13462, 13645, 13828, 14010, 14191, 14372, 14553, 14732, 14912, 15090, 15269],
   [15446, 15623, 15800, 15976, 16151, 16325, 16499, 16673, 16846, 17018, 17189, 17360, 17530, 17700, 17869, 18037],
   [18204, 18371, 18537, 18703, 18868, 19032, 19195, 19357, 19519, 19680, 19841, 20000, 20159, 20317, 20475, 20631],
   [20787, 20942, 21096, 21250, 21403, 21554, 21705, 21856, 22005, 22154, 22301, 22448, 22594, 22739, 22884, 23027],
   [23170, 23311, 23452, 23592, 23731, 23870, 24007, 24143, 24279, 24413, 24547, 24680, 24811, 24942, 25072, 25201]]

/-- Rows 144..256 of the table of R162. -/
def quarterHigh : List (List Nat) :=
  [[25329, 25456, 25582, 25708, 25832, 25955, 26077, 26198, 26319, 26438, 26556, 26674, 26790, 26905, 27019, 27133],
   [27245, 27356, 27466, 27575, 27683, 27790, 27896, 28001, 28105, 28208, 28310, 28411, 28510, 28609, 28706, 28803],
   [28898, 28992, 29085, 29177, 29268, 29358, 29447, 29534, 29621, 29706, 29791, 29874, 29956, 30037, 30117, 30195],
   [30273, 30349, 30424, 30498, 30571, 30643, 30714, 30783, 30852, 30919, 30985, 31050, 31113, 31176, 31237, 31297],
   [31356, 31414, 31470, 31526, 31580, 31633, 31685, 31736, 31785, 31833, 31880, 31926, 31971, 32014, 32057, 32098],
   [32137, 32176, 32213, 32250, 32285, 32318, 32351, 32382, 32412, 32441, 32469, 32495, 32521, 32545, 32567, 32589],
   [32609, 32628, 32646, 32663, 32678, 32692, 32705, 32717, 32728, 32737, 32745, 32752, 32757, 32761, 32765, 32766],
   [32767]]

/-- Q[p] for p = 0..256: the quarter wave (R162). -/
def quarter (p : Nat) : Nat := ((quarterLow ++ quarterHigh).getD (p / 16) []).getD (p % 16) 0

/-- SINQ[p] for p = 0..1023, from the quarter wave by symmetry (R162). -/
def sinq (p : Nat) : Int :=
  if p ≤ 256 then quarter p
  else if p ≤ 512 then quarter (512 - p)
  else if p ≤ 768 then -(quarter (p - 512) : Int)
  else -(quarter (1024 - p) : Int)

/-! ### Templates and the tone table -/

/-- phase(b, n) = (b x n) mod 1024 (R163). -/
def phase (b n : Nat) : Nat := (b * n) % 1024

/-- T(b)[n] at amplitude A: asr(A x SINQ[phase(b, n)], 15) (R163). -/
def template (A b n : Nat) : Int := asr ((A : Int) * sinq (phase b n)) 15

/-- T(b)[n] of the configuration: every tone has amplitude A (R161, R163). -/
def tone (c : Cfg) (b n : Nat) : Int := template c.amp b n

/-- bit1Amplitude of a data slot is its template, bit0Amplitude is silence (R165). -/
def bitAmplitude (c : Cfg) (k : Nat) (bit : Bool) (n : Nat) : Int := if bit then tone c (c.db k) n else 0

/-- The row TONE[s]: the template of slot s, as samples (R165). -/
def toneRow (c : Cfg) (s : Nat) : Frame := Vector.ofFn fun n => BitVec.ofInt 16 (tone c (c.slotBin s) n.val)

/-- The tone-table rebuild: TONE[s] for every slot s in 0..15+NDB (R166). -/
def rebuildTone (c : Cfg) (m : RowMem Frame) : RowMem Frame :=
  Memory.writeN Space.tone m 0 ((List.range (Config.markerBits + c.ndb)).map (toneRow c))

/-- What SEND does to the tone table before it emits: a dirty table is rebuilt, and TT_DIRTY <- 0 (R166, R175). -/
def Tx.refreshTone (c : Cfg) (t : Tx) : Tx :=
  if t.ttDirty then { t with tone := rebuildTone c t.tone, ttDirty := false } else t

/-! ### Waveforms -/

/-- bit(g, k) = ENC[g x BPT + k div 8][k mod 8] (R155). -/
def groupBit (c : Cfg) (enc : ByteMem) (g k : Nat) : Bool :=
  (Memory.read Space.enc enc (g * c.bpt.toNat + k / 8)).getLsbD (k % 8)

/-- The sum of f over a list of indices. -/
def sumOver (l : List Nat) (f : Nat → Int) : Int := (l.map f).sum

/-- D(g)[n]: the data waveform of byte-group g (R168). -/
def dataWave (c : Cfg) (enc : ByteMem) (g n : Nat) : Int :=
  sumOver (List.range c.ndb) fun k => bitAmplitude c k (groupBit c enc g k) n

/-- MK[n]: the start marker sounds the even marker slots (R169). -/
def startMarker (c : Cfg) (n : Nat) : Int := sumOver [0, 2, 4, 6, 8, 10, 12, 14] fun j => tone c (c.mb j) n

/-- PM[n]: the post-marker sounds the odd marker slots (R169). -/
def postMarker (c : Cfg) (n : Nat) : Int := sumOver [1, 3, 5, 7, 9, 11, 13, 15] fun j => tone c (c.mb j) n

/-! ### Envelopes -/

/-- The gain of sample n of frame j of a linear ramp over `frames` frames, in Q15:
((j x 1024 + n) x 32768) div (frames x 1024) (R170, R171, R172). -/
def rampGain (frames j n : Nat) : Nat := ((j * 1024 + n) * 32768) / (frames * 1024)

/-- Ramp-up of group 0 (R170). -/
def rampUp (c : Cfg) (enc : ByteMem) (j n : Nat) : Int :=
  asr (dataWave c enc 0 n * (rampGain Config.rampBegin j n : Int)) 15

/-- Cross-fade from group g-1 to group g (R171). -/
def blend (c : Cfg) (enc : ByteMem) (g i n : Nat) : Int :=
  asr (dataWave c enc (g - 1) n * (32768 - (rampGain c.nbl i n : Int)) + dataWave c enc g n * (rampGain c.nbl i n : Int)) 15

/-- Ramp-down of the last group, G-1 (R172). -/
def rampDown (c : Cfg) (enc : ByteMem) (G j n : Nat) : Int :=
  asr (dataWave c enc (G - 1) n * (32768 - (rampGain Config.rampEnd j n : Int))) 15

/-! ### Segments -/

/-- The segments of a session (R156). -/
inductive Segment where
  | marker
  | rampUp (j : Nat)
  | data (g : Nat)
  | blend (g i : Nat)
  | rampDown (j : Nat)
  | post
  deriving DecidableEq, Repr

/-- Seg(f), for a session of G byte-groups (R156). -/
def segment (c : Cfg) (G f : Nat) : Segment :=
  let fpt := c.fpt.toNat
  if f < 16 then .marker
  else if f < 18 then .rampUp (f - 16)
  else if f < 18 + G * fpt then
    let f' := f - 18
    let g := f' / fpt
    let i := f' % fpt
    if 1 ≤ g ∧ i < c.nbl then .blend g i else .data g
  else if f < 20 + G * fpt then .rampDown (f - 18 - G * fpt)
  else .post

/-- dataId, derived from the segment: the ENC byte at which the current byte-group starts (R160). -/
def Segment.dataId (c : Cfg) : Segment → Option Nat
  | .data g => some (g * c.bpt.toNat)
  | .blend g _ => some (g * c.bpt.toNat)
  | .marker | .rampUp _ | .rampDown _ | .post => none

/-- The value v of R173 before saturation. -/
def segmentValue (c : Cfg) (enc : ByteMem) (G : Nat) (seg : Segment) (n : Nat) : Int :=
  match seg with
  | .marker => startMarker c n
  | .rampUp j => rampUp c enc j n
  | .data g => dataWave c enc g n
  | .blend g i => blend c enc g i n
  | .rampDown j => rampDown c enc G j n
  | .post => postMarker c n

/-- FrameSample(f, n) (R173). -/
def frameSample (c : Cfg) (enc : ByteMem) (G f n : Nat) : Int := sat16 (segmentValue c enc G (segment c G f) n)

/-- The frame SEND emits: its 1024 samples (R175). -/
def txFrame (c : Cfg) (t : Tx) : Frame :=
  Vector.ofFn fun n => BitVec.ofInt 16 (frameSample c t.enc t.ngrp.toNat t.frameid.toNat n.val)

end Sys2Proof.Machine
end

