-- ==== Sys2Proof/Machine/Configure.lean ====
section
/-! DEFINITION. The configuration commands of spec/40_config.md: SETPARAM (R122), SETMODE (R128), SETECC (R130) and SETRATE
(R132), each over AbortSessions (R134). A command that ends REJECTED does not abort (R135). -/

namespace Sys2Proof.Machine

/-- A configuration command commits: the new registers, then AbortSessions (R134). -/
def State.commitConfig (s : State) (c : Cfg) : State := { s with cfg := c }.abortSessions

/-- TT_DIRTY <- 1 (10_state.md R34). -/
def State.markToneDirty (s : State) : State := { s with tx := { s.tx with ttDirty := true } }

/-- The configuration with the five knobs written (R122). -/
def Cfg.withKnobs (c : Cfg) (k : Knobs) : Cfg :=
  { c with
    fdelta := BitVec.ofNat 8 k.fd, fstart := BitVec.ofNat 10 k.fs, fpt := BitVec.ofNat 4 k.fpt,
    bpt := BitVec.ofNat 6 k.bpt, vol := BitVec.ofNat 7 k.vol }

/-- SETPARAM (R122). -/
def execSetparam (fd : BitVec 8) (fs : BitVec 10) (fpt : BitVec 4) (bpt : BitVec 6) (vol : BitVec 7) (s : State) :
    Host.Outcome State Fault Refusal :=
  let k : Knobs := ⟨fd.toNat, fs.toNat, fpt.toNat, bpt.toNat, vol.toNat⟩
  .next <|
    if k.clamp.beyondNyquist then s.reject
    else ((s.markToneDirty).commitConfig (s.cfg.withKnobs k.clamp)).respond (.ofClamp k.clamps) 0

/-- SETMODE (R128). -/
def execSetmode (m : BitVec 1) (s : State) : Host.Outcome State Fault Refusal :=
  .next <| (s.commitConfig { s.cfg with mode := .ofBit m }).respond .ok 0

/-- SETECC (R130). -/
def execSetecc (e : BitVec 7) (s : State) : Host.Outcome State Fault Refusal :=
  .next <| (s.commitConfig { s.cfg with ecc := BitVec.ofNat 7 (clampEcc e.toNat) }).respond (.ofClamp (eccClamps e.toNat)) 0

/-- SETRATE (R132). -/
def execSetrate (rin rout : BitVec 24) (s : State) : Host.Outcome State Fault Refusal :=
  .next <|
    if rateInRange rin.toNat && rateInRange rout.toNat then
      ((s.markToneDirty).commitConfig { s.cfg with rateIn := rin, rateOut := rout }).respond .ok 0
    else s.reject

end Sys2Proof.Machine
end

