-- ==== Sys2Proof/Machine/Transmit.lean ====
section
/-! DEFINITION. The transmit commands of spec/41_tx.md: WTXB (R150), INIT (R152 to R157) and SEND (R175). They read and write no
Rx state (R158). -/

namespace Sys2Proof.Machine

/-- WTXB (R150): one byte of the staging buffer. -/
def execWtxb (idx data : BitVec 8) (s : State) : Host.Outcome State Fault Refusal :=
  .next <|
    if indexInRange idx.toNat then
      { s with tx := { s.tx with txstage := Memory.write Space.txstage s.tx.txstage idx.toNat data } }.respond .ok 0
    else s.reject

/-! ### INIT -/

/-- The payload of FixedLength mode: the first 32 bytes of the text, padded with zeros to 32 (R152, R153). -/
def fixedPayload (text : List Byte) : List Byte :=
  text.take Config.fixedLength ++ List.replicate (Config.fixedLength - min text.length Config.fixedLength) 0

/-- cw: the encodedData of a text of L bytes (R152, R154). -/
def codeword (P : Params) (c : Cfg) (text : List Byte) : List Byte :=
  match c.mode with
  | .variable => P.enc Config.lenEcc [BitVec.ofNat 8 text.length] ++ P.enc c.ecc.toNat text
  | .fixed => P.enc c.ecc.toNat (fixedPayload text)

/-- SDL: the payload length encoded (R152, R153). -/
def sendLength (m : Mode) (L : Nat) : Nat :=
  match m with
  | .variable => L
  | .fixed => Config.fixedLength

/-- TOTAL of a session of G byte-groups: NMF + NRB + G x FPT + NRE + NPM (R156). -/
def sessionFrames (c : Cfg) (G : Nat) : Nat :=
  Config.markerFrames + Config.rampBegin + G * c.fpt.toNat + Config.rampEnd + Config.postFrames

/-- The text INIT copies: TXSTAGE[0..L-1] (R152). -/
def stagedText (t : Tx) (len : Nat) : List Byte := Memory.readN Space.txstage t.txstage 0 (copiedLength len)

/-- The session INIT starts on a text, with encodedData cw (R152). -/
def Tx.startSession (c : Cfg) (t : Tx) (text cw : List Byte) : Tx :=
  let G := ceilDiv cw.length c.bpt.toNat
  { t with
    txtext := Memory.fill Space.txtext text
    txlen := BitVec.ofNat 8 text.length
    sdl := BitVec.ofNat 8 (sendLength c.mode text.length)
    enclen := BitVec.ofNat 9 cw.length
    enc := Memory.fill Space.enc cw
    ngrp := BitVec.ofNat 8 G
    total := BitVec.ofNat 16 (sessionFrames c G)
    frameid := 0
    hasdata := true }

/-- INIT's effect on the Tx session, for the collaborators P (R152). -/
def Tx.init (P : Params) (c : Cfg) (t : Tx) (len : Nat) : Tx :=
  t.startSession c (stagedText t len) (codeword P c (stagedText t len))

/-- INIT (R152), for the collaborators P. -/
def State.initSession (P : Params) (len : Nat) (s : State) : State :=
  let tx := s.tx.init P s.cfg len
  { s with tx := tx }.respond (.ofClamp (lengthClamps s.cfg.mode len)) (tx.total.setWidth 32)

/-- INIT (R152). -/
def execInit (len : BitVec 8) (s : State) : Host.Outcome State Fault Refusal :=
  .next <| s.initSession Config.params len.toNat

/-! ### SEND -/

/-- The cursor after a frame: the session ends with its last frame (R175). -/
def Tx.advance (t : Tx) : Tx :=
  if t.frameid.toNat + 1 = t.total.toNat then { t with hasdata := false, frameid := 0 }
  else { t with frameid := t.frameid + 1 }

/-- SEND with a session in flight: the tone table, the frame, the cursor (R175). -/
def State.sendFrame (s : State) : State :=
  let tx := s.tx.refreshTone s.cfg
  ({ s with tx := tx.advance }.emit (txFrame s.cfg tx)).respond .ok 1024

/-- SEND (R175). -/
def execSend (s : State) : Host.Outcome State Fault Refusal :=
  .next <| if s.tx.hasdata then s.sendFrame else s.respond .ok 0

end Sys2Proof.Machine
end

