-- ==== Sys2Proof/Machine/Receive.lean ====
section
/-! DEFINITION. The receive commands of spec/42_rx.md: RECEIVE (R200), RDRX (R240) and GETRXLEN (R241), with the datapath
RECEIVE runs: the FFT engine (R203), the noise floor (R206, R207), the marker detector (R208, R209), the Rx state machine (R210 to R217), the
symbol-decision pipeline (R219 to R225) and the decode stage (R226 to R229). They write no Tx state (41_tx.md R158). -/

namespace Sys2Proof.Machine

/-! ### FFT engine -/

/-- SpecMag(x): the 513 outputs of the FFT engine on the frame x (R203). -/
def spectrum (x : Frame) : Spectrum := Vector.ofFn fun b => .bin x b

/-! ### Noise floor -/

/-- HIST[h][b]. -/
def Rx.histAt (r : Rx) (h b : Nat) : Mag := elem (elem r.hist (Vector.replicate 513 .zero) h) .zero b

/-- AVG[b]: the mean over the written slots, 0 when there is none (10_state.md R53). -/
def Rx.avg (r : Rx) (b : Nat) : Mag :=
  if r.hcount = 0 then .zero
  else .scale 1 r.hcount.toNat (sumMag (min r.hcount.toNat Config.maxHistory) fun h => r.histAt h b)

/-- Floor(): the mean of AVG over bins 1..511 (R206). -/
def Rx.floor (r : Rx) : Mag := .scale 1 511 (sumMag 511 fun i => r.avg (i + 1))

/-- HistoryPush(S) (R207). -/
def Rx.historyPush (r : Rx) (S : Spectrum) : Rx :=
  { r with
    hist := r.hist.setIfInBounds r.hid.toNat S
    hid := r.hid + 1
    hcount := BitVec.ofNat 3 (min (r.hcount.toNat + 1) Config.maxHistory) }

/-! ### Marker detector -/

/-- m exceeds the floor value fl by the threshold ratio THETA = 3/2: 2 x m > 3 x fl, exact and strict (R208, R224). -/
def exceeds (P : Params) (m fl : Mag) : Bool := P.less (.scale 3 1 fl) (.scale 2 1 m)

/-- ON(S, FL, b) = 2 x S[b] > 3 x FL (R208). -/
def binOn (P : Params) (S : Spectrum) (fl : Mag) (b : Nat) : Bool := exceeds P (elem S .zero b) fl

/-- MarkerMatch(S, FL): every marker bin shows the start-marker pattern, ON at the even slots and not at the odd ones (R209). -/
def markerMatch (P : Params) (c : Cfg) (S : Spectrum) (fl : Mag) : Bool :=
  (List.range Config.markerBits).all fun j => binOn P S fl (c.mb j) == (j % 2 == 0)

/-! ### Rx state machine -/

/-- ListenStep(M) (R211). -/
def Rx.listenStep (r : Rx) (m : Bool) : Rx :=
  let run := if m then satInc r.run else 0
  if Config.lockFrames ≤ run.toNat then { r with run := run, rxstate := .markerLocked, rxt := 0 }
  else { r with run := run }

/-- RecordRow(i, FL): the data-slot bins of SPEC, and the floor; the other slots of the row keep what they hold (R214). -/
def Rx.recordRow (c : Cfg) (r : Rx) (i : Nat) (fl : Mag) : Rx :=
  let old := Memory.read Space.recMem r.recMem i
  let row : RecRow := Vector.ofFn fun k => if k.val < c.ndb then elem r.spec .zero (c.db k.val) else old.get k
  { r with
    recMem := Memory.write Space.recMem r.recMem i row
    recf := Memory.write Space.recf r.recf i fl }

/-- LockedStep(M, FL) (R213). -/
def Rx.lockedStep (c : Cfg) (r : Rx) (m : Bool) (fl : Mag) : Rx :=
  let r := { r with rxt := satInc r.rxt }
  if m then { r with run := satInc r.run }
  else { r.recordRow c 0 fl with rxstate := .recording, fltr := BitVec.ofNat 16 (c.ftr - 1) }

/-- The transition to ANALYZING clears the accumulator and RXRAW (R216, R217). -/
def Rx.enterAnalyzing (c : Cfg) (r : Rx) : Rx :=
  { r with
    rxstate := .analyzing, flta := BitVec.ofNat 16 c.fta, acc := Vector.replicate 256 .zero, facc := .zero,
    rxraw := [] }

/-- RecordStep(FL) (R216). -/
def Rx.recordStep (c : Cfg) (r : Rx) (fl : Mag) : Rx :=
  let r := { r with rxt := satInc r.rxt }
  let r := r.recordRow c (c.ftr - r.fltr.toNat) fl
  let r := { r with fltr := r.fltr - 1 }
  if r.fltr = 0 then r.enterAnalyzing c else r

/-! ### Symbol decision -/

/-- ACC and FACC take in record a (R223). -/
def Rx.accumulate (c : Cfg) (r : Rx) (a : Nat) : Rx :=
  let row := Memory.read Space.recMem r.recMem a
  { r with
    acc := Vector.ofFn fun k => if k.val < c.ndb then .add (r.acc.get k) (row.get k) else r.acc.get k
    facc := .add r.facc (Memory.read Space.recf r.recf a) }

/-- bit(g, k) = 1 iff 2 x ACC[k] > 3 x FACC (R224). -/
def Rx.decideBit (P : Params) (r : Rx) (k : Nat) : Bool := exceeds P (elem r.acc .zero k) r.facc

/-- The decisions of group g go to RXRAW, and the accumulator is cleared (R219, R224). -/
def Rx.decideGroup (P : Params) (c : Cfg) (r : Rx) (g : Nat) : Rx :=
  { r with
    rxraw := (List.range c.ndb).foldl
      (fun m k => if r.decideBit P k then Memory.setBit Space.rxraw m (g * c.bpt.toNat + k / 8) (k % 8) else m) r.rxraw
    acc := Vector.replicate 256 .zero
    facc := .zero }

/-- What record a does to the accumulator and to RXRAW: rows 0 and 1 are the ramp-up, frame i of group g enters the decision
window from NBL on, and the group is decided at its last frame (R219 to R222). -/
def Rx.analyzeRow (P : Params) (c : Cfg) (r : Rx) (a : Nat) : Rx :=
  if a < Config.rampBegin then r
  else
    let g := (a - Config.rampBegin) / c.fpt.toNat
    let i := (a - Config.rampBegin) % c.fpt.toNat
    let r := if c.nbl ≤ i then r.accumulate c a else r
    if i = c.fpt.toNat - 1 then r.decideGroup P c g else r

/-! ### Decode stage -/

/-- Decode() up to its commit: the payload and its length, or none where the candidate is discarded (R226 to R228). -/
def decodePayload (P : Params) (c : Cfg) (rxraw : ByteMem) : Option (List Byte × Nat) :=
  match c.mode with
  | .variable =>
    match P.dec Config.lenEcc (Memory.readN Space.rxraw rxraw 0 3) with
    | none => none
    | some m =>
      let l := (m.getD 0 0).toNat
      if Config.maxLength < l then none
      else (P.dec c.ecc.toNat (Memory.readN Space.rxraw rxraw 3 (l + c.ecc.toNat))).map fun p => (p, l)
  | .fixed =>
    (P.dec c.ecc.toNat (Memory.readN Space.rxraw rxraw 0 (Config.fixedLength + c.ecc.toNat))).map fun p => (p, Config.fixedLength)

/-- Commit(m, l) (R229). -/
def Rx.commit (r : Rx) (m : List Byte) (l : Nat) : Rx :=
  { r with
    rxdata := Memory.fill Space.rxdata (m.take l)
    rxlen := BitVec.ofNat 8 l
    rxcount := r.rxcount + 1
    rxtSum := r.rxtSum + r.rxt.setWidth 64 }

/-- Back to LISTENING, on success and failure alike (R225). -/
def Rx.toListening (r : Rx) : Rx := { r with rxstate := .listening, run := 0 }

/-- Decode() and the return to LISTENING; the flag is newrx (R225 to R229). -/
def Rx.decodeStep (P : Params) (c : Cfg) (r : Rx) : Rx × Bool :=
  match decodePayload P c r.rxraw with
  | none => (r.toListening, false)
  | some (m, l) => ((r.commit m l).toListening, true)

/-- AnalyzeStep() (R219). -/
def Rx.analyzeStep (P : Params) (c : Cfg) (r : Rx) : Rx × Bool :=
  let r := { r with rxt := satInc r.rxt }
  let r := r.analyzeRow P c (c.fta - r.flta.toNat)
  let r := { r with flta := r.flta - 1 }
  if r.flta = 0 then r.decodeStep P c else (r, false)

/-! ### RECEIVE -/

/-- The new samples enter TBC, SAMP, SPEC and, after the floor is taken, the history (R200, R202, R205). -/
def Rx.capture (r : Rx) (a : Answer) : Rx :=
  { r with
    tbc := r.tbc + BitVec.ofNat 32 (Config.sampleBytesIn * a.count.val)
    samp := zeroPad a
    spec := spectrum (zeroPad a) }.historyPush (spectrum (zeroPad a))

/-- A tick with k > 0: the captured frame, then the step of the state the tick began in (R200). -/
def Rx.liveTick (P : Params) (c : Cfg) (r : Rx) (a : Answer) : Rx :=
  let fl := r.floor
  let r' := r.capture a
  let m := markerMatch P c r'.spec fl
  match r.rxstate with
  | .listening => r'.listenStep m
  | .markerLocked => r'.lockedStep c m fl
  | .recording => r'.recordStep c fl
  | .analyzing => r'

/-- One RECEIVE, for the collaborators P and the answer a: the Rx state after it and newrx. A tick with k = 0 does only the
ANALYZING step, which runs whether k = 0 or not (R200, R201). -/
def Rx.tick (P : Params) (c : Cfg) (r : Rx) (a : Answer) : Rx × Bool :=
  let r' := if 0 < a.count.val then r.liveTick P c a else r
  match r.rxstate with
  | .analyzing => r'.analyzeStep P c
  | .listening | .markerLocked | .recording => (r', false)

/-- RECEIVE (R200), for the collaborators P: exactly one pull. -/
def State.receiveFrame (P : Params) (s : State) : State :=
  let a := s.port.answer
  let r := s.rx.tick P s.cfg a
  { s with rx := r.1, port := s.port.pulled }.respond .ok (receiveResult r.2 a.count.val)

/-- RECEIVE (R200). -/
def execReceive (s : State) : Host.Outcome State Fault Refusal := .next <| s.receiveFrame Config.params

/-- RDRX (R240): one byte of the decoded payload. -/
def execRdrx (idx : BitVec 8) (s : State) : Host.Outcome State Fault Refusal :=
  .next <|
    if indexInRange idx.toNat then s.respond .ok ((Memory.read Space.rxdata s.rx.rxdata idx.toNat).setWidth 32)
    else s.reject

/-- GETRXLEN (R241). -/
def execGetrxlen (s : State) : Host.Outcome State Fault Refusal := .next <| s.respond .ok (s.rx.rxlen.setWidth 32)

end Sys2Proof.Machine
end

