-- ==== Sys2Proof/Machine/Query.lean ====
section
/-! DEFINITION. The queries of spec/43_query.md: each answers OK with its value V and writes nothing (R277). -/

namespace Sys2Proof.Machine

/-- The template of every query (R277). -/
def State.query (s : State) (v : Result) : Host.Outcome State Fault Refusal := .next (s.respond .ok v)

/-- V of GETAVGRXT: the mean receive time in whole milliseconds (R263). -/
def averageRxTime (c : Cfg) (r : Rx) : Nat :=
  if r.rxcount = 0 then 0
  else min (2 ^ 32 - 1) ((r.rxtSum.toNat * 1024 * 1000) / (r.rxcount.toNat * c.rateIn.toNat))

/-- GETHASDATA (R260). -/
def execGethasdata (s : State) : Host.Outcome State Fault Refusal := s.query (flagResult s.tx.hasdata)
/-- GETAVGRXT (R263). -/
def execGetavgrxt (s : State) : Host.Outcome State Fault Refusal := s.query (BitVec.ofNat 32 (averageRxTime s.cfg s.rx))
/-- GETFTR (R265). -/
def execGetftr (s : State) : Host.Outcome State Fault Refusal := s.query (BitVec.ofNat 32 s.cfg.ftr)
/-- GETFLTR (R266). -/
def execGetfltr (s : State) : Host.Outcome State Fault Refusal := s.query (s.rx.fltr.setWidth 32)
/-- GETFTA (R267). -/
def execGetfta (s : State) : Host.Outcome State Fault Refusal := s.query (BitVec.ofNat 32 s.cfg.fta)
/-- GETFLTA (R268). -/
def execGetflta (s : State) : Host.Outcome State Fault Refusal := s.query (s.rx.flta.setWidth 32)
/-- GETTBC (R269). -/
def execGettbc (s : State) : Host.Outcome State Fault Refusal := s.query s.rx.tbc
/-- GETRXSTATE (R270). -/
def execGetrxstate (s : State) : Host.Outcome State Fault Refusal := s.query (s.rx.rxstate.code.setWidth 32)
/-- GETRATEIN (R272). -/
def execGetratein (s : State) : Host.Outcome State Fault Refusal := s.query (s.cfg.rateIn.setWidth 32)
/-- GETRATEOUT (R273). -/
def execGetrateout (s : State) : Host.Outcome State Fault Refusal := s.query (s.cfg.rateOut.setWidth 32)
/-- GETSPF (R274). -/
def execGetspf (s : State) : Host.Outcome State Fault Refusal := s.query (BitVec.ofNat 32 Config.samplesPerFrame)
/-- GETSSBIN (R275). -/
def execGetssbin (s : State) : Host.Outcome State Fault Refusal := s.query (BitVec.ofNat 32 Config.sampleBytesIn)
/-- GETSSBOUT (R276). -/
def execGetssbout (s : State) : Host.Outcome State Fault Refusal := s.query (BitVec.ofNat 32 Config.sampleBytesOut)

end Sys2Proof.Machine
end

