-- ==== Sys2Proof/Machine/Dispatch.lean ====
section
/-! DEFINITION. exec: one arm per command, in the order of spec/opcode_table.json (spec/30_encoding.md R100). -/

namespace Sys2Proof.Machine

def exec (i : Instr) (s : State) : Host.Outcome State Fault Refusal :=
  match i with
  -- configuration (spec/40_config.md)
  | .setparam fd fs fpt bpt vol => Sys2Proof.Machine.execSetparam fd fs fpt bpt vol s
  | .setmode m => Sys2Proof.Machine.execSetmode m s
  | .setecc e => Sys2Proof.Machine.execSetecc e s
  | .setrate rin rout => Sys2Proof.Machine.execSetrate rin rout s
  -- transmit (spec/41_tx.md)
  | .wtxb idx data => Sys2Proof.Machine.execWtxb idx data s
  | .init len => Sys2Proof.Machine.execInit len s
  | .send => Sys2Proof.Machine.execSend s
  -- receive (spec/42_rx.md)
  | .receive => Sys2Proof.Machine.execReceive s
  | .rdrx idx => Sys2Proof.Machine.execRdrx idx s
  | .getrxlen => Sys2Proof.Machine.execGetrxlen s
  -- query (spec/43_query.md)
  | .gethasdata => Sys2Proof.Machine.execGethasdata s
  | .getavgrxt => Sys2Proof.Machine.execGetavgrxt s
  | .getftr => Sys2Proof.Machine.execGetftr s
  | .getfltr => Sys2Proof.Machine.execGetfltr s
  | .getfta => Sys2Proof.Machine.execGetfta s
  | .getflta => Sys2Proof.Machine.execGetflta s
  | .gettbc => Sys2Proof.Machine.execGettbc s
  | .getrxstate => Sys2Proof.Machine.execGetrxstate s
  | .getratein => Sys2Proof.Machine.execGetratein s
  | .getrateout => Sys2Proof.Machine.execGetrateout s
  | .getspf => Sys2Proof.Machine.execGetspf s
  | .getssbin => Sys2Proof.Machine.execGetssbin s
  | .getssbout => Sys2Proof.Machine.execGetssbout s

end Sys2Proof.Machine
end

