-- ==== Sys2Proof/Machine/Step.lean ====
section
/-! DEFINITION. One step: the host's next event takes effect, whole, before the one after it (spec/20_memory.md R76). The block
fetches nothing (spec/10_state.md R21): its command port is where a step finds its next command. -/

namespace Sys2Proof.Machine

/-- One step. A command word is decoded and run (30_encoding.md R90); an illegal word completes with ILLEGAL and changes nothing
(R101); the reset input resets the block (70_reset_and_hazards.md R321); with no event the block holds its state
(60_exceptions.md R307). -/
def step (s : State) : Host.Outcome State Fault Refusal :=
  match s.port.events with
  | [] => .next s.idle
  | .resetInput :: _ => .next s.takeEvent.applyReset
  | .command w :: _ =>
    match decode w with
    | .ok i => exec i s.takeEvent
    | .error _ => .next s.takeEvent.illegal

/-- The host issues the command word whose bits are `w` as its next event (log 5). -/
def State.withFetchWord (s : State) (nbits w : Nat) : State :=
  { s with port := { s.port with events := .command (tableWord nbits w) :: s.port.events } }

end Sys2Proof.Machine
end

