-- ==== Sys2Proof/Machine/Fft.lean ====
section
/-! DEFINITION. The reference FFT engine of spec/42_rx.md R203 (spec/00_scope.md R18): SpecMag is the exact magnitude of the
discrete Fourier transform. exec runs the hardware's own engine, which is free (Config.engine); the reference is one admissible
argument among all, and claims about it name it. -/

namespace Sys2Proof

/-- The exact comparison of any magnitude function makes it an engine. -/
noncomputable def Engine.ofSpecMag (S : Frame → Fin 513 → NNReal) : Engine where
  specMag := S
  less p q := @decide (p.value S < q.value S) (Classical.propDecidable _)
  exact p q := by simp

namespace Machine

/-- The discrete Fourier transform at bin b: the sum over n in 0..1023 of x[n] exp(-2 pi i b n / 1024) (R203). -/
noncomputable def dft (x : Frame) (b : Nat) : ℂ :=
  ∑ n : Fin 1024, ((x.get n).toInt : ℂ) * Complex.exp (-2 * Real.pi * Complex.I * b * n.val / 1024)

/-- The reference SpecMag: no window, no normalisation, no scaling (R203). -/
noncomputable def refSpecMag (x : Frame) (b : Fin 513) : NNReal := ‖dft x b.val‖₊

end Machine

/-- The reference FFT engine. -/
noncomputable def Engine.reference : Engine := Engine.ofSpecMag Machine.refSpecMag

/-- The block with the reference FFT engine and a codec. -/
noncomputable def Params.reference (enc : Nat → List Byte → List Byte) (dec : Nat → List Byte → Option (List Byte)) : Params :=
  ⟨Engine.reference, enc, dec⟩

end Sys2Proof
end

