-- ==== Sys2Proof/Machine/Assembler.lean ====
section
/-! DEFINITION. The assembler of spec/30_encoding.md: a well-formed line becomes the commands it stands for (R106), the two
pseudo-instructions expand (R107), and a line of text is read into a `Line` (R106). No command of the block depends on it. -/

namespace Sys2Proof

/-- `TXLOAD "s"`: WTXB i, s[i] for every byte, then INIT L (R107). -/
def expandTxload (s : List Byte) : List Instr :=
  (List.range s.length).map (fun i => .wtxb (BitVec.ofNat 8 i) (s.getD i 0)) ++ [.init (BitVec.ofNat 8 s.length)]

/-- `DEFAULTS` (R107). -/
def expandDefaults : List Instr := [.setparam 1 40 6 3 50, .setecc 8, .setmode 0, .setrate 48000 48000]

/-- The commands a line stands for, its operands taken into their fields (R106, R107). -/
def Line.expand : Line → List Instr
  | .setparam fd fs fpt bpt vol =>
    [.setparam (BitVec.ofNat 8 fd) (BitVec.ofNat 10 fs) (BitVec.ofNat 4 fpt) (BitVec.ofNat 6 bpt) (BitVec.ofNat 7 vol)]
  | .setmode fixed => [.setmode (BitVec.ofBool fixed)]
  | .setecc e => [.setecc (BitVec.ofNat 7 e)]
  | .setrate rin rout => [.setrate (BitVec.ofNat 24 rin) (BitVec.ofNat 24 rout)]
  | .wtxb idx byte => [.wtxb (BitVec.ofNat 8 idx) (BitVec.ofNat 8 byte)]
  | .init len => [.init (BitVec.ofNat 8 len)]
  | .rdrx idx => [.rdrx (BitVec.ofNat 8 idx)]
  | .plain i => [i]
  | .txload s => expandTxload s
  | .defaults => expandDefaults

/-- The assembler rejects an ill-formed line; it does not clamp (R106). -/
def Line.assemble (l : Line) : Option (List Instr) := if l.wellFormed then some l.expand else none

/-- The command words of a line. -/
def Line.words (l : Line) : Option (List CmdWord) := l.assemble.map fun is => is.map encode

/-! ### Reading a line of text (R106) -/

namespace Text

/-- White space inside a line: spaces and tabs (DESIGN CHOICE, log 12). -/
def blank (c : Char) : Bool := c == ' ' || c == '\t'

/-- The characters without the blanks before and after them. -/
def trim (cs : List Char) : List Char := ((cs.dropWhile blank).reverse.dropWhile blank).reverse

/-- The characters up to a `;` comment. -/
def stripComment (cs : List Char) : List Char := cs.takeWhile (· != ';')

/-- The pieces between commas. -/
def splitCommas : List Char → List (List Char)
  | [] => [[]]
  | c :: cs =>
    if c == ',' then [] :: splitCommas cs
    else match splitCommas cs with
      | [] => [[c]]
      | p :: ps => (c :: p) :: ps

/-- The value of a digit. -/
def digit (c : Char) : Option Nat :=
  if '0' ≤ c ∧ c ≤ '9' then some (c.toNat - 48)
  else if 'a' ≤ c ∧ c ≤ 'f' then some (c.toNat - 87)
  else if 'A' ≤ c ∧ c ≤ 'F' then some (c.toNat - 55)
  else none

/-- A digit string in a base; the empty string is no number. -/
def digits (base : Nat) : Option Nat → List Char → Option Nat
  | acc, [] => acc
  | acc, c :: cs =>
    match digit c with
    | some d => if d < base then digits base (some (acc.getD 0 * base + d)) cs else none
    | none => none

/-- A decimal or 0x-hexadecimal operand (R106); leading zeros, and the case of the digits and of the x, are as log 12 chooses
(DESIGN CHOICE). -/
def number : List Char → Option Nat
  | '0' :: 'x' :: cs => digits 16 none cs
  | cs => digits 10 none cs

/-- The operands of a line: none, or numbers between commas (R106), with or without blanks around them (DESIGN CHOICE,
log 12). -/
def operands (cs : List Char) : Option (List Nat) :=
  if trim cs = [] then some [] else (splitCommas cs).mapM fun p => number (trim p)

/-- The bytes of a quoted string and what follows its closing quote; a character outside one byte is no byte of a
string, and there are no escapes (DESIGN CHOICE, log 12). -/
def quoted : List Char → Option (List Byte × List Char)
  | [] => none
  | c :: cs =>
    if c == '"' then some ([], cs)
    else if c.toNat < 256 then (quoted cs).map fun (bs, rest) => (BitVec.ofNat 8 c.toNat :: bs, rest)
    else none

/-- The mnemonics without operands (R92, format Z). -/
def plainMnemonics : List (List Char × Instr) :=
  [("SEND".toList, .send), ("RECEIVE".toList, .receive), ("GETRXLEN".toList, .getrxlen),
   ("GETHASDATA".toList, .gethasdata), ("GETAVGRXT".toList, .getavgrxt), ("GETFTR".toList, .getftr),
   ("GETFLTR".toList, .getfltr), ("GETFTA".toList, .getfta), ("GETFLTA".toList, .getflta), ("GETTBC".toList, .gettbc),
   ("GETRXSTATE".toList, .getrxstate), ("GETRATEIN".toList, .getratein), ("GETRATEOUT".toList, .getrateout),
   ("GETSPF".toList, .getspf), ("GETSSBIN".toList, .getssbin), ("GETSSBOUT".toList, .getssbout)]

/-- A command line from its mnemonic and its numeric operands. -/
def numericLine (mn : List Char) (ops : List Nat) : Option Line :=
  if mn = "SETPARAM".toList then
    match ops with
    | [fd, fs, fpt, bpt, vol] => some (.setparam fd fs fpt bpt vol)
    | _ => none
  else if mn = "SETECC".toList then
    match ops with
    | [e] => some (.setecc e)
    | _ => none
  else if mn = "SETRATE".toList then
    match ops with
    | [rin, rout] => some (.setrate rin rout)
    | _ => none
  else if mn = "WTXB".toList then
    match ops with
    | [idx, b] => some (.wtxb idx b)
    | _ => none
  else if mn = "INIT".toList then
    match ops with
    | [len] => some (.init len)
    | _ => none
  else if mn = "RDRX".toList then
    match ops with
    | [idx] => some (.rdrx idx)
    | _ => none
  else if mn = "DEFAULTS".toList then
    match ops with
    | [] => some .defaults
    | _ => none
  else
    match plainMnemonics.find? (fun p => decide (p.1 = mn)), ops with
    | some p, [] => some (.plain p.2)
    | _, _ => none

/-- One line of assembler text (R106, R107). R106 shows the form `MNEMONIC operand` and leaves open whether a blank must stand
between the two. The mnemonic is the longest run of capital letters, and the reader needs no blank after it: `SETECC8` is
`SETECC 8`, and a TXLOAD string may follow its mnemonic at once. DESIGN CHOICE, safe (log 12), as are the capitals. -/
def parseLine (cs : List Char) : Option Line :=
  let cs := cs.dropWhile blank
  let mn := cs.takeWhile Char.isUpper
  let rest := cs.dropWhile Char.isUpper
  if mn = "TXLOAD".toList then
    match rest.dropWhile blank with
    | '"' :: qs =>
      match quoted qs with
      | some (bs, after) => if trim (stripComment after) = [] then some (.txload bs) else none
      | none => none
    | _ => none
  else if mn = "SETMODE".toList then
    let op := trim (stripComment rest)
    if op = "VAR".toList then some (.setmode false) else if op = "FIXED".toList then some (.setmode true) else none
  else (operands (stripComment rest)).bind (numericLine mn)

end Text

/-- The command words of one line of assembler text. -/
def assembleText (s : String) : Option (List CmdWord) := (Text.parseLine s.toList).bind Line.words

end Sys2Proof
end

