-- ==== Sys2Proof/Safety.lean ====
section
/-! DEFINITION. What the claims are stated in: the invariant of the machine's state (spec/10_state.md R22, R24 to R50, R54), the
status table of spec/60_exceptions.md R291, runs of RECEIVE ticks, and the two views in which parts of the state cannot be
observed (spec/41_tx.md R167, spec/42_rx.md R218). No step uses a definition of this file. -/

namespace Sys2Proof

/-- The configuration commands, the only writers of the configuration registers (10_state.md R22). -/
def Instr.isConfig : Instr → Bool
  | .setparam .. | .setmode _ | .setecc _ | .setrate .. => true
  | .wtxb .. | .init _ | .send | .receive | .rdrx _ | .getrxlen | .gethasdata | .getavgrxt | .getftr | .getfltr | .getfta
  | .getflta | .gettbc | .getrxstate | .getratein | .getrateout | .getspf | .getssbin | .getssbout => false

end Sys2Proof

namespace Sys2Proof.Machine

/-! ### The invariant -/

/-- The tone table caches the templates of the configuration whenever it is not dirty (10_state.md R35, 41_tx.md R167). -/
def ToneCoherent (c : Cfg) (t : Tx) : Prop :=
  t.ttDirty = false → ∀ s < 16 + c.ndb, Memory.read Space.tone t.tone s = toneRow c s

/-- What every Tx session state keeps (10_state.md R24 to R35; 41_tx.md R156, R175). -/
structure Tx.Wf (c : Cfg) (t : Tx) : Prop where
  txstage : Memory.wf Space.txstage t.txstage
  txtext  : Memory.wf Space.txtext t.txtext
  enc     : Memory.wf Space.enc t.enc
  tone    : Memory.wf Space.tone t.tone
  txlen   : t.txlen.toNat ≤ 140
  sdl     : t.sdl.toNat ≤ 140
  enclen  : t.enclen.toNat ≤ 207
  ngrp    : t.ngrp.toNat ≤ 207
  total   : t.total.toNat ≤ 3133
  frameid : t.frameid.toNat ≤ t.total.toNat
  /-- A session in flight has 28 + G x FPT frames, with G = ceil(ENCLEN / BPT) groups, and one of them is still to come. -/
  session : t.hasdata = true →
    t.frameid.toNat < t.total.toNat ∧ 29 ≤ t.total.toNat ∧ t.total.toNat = 28 + t.ngrp.toNat * c.fpt.toNat ∧
    t.ngrp.toNat = ceilDiv t.enclen.toNat c.bpt.toNat
  coherent : ToneCoherent c t

/-- What each Rx state says of the cursors (10_state.md R45, R46; 42_rx.md R211, R213, R216, R219). -/
def Rx.CursorsFit (c : Cfg) (r : Rx) : Prop :=
  match r.rxstate with
  | .listening => r.fltr = 0 ∧ r.flta = 0 ∧ r.run.toNat < 8
  | .markerLocked => r.fltr = 0 ∧ r.flta = 0 ∧ 8 ≤ r.run.toNat
  | .recording => 1 ≤ r.fltr.toNat ∧ r.fltr.toNat < c.ftr ∧ r.flta = 0
  | .analyzing => r.fltr = 0 ∧ 1 ≤ r.flta.toNat ∧ r.flta.toNat ≤ c.fta

/-- What every Rx session state keeps (10_state.md R37 to R50). That every magnitude is in R>=0 (00_scope.md R13) needs no clause:
no `Mag` stands for a negative number (`Mag.value_nonneg`). -/
structure Rx.Wf (c : Cfg) (r : Rx) : Prop where
  rxraw   : Memory.wf Space.rxraw r.rxraw
  rxdata  : Memory.wf Space.rxdata r.rxdata
  recMem  : Memory.wf Space.recMem r.recMem
  recf    : Memory.wf Space.recf r.recf
  hcount  : r.hcount.toNat ≤ 4
  /-- Until the history is full, HID is the number of slots written. -/
  hid     : r.hcount.toNat < 4 → r.hid.toNat = r.hcount.toNat
  rxlen   : r.rxlen.toNat ≤ 140
  /-- RXDATA is zero from RXLEN on (42_rx.md R229). -/
  tail    : ∀ i, r.rxlen.toNat ≤ i → Memory.read Space.rxdata r.rxdata i = 0
  cursors : r.CursorsFit c

/-- The invariant of the whole state. -/
structure State.Inv (s : State) : Prop where
  cfg : s.cfg.Legal
  tx  : s.tx.Wf s.cfg
  rx  : s.rx.Wf s.cfg

/-! ### The status table (60_exceptions.md R291) -/

/-- REJECTED when. -/
def rejectedWhen : Instr → Prop
  | .setparam fd fs _ bpt _ =>
    511 < max fs.toNat 1 + (15 + 8 * min (max bpt.toNat 1) 32) * max fd.toNat 1
  | .setrate rin rout => rin.toNat < 8000 ∨ 192000 < rin.toNat ∨ rout.toNat < 8000 ∨ 192000 < rout.toNat
  | .wtxb idx _ => 140 ≤ idx.toNat
  | .rdrx idx => 140 ≤ idx.toNat
  | .setmode _ | .setecc _ | .init _ | .send | .receive | .getrxlen | .gethasdata | .getavgrxt | .getftr | .getfltr | .getfta
  | .getflta | .gettbc | .getrxstate | .getratein | .getrateout | .getspf | .getssbin | .getssbout => False

/-- CLAMPED when, for a command that is not rejected. -/
def clampedWhen (m : Mode) : Instr → Prop
  | .setparam fd fs fpt bpt vol => fd = 0 ∨ fs = 0 ∨ fpt = 0 ∨ bpt = 0 ∨ 32 < bpt.toNat ∨ 100 < vol.toNat
  | .setecc e => e.toNat < 2 ∨ 64 < e.toNat
  | .init len => 140 < len.toNat ∨ (m = .fixed ∧ 32 < min len.toNat 140)
  | .setmode _ | .setrate .. | .wtxb .. | .send | .receive | .rdrx _ | .getrxlen | .gethasdata | .getavgrxt | .getftr
  | .getfltr | .getfta | .getflta | .gettbc | .getrxstate | .getratein | .getrateout | .getspf | .getssbin | .getssbout => False

/-! ### Runs of ticks -/

/-- The Rx state after a list of RECEIVE ticks, for the collaborators P. -/
def Rx.ticks (P : Params) (c : Cfg) (r : Rx) : List Answer → Rx
  | [] => r
  | a :: as => Rx.ticks P c (r.tick P c a).1 as

/-- The tick's frame matches the start marker, as the receiver sees it (42_rx.md R200, R209). -/
def Rx.matchesMarker (P : Params) (c : Cfg) (r : Rx) (a : Answer) : Bool :=
  markerMatch P c (spectrum (zeroPad a)) r.floor

/-- Every even marker bin of the tick's frame is at or below the detection threshold (42_rx.md R235). -/
def Rx.belowThreshold (P : Params) (c : Cfg) (r : Rx) (a : Answer) : Prop :=
  ∀ j < 16, j % 2 = 0 → 2 * P.val (elem (spectrum (zeroPad a)) .zero (c.mb j)) ≤ 3 * P.val r.floor

/-- A property of every tick of a run, each seen from the state it begins in. -/
def Rx.AllTicks (P : Params) (c : Cfg) (p : Rx → Answer → Prop) (r : Rx) : List Answer → Prop
  | [] => True
  | a :: as => p r a ∧ Rx.AllTicks P c p (r.tick P c a).1 as

/-! ### What cannot be observed -/

/-- The recording rows the current candidate has written (42_rx.md R218). -/
def Rx.rowsWritten (c : Cfg) (r : Rx) : Nat :=
  match r.rxstate with
  | .listening => 0
  | .markerLocked => 0
  | .recording => c.ftr - r.fltr.toNat
  | .analyzing => c.ftr

/-- Two receivers that differ at most in recording rows, or slots of a row, that the current candidate has not written (R218). -/
structure Rx.SameButStale (c : Cfg) (r r' : Rx) : Prop where
  wfRec : Memory.wf Space.recMem r'.recMem
  wfRecf : Memory.wf Space.recf r'.recf
  rest : r' = { r with recMem := r'.recMem, recf := r'.recf }
  rows : ∀ i < r.rowsWritten c, ∀ k : Fin 256, k.val < c.ndb →
    (Memory.read Space.recMem r'.recMem i).get k = (Memory.read Space.recMem r.recMem i).get k
  floors : ∀ i < r.rowsWritten c, Memory.read Space.recf r'.recf i = Memory.read Space.recf r.recf i

/-- bit(g, k) as the recording decides it: the sums over the decision window of group g, against each other (42_rx.md R222 to
R224). -/
def Rx.WindowBit (P : Params) (c : Cfg) (r : Rx) (g : Nat) (k : Fin 256) : Prop :=
  let rows := (List.range c.window).map fun i => 2 + g * c.fpt.toNat + c.nbl + i
  3 * (rows.map fun a => P.val (Memory.read Space.recf r.recf a)).sum <
    2 * (rows.map fun a => P.val ((Memory.read Space.recMem r.recMem a).get k)).sum

/-! ### Loopback (42_rx.md R233, R236) -/

/-- The frames of a session of G groups, as a source delivers them one a pull: frame f is FrameSample(f, n) (41_tx.md R173). -/
def sessionAnswers (c : Cfg) (enc : ByteMem) (G : Nat) : List Answer :=
  (List.range (sessionFrames c G)).map fun f =>
    ⟨1024, Vector.ofFn fun n => BitVec.ofInt 16 (frameSample c enc G f n.val)⟩

end Sys2Proof.Machine
end

