-- ==== Sys2Proof/Certificates/Slice0/Obligations.lean ====
section
/-! DEFINITION. The statements for the provers: what the rules of spec/ say the commands and the machine do. -/

open Sys2Proof Sys2Proof.Machine

/-! ### Encoding (30_encoding.md) -/

/-- Decoding an encoded command gives the command back, with every operand at every value its field admits (R92 to R100). -/
def Obligations.DecodeReadsBackEveryEncodedCommand : Prop :=
  ∀ i : Instr, decode (encode i) = .ok i

/-- A legal word is the word of the command it decodes to: no two words decode to one command, and no bit is ignored. -/
def Obligations.LegalWordIsTheWordOfItsCommand : Prop :=
  ∀ (w : CmdWord) (i : Instr), decode w = .ok i → encode i = w

/-- R103: "Exactly one row matches a legal word. No row matches an illegal word." -/
def Obligations.LegalWordMatchesExactlyOneRow : Prop :=
  ∀ w : CmdWord,
    ((∃ i, decode w = .ok i) → ∃ r ∈ opcodeMap, r.covers w = true ∧ ∀ r' ∈ opcodeMap, r'.covers w = true → r' = r) ∧
    ((∀ i, decode w ≠ .ok i) → ∀ r ∈ opcodeMap, r.covers w = false)

/-- R65: a command word and a result carried as bytes go least-significant byte first. That eight bytes are one word, four one
result, and the bytes after them are left over is the model's reading (log 13, DEDUCED). -/
def Obligations.BytesOfAWordDecodeToItsCommand : Prop :=
  ∀ (i : Instr) (r : Result) (rest : List Byte),
    decodeBytes (wordBytes (encode i) ++ rest) = .ok (i, rest) ∧
    (wordBytes (encode i)).map BitVec.toNat = ((List.range 8).map fun j => (encode i).toNat / 256 ^ j % 256) ∧
    resultOfBytes (resultBytes r ++ rest) = some (r, rest) ∧
    (resultBytes r).map BitVec.toNat = (List.range 4).map fun j => r.toNat / 256 ^ j % 256

/-- Words written out from the spec's encodings decode to the commands they stand for (R92, R100). -/
def Obligations.WordsWrittenFromTheFormatsDecode : Prop :=
  decode 0x01010A1836400000#64 = .ok (.setparam 1 40 6 3 50) ∧
  decode 0x0200000000000001#64 = .ok (.setmode 1) ∧
  decode 0x0300000000000064#64 = .ok (.setecc 100) ∧
  decode 0x0400AC4400AC4400#64 = .ok (.setrate 44100 44100) ∧
  decode 0x0800000000008B41#64 = .ok (.wtxb 139 0x41) ∧
  decode 0x09000000000000C8#64 = .ok (.init 200) ∧
  decode 0x1100000000000004#64 = .ok (.rdrx 4) ∧
  decode 0x2700000000000000#64 = .ok .getrxstate

/-- R106: the assembler rejects exactly the lines an operand of which does not fit its field. -/
def Obligations.AssemblerRejectsOperandsThatDoNotFit : Prop :=
  ∀ fd fs fpt bpt vol e rin rout idx b len : Nat,
    ((Line.setparam fd fs fpt bpt vol).assemble = none ↔ 2 ^ 8 ≤ fd ∨ 2 ^ 10 ≤ fs ∨ 2 ^ 4 ≤ fpt ∨ 2 ^ 6 ≤ bpt ∨ 2 ^ 7 ≤ vol) ∧
    ((Line.setecc e).assemble = none ↔ 2 ^ 7 ≤ e) ∧
    ((Line.setrate rin rout).assemble = none ↔ 2 ^ 24 ≤ rin ∨ 2 ^ 24 ≤ rout) ∧
    ((Line.wtxb idx b).assemble = none ↔ 2 ^ 8 ≤ idx ∨ 2 ^ 8 ≤ b) ∧
    ((Line.init len).assemble = none ↔ 2 ^ 8 ≤ len) ∧
    ((Line.rdrx idx).assemble = none ↔ 2 ^ 8 ≤ idx)

/-! ### The step -/

/-- A command word at the port that decodes to i: the step is exec of i, once the event is taken from the port. The list of
events is the model's record of what the host does (log 5): a step takes one event, and nothing is fetched. -/
def Obligations.StepRunsTheDecodedCommand : Prop :=
  ∀ (s : State) (w : CmdWord) (rest : List HostEvent) (i : Instr),
    s.port.events = .command w :: rest → decode w = .ok i →
      step s = exec i { s with port := { s.port with events := rest } }

/-- R101: a word whose OPC is not in the table, or a reserved bit of whose format is 1, completes with ILLEGAL and result 0; no
state changes, nothing is pulled and nothing is emitted. -/
def Obligations.IllegalWordCompletesAndChangesNothing : Prop :=
  ∀ (s : State) (w : CmdWord) (rest : List HostEvent),
    s.port.events = .command w :: rest →
    ((∀ r ∈ opcodeMap, r.opc ≠ opcodeOf w) ∨
      ∃ r ∈ opcodeMap, r.opc = opcodeOf w ∧ w &&& (r.format.mask &&& 0x00FFFFFFFFFFFFFF#64) ≠ 0) →
      step s = .next { s with port := { s.port with events := rest, responses := ⟨.illegal, 0⟩ :: s.port.responses } }

/-- R320: reset puts every piece of state that the rule gives a value at that value, from every state. -/
def Obligations.ResetInputRestoresTheResetValues : Prop :=
  ∀ (s : State) (rest : List HostEvent), s.port.events = .resetInput :: rest →
    ∃ t, step s = .next t ∧
      t.cfg = { fdelta := 1, fstart := 40, fpt := 6, bpt := 3, vol := 50, ecc := 8, mode := .variable,
                rateIn := 48000, rateOut := 48000 } ∧
      (∀ a, Memory.read Space.txstage t.tx.txstage a = 0 ∧ Memory.read Space.txtext t.tx.txtext a = 0 ∧
        Memory.read Space.enc t.tx.enc a = 0 ∧ Memory.read Space.rxraw t.rx.rxraw a = 0 ∧
        Memory.read Space.rxdata t.rx.rxdata a = 0) ∧
      t.tx.txlen = 0 ∧ t.tx.sdl = 0 ∧ t.tx.enclen = 0 ∧ t.tx.ngrp = 0 ∧ t.tx.total = 0 ∧ t.tx.frameid = 0 ∧
      t.tx.hasdata = false ∧ t.tx.ttDirty = true ∧
      (∀ n : Fin 1024, t.rx.samp.get n = 0) ∧ (∀ b : Fin 513, t.rx.spec.get b = .zero) ∧
      (∀ (h : Fin 4) (b : Fin 513), (t.rx.hist.get h).get b = .zero) ∧ t.rx.hid = 0 ∧ t.rx.hcount = 0 ∧
      t.rx.rxstate = .listening ∧ t.rx.run = 0 ∧ t.rx.fltr = 0 ∧ t.rx.flta = 0 ∧
      (∀ k : Fin 256, t.rx.acc.get k = .zero) ∧ t.rx.facc = .zero ∧ t.rx.rxlen = 0 ∧
      t.rx.rxt = 0 ∧ t.rx.rxtSum = 0 ∧ t.rx.rxcount = 0 ∧ t.rx.tbc = 0

/-- R297, R308: no command blocks and no rule leads to a stuck state: every command and every step completes, in every state.
Two clauses are the model's own record of the ports (log 5): with no event a step holds the state, and the reset input leaves
what stands at the ports alone. -/
def Obligations.EveryCommandAndEveryStepCompletes : Prop :=
  (∀ (i : Instr) (s : State), ∃ t, exec i s = .next t) ∧ (∀ s : State, ∃ t, step s = .next t) ∧
  (∀ s : State, s.port.events = [] → step s = .next s) ∧
  (∀ (s : State) (rest : List HostEvent), s.port.events = .resetInput :: rest →
    ∃ t, step s = .next t ∧ t.port = { s.port with events := rest })

/-- R290: a REJECTED or ILLEGAL command leaves the whole state as it was and returns result 0; every command returns exactly one
response. -/
def Obligations.TurnedAwayCommandChangesNothing : Prop :=
  ∀ (s : State) (w : CmdWord) (rest : List HostEvent), s.port.events = .command w :: rest →
    ∃ t r, step s = .next t ∧ t.port.events = rest ∧ t.port.responses = r :: s.port.responses ∧
      (r.status = .rejected ∨ r.status = .illegal →
        r.result = 0 ∧ t = { s with port := { s.port with events := rest, responses := r :: s.port.responses } })

/-- The status table of R291, with the priority of R292: in every state, which status each legal command returns. -/
def Obligations.StatusFollowsTheTable : Prop :=
  ∀ (i : Instr) (s : State), ∃ t r, exec i s = .next t ∧ t.port.responses = r :: s.port.responses ∧
    r.status ≠ .illegal ∧ (r.status = .rejected ↔ rejectedWhen i) ∧
    (r.status = .clamped ↔ ¬ rejectedWhen i ∧ clampedWhen s.cfg.mode i)

/-- R66, R67: only SEND emits, at most one frame; only RECEIVE pulls, exactly once. -/
def Obligations.OnlySendEmitsAndOnlyReceivePulls : Prop :=
  ∀ (i : Instr) (s t : State), exec i s = .next t →
    (t.port.sink = s.port.sink ∨ (i = .send ∧ ∃ x, t.port.sink = x :: s.port.sink)) ∧
    (if i = .receive then t.port.pulls = s.port.pulls + 1 ∧ t.port.source = s.port.source.tail
     else t.port.pulls = s.port.pulls ∧ t.port.source = s.port.source) ∧
    t.port.events = s.port.events

/-! ### The invariant -/

/-- The reset state meets the invariant. -/
def Obligations.ResetStateMeetsTheInvariant : Prop := State.reset.Inv

/-- Every step keeps the invariant: legal configuration, canonical memories, bounded registers, cursors that fit the Rx state,
a coherent tone table (R22, R24 to R50, R54). -/
def Obligations.EveryStepKeepsTheInvariant : Prop :=
  ∀ s t : State, s.Inv → step s = .next t → t.Inv

/-- R54: the bounds that follow from the legal values. -/
def Obligations.LegalConfigurationFitsEveryBuffer : Prop :=
  ∀ c : Cfg, c.Legal →
    c.ftr ≤ 3107 ∧ c.encmax ≤ 207 ∧ c.gmax * c.bpt.toNat ≤ 238 ∧ c.encmax ≤ c.gmax * c.bpt.toNat ∧ 1 ≤ c.window ∧
    (∀ j < 16, c.mb j ≤ 511) ∧ (∀ k < c.ndb, c.db k ≤ 511) ∧ (∀ j < 16, ∀ k < c.ndb, c.mb j < c.db k)

/-! ### Whole-machine frames -/

/-- R22: only the configuration commands write the configuration registers; of the writers of the other registers, R158: WTXB,
INIT and SEND write no Rx state, RECEIVE, RDRX, GETRXLEN and the queries write no Tx state. -/
def Obligations.EachFamilyWritesOnlyItsOwnState : Prop :=
  ∀ (i : Instr) (s t : State), exec i s = .next t →
    (i.isConfig = false → t.cfg = s.cfg) ∧
    ((∃ idx d, i = .wtxb idx d) ∨ (∃ len, i = .init len) ∨ i = .send → t.rx = s.rx) ∧
    (i.isConfig = false → (∀ idx d, i ≠ .wtxb idx d) → (∀ len, i ≠ .init len) → i ≠ .send → t.tx = s.tx) ∧
    (i.isConfig = false → i ≠ .receive → t.rx = s.rx)

/-- R158: INIT and SEND read and write no Rx state, and the Rx commands read and write no Tx state: with the other path's state
replaced, the same things happen, and the replacement stands. -/
def Obligations.TxAndRxPathsDoNotReadEachOther : Prop :=
  ∀ (s : State) (r : Rx) (x : Tx) (len : BitVec 8),
    (∀ t, exec (.init len) s = .next t → exec (.init len) { s with rx := r } = .next { t with rx := r }) ∧
    (∀ t, exec .send s = .next t → exec .send { s with rx := r } = .next { t with rx := r }) ∧
    (∀ i : Instr, (i = .receive ∨ (∃ idx, i = .rdrx idx) ∨ i = .getrxlen) →
      ∀ t, exec i s = .next t → exec i { s with tx := x } = .next { t with tx := x })

/-- R242, R230: a command that is not a RECEIVE, and a RECEIVE that answers RESULT[12] = 0, leave RXDATA and RXLEN alone. -/
def Obligations.PayloadChangesOnlyByAReceiveThatSaysSo : Prop :=
  (∀ (i : Instr) (s t : State), i ≠ .receive → exec i s = .next t →
    t.rx.rxdata = s.rx.rxdata ∧ t.rx.rxlen = s.rx.rxlen) ∧
  ∀ (P : Params) (s : State) (r : Response), (s.receiveFrame P).port.responses = r :: s.port.responses →
    r.result.getLsbD 12 = false → (s.receiveFrame P).rx.rxdata = s.rx.rxdata ∧ (s.receiveFrame P).rx.rxlen = s.rx.rxlen

/-- R167: no output depends on TONE or TT_DIRTY: with both replaced, a step does the same but for them. -/
def Obligations.ToneTableCannotBeObserved : Prop :=
  ∀ (s t : State) (m : RowMem Frame) (b : Bool), step s = .next t →
    ∃ m' b', step { s with tx := { s.tx with tone := m, ttDirty := b } } =
      .next { t with tx := { t.tx with tone := m', ttDirty := b' } }

/-- R218: no rule reads a recording row the current candidate has not written: two states that differ only there step to states
that differ only there, with the same port traffic, Tx state and configuration. -/
def Obligations.StaleRecordingCannotBeObserved : Prop :=
  ∀ s t s' : State, s.Inv → s' = { s with rx := s'.rx } → s.rx.SameButStale s.cfg s'.rx → step s = .next t →
    ∃ t', step s' = .next t' ∧ t' = { t with rx := t'.rx } ∧ t.rx.SameButStale t.cfg t'.rx

/-! ### Configuration commands (40_config.md) -/

/-- SETPARAM (R122): the clamped knobs are written, TT_DIRTY is set and both sessions are aborted, or, where the clamped layout
passes the Nyquist limit, nothing changes. -/
def Obligations.SetparamWritesTheClampedKnobsOrRejects : Prop :=
  ∀ (fd : BitVec 8) (fs : BitVec 10) (fpt : BitVec 4) (bpt : BitVec 6) (vol : BitVec 7) (s : State),
    let fd' := if fd = 0 then 1 else fd.toNat
    let fs' := if fs = 0 then 1 else fs.toNat
    let fpt' := if fpt = 0 then 1 else fpt.toNat
    let bpt' := if bpt = 0 then 1 else if 32 < bpt.toNat then 32 else bpt.toNat
    let vol' := if 100 < vol.toNat then 100 else vol.toNat
    if 511 < fs' + (15 + 8 * bpt') * fd' then
      exec (.setparam fd fs fpt bpt vol) s =
        .next { s with port := { s.port with responses := ⟨.rejected, 0⟩ :: s.port.responses } }
    else ∃ t, exec (.setparam fd fs fpt bpt vol) s = .next t ∧
      t.cfg.fdelta.toNat = fd' ∧ t.cfg.fstart.toNat = fs' ∧ t.cfg.fpt.toNat = fpt' ∧ t.cfg.bpt.toNat = bpt' ∧
      t.cfg.vol.toNat = vol' ∧
      t.cfg = { s.cfg with fdelta := t.cfg.fdelta, fstart := t.cfg.fstart, fpt := t.cfg.fpt, bpt := t.cfg.bpt, vol := t.cfg.vol } ∧
      t.tx = { s.tx.abort with ttDirty := true } ∧ t.rx = s.rx.abort ∧
      t.port = { s.port with responses :=
        ⟨if fd = 0 ∨ fs = 0 ∨ fpt = 0 ∨ bpt = 0 ∨ 32 < bpt.toNat ∨ 100 < vol.toNat then .clamped else .ok, 0⟩
          :: s.port.responses }

/-- SETMODE (R128) and SETECC (R130), in every state: the register is written (SETECC's clamped to 2..64) and both sessions are
aborted; nothing else changes. -/
def Obligations.SetmodeAndSeteccWriteTheirRegister : Prop :=
  ∀ s : State,
    (∀ m : BitVec 1, exec (.setmode m) s = .next
      { cfg := { s.cfg with mode := if m = 0 then .variable else .fixed }, tx := s.tx.abort, rx := s.rx.abort,
        port := { s.port with responses := ⟨.ok, 0⟩ :: s.port.responses } }) ∧
    (∀ e : BitVec 7, ∃ t, exec (.setecc e) s = .next t ∧
      t.cfg.ecc.toNat = (if e.toNat < 2 then 2 else if 64 < e.toNat then 64 else e.toNat) ∧
      t.cfg = { s.cfg with ecc := t.cfg.ecc } ∧ t.tx = s.tx.abort ∧ t.rx = s.rx.abort ∧
      t.port = { s.port with responses :=
        ⟨if e.toNat < 2 ∨ 64 < e.toNat then .clamped else .ok, 0⟩ :: s.port.responses })

/-- SETRATE (R132): both rates in 8000..192000 are written, TT_DIRTY is set and both sessions are aborted; else nothing
changes. -/
def Obligations.SetrateWritesRatesInRangeOrRejects : Prop :=
  ∀ (rin rout : BitVec 24) (s : State),
    exec (.setrate rin rout) s = .next
      (if rin.toNat < 8000 ∨ 192000 < rin.toNat ∨ rout.toNat < 8000 ∨ 192000 < rout.toNat then
        { s with port := { s.port with responses := ⟨.rejected, 0⟩ :: s.port.responses } }
      else
        { cfg := { s.cfg with rateIn := rin, rateOut := rout }, tx := { s.tx.abort with ttDirty := true }, rx := s.rx.abort,
          port := { s.port with responses := ⟨.ok, 0⟩ :: s.port.responses } })

/-- AbortSessions (R134) and R135: a configuration command that commits discards both sessions and leaves every register the rule
lists unchanged; one that is rejected leaves a session in flight running. -/
def Obligations.CommittedConfigurationCommandAbortsBothSessions : Prop :=
  ∀ (i : Instr) (s t : State), i.isConfig = true → exec i s = .next t →
    (rejectedWhen i → t.tx = s.tx ∧ t.rx = s.rx ∧ t.cfg = s.cfg) ∧
    (¬ rejectedWhen i →
      t.tx.hasdata = false ∧ t.tx.frameid = 0 ∧ t.rx.rxstate = .listening ∧ t.rx.run = 0 ∧ t.rx.fltr = 0 ∧ t.rx.flta = 0 ∧
      t.rx.rxt = 0 ∧ (∀ k : Fin 256, t.rx.acc.get k = .zero) ∧ t.rx.facc = .zero ∧
      t.tx.txstage = s.tx.txstage ∧ t.tx.txtext = s.tx.txtext ∧ t.tx.txlen = s.tx.txlen ∧ t.tx.sdl = s.tx.sdl ∧
      t.tx.enc = s.tx.enc ∧ t.tx.enclen = s.tx.enclen ∧ t.tx.ngrp = s.tx.ngrp ∧ t.tx.total = s.tx.total ∧
      t.rx.hist = s.rx.hist ∧ t.rx.hid = s.rx.hid ∧ t.rx.hcount = s.rx.hcount ∧ t.rx.samp = s.rx.samp ∧
      t.rx.spec = s.rx.spec ∧ t.rx.recMem = s.rx.recMem ∧ t.rx.recf = s.rx.recf ∧ t.rx.rxraw = s.rx.rxraw ∧
      t.rx.rxdata = s.rx.rxdata ∧ t.rx.rxlen = s.rx.rxlen ∧ t.rx.rxtSum = s.rx.rxtSum ∧ t.rx.rxcount = s.rx.rxcount ∧
      t.rx.tbc = s.rx.tbc)

/-- R107: DEFAULTS leaves the configuration registers at their reset values and aborts both sessions, from every state. -/
def Obligations.DefaultsRestoresTheConfiguration : Prop :=
  ∀ (s : State) (ws : List CmdWord) (rest : List HostEvent), Line.defaults.words = some ws →
    s.port.events = ws.map .command ++ rest →
    ∃ t, Sys2Proof.core.run 4 s = .next t ∧ t.cfg = Cfg.reset ∧ t.port.events = rest ∧
      t.tx.hasdata = false ∧ t.rx.rxstate = .listening ∧
      t.port.responses = List.replicate 4 ⟨.ok, 0⟩ ++ s.port.responses

/-! ### Transmit commands (41_tx.md) -/

/-- WTXB (R150): one byte of TXSTAGE, and nothing else, or REJECTED with nothing written. -/
def Obligations.WtxbWritesOneStagingByteOrRejects : Prop :=
  ∀ (idx data : BitVec 8) (s : State), s.Inv →
    (140 ≤ idx.toNat → exec (.wtxb idx data) s =
      .next { s with port := { s.port with responses := ⟨.rejected, 0⟩ :: s.port.responses } }) ∧
    (idx.toNat < 140 → ∃ t, exec (.wtxb idx data) s = .next t ∧
      t = { s with tx := { s.tx with txstage := t.tx.txstage },
                   port := { s.port with responses := ⟨.ok, 0⟩ :: s.port.responses } } ∧
      ∀ a, Memory.read Space.txstage t.tx.txstage a = if a = idx.toNat then data else Memory.read Space.txstage s.tx.txstage a)

/-- INIT (R152): the copy, the encodedData, the session's size and cursor, the status and the result. -/
def Obligations.InitStartsASessionOnTheStagedText : Prop :=
  ∀ (len : BitVec 8) (s : State), s.Inv →
    let L := min len.toNat 140
    let text := (List.range L).map fun i => Memory.read Space.txstage s.tx.txstage i
    let cw := match s.cfg.mode with
      | .variable => Config.rsEnc 2 [BitVec.ofNat 8 L] ++ Config.rsEnc s.cfg.ecc.toNat text
      | .fixed => Config.rsEnc s.cfg.ecc.toNat (text.take 32 ++ List.replicate (32 - min L 32) 0)
    let G := (cw.length + s.cfg.bpt.toNat - 1) / s.cfg.bpt.toNat
    ∃ t, exec (.init len) s = .next t ∧ t.cfg = s.cfg ∧ t.rx = s.rx ∧
      (∀ a, Memory.read Space.txtext t.tx.txtext a = text.getD a 0) ∧ t.tx.txlen.toNat = L ∧
      t.tx.sdl.toNat = (match s.cfg.mode with | .variable => L | .fixed => 32) ∧
      t.tx.enclen.toNat = cw.length ∧ (∀ a, Memory.read Space.enc t.tx.enc a = cw.getD a 0) ∧
      t.tx.ngrp.toNat = G ∧ t.tx.total.toNat = 16 + 2 + G * s.cfg.fpt.toNat + 2 + 8 ∧
      t.tx.frameid = 0 ∧ t.tx.hasdata = true ∧
      t.tx.txstage = s.tx.txstage ∧ t.tx.ttDirty = s.tx.ttDirty ∧ t.tx.tone = s.tx.tone ∧
      t.port = { s.port with responses :=
        ⟨if 140 < len.toNat ∨ (s.cfg.mode = .fixed ∧ 32 < L) then .clamped else .ok, BitVec.ofNat 32 t.tx.total.toNat⟩
          :: s.port.responses }

/-- R159: in FixedLength mode TOTAL is 28 + ceil((32 + ECC) / BPT) x FPT, whatever the payload; R154: ENCLEN is 3 + L + ECC in
VariableLength mode and 32 + ECC in FixedLength mode. -/
def Obligations.SessionSizeFollowsFromModeAndLength : Prop :=
  ∀ (len : BitVec 8) (s : State), s.Inv → ∃ t, exec (.init len) s = .next t ∧
    (s.cfg.mode = .fixed →
      t.tx.enclen.toNat = 32 + s.cfg.ecc.toNat ∧
      t.tx.total.toNat = 28 + ceilDiv (32 + s.cfg.ecc.toNat) s.cfg.bpt.toNat * s.cfg.fpt.toNat) ∧
    (s.cfg.mode = .variable → t.tx.enclen.toNat = 3 + min len.toNat 140 + s.cfg.ecc.toNat)

/-- SEND (R175) with no session: nothing is emitted, status OK, result 0. With a session: the frame of FRAMEID goes to the sink,
the tone table is rebuilt if it was dirty (R166) and its rows then hold the templates of R163 and R165 in every case, and the
cursor moves on or the session ends. -/
def Obligations.SendEmitsTheNextFrameOrNothing : Prop :=
  ∀ s : State, s.Inv →
    (s.tx.hasdata = false → exec .send s =
      .next { s with port := { s.port with responses := ⟨.ok, 0⟩ :: s.port.responses } }) ∧
    (s.tx.hasdata = true → ∃ t x, exec .send s = .next t ∧ t.cfg = s.cfg ∧ t.rx = s.rx ∧
      t.port = { s.port with sink := x :: s.port.sink, responses := ⟨.ok, 1024⟩ :: s.port.responses } ∧
      (∀ n : Fin 1024, (x.get n).toInt = frameSample s.cfg s.tx.enc s.tx.ngrp.toNat s.tx.frameid.toNat n.val) ∧
      t.tx = { s.tx with tone := t.tx.tone, ttDirty := false, hasdata := t.tx.hasdata, frameid := t.tx.frameid } ∧
      (if s.tx.frameid.toNat + 1 = s.tx.total.toNat then t.tx.hasdata = false ∧ t.tx.frameid = 0
       else t.tx.hasdata = true ∧ t.tx.frameid.toNat = s.tx.frameid.toNat + 1) ∧
      (s.tx.ttDirty = false → t.tx.tone = s.tx.tone) ∧
      (s.tx.ttDirty = true → ∀ r, 16 + s.cfg.ndb ≤ r → Memory.read Space.tone t.tx.tone r = Memory.read Space.tone s.tx.tone r) ∧
      let A : Int := ((s.cfg.vol.toNat * (32767 / (8 * s.cfg.bpt.toNat))) / 100 : Nat)
      ∀ r < 16 + 8 * s.cfg.bpt.toNat, ∀ n : Fin 1024, ((Memory.read Space.tone t.tx.tone r).get n).toInt =
        A * sinq ((s.cfg.fstart.toNat + r * s.cfg.fdelta.toNat) * n.val % 1024) / 32768)

/-- R174: at a legal configuration no template exceeds A, NDB x A stays within full scale, every product of an envelope fits in
a signed 32-bit value, and sat16 never changes a value of R173: no segment of any session clips. -/
def Obligations.NoSampleEverClips : Prop :=
  ∀ (c : Cfg) (enc : ByteMem) (G f n : Nat), c.Legal → n < 1024 →
    (∀ b : Nat, -(c.amp : Int) ≤ tone c b n ∧ tone c b n ≤ c.amp) ∧ c.ndb * c.amp ≤ 32767 ∧
    (∀ g, -2 ^ 30 < dataWave c enc g n * 32768 ∧ dataWave c enc g n * 32768 < 2 ^ 30) ∧
    -32767 ≤ segmentValue c enc G (segment c G f) n ∧ segmentValue c enc G (segment c G f) n ≤ 32767 ∧
    frameSample c enc G f n = segmentValue c enc G (segment c G f) n

/-- The frame plan of a session of G groups (R156) and its envelopes (R170, R171, R172), put together (R173): which frame
carries what, sample by sample. -/
def Obligations.SessionFramesFollowTheFramePlan : Prop :=
  ∀ (c : Cfg) (enc : ByteMem) (G f n : Nat),
    let F := c.fpt.toNat
    let D := fun g => dataWave c enc g n
    let v := frameSample c enc G f n
    sessionFrames c G = 16 + 2 + G * F + 2 + 8 ∧
    (f < 16 → v = sat16 (startMarker c n)) ∧
    (∀ j < 2, f = 16 + j → v = sat16 (D 0 * (16 * (1024 * j + n) : Nat) / 32768)) ∧
    (∀ g < G, ∀ i < F, f = 18 + g * F + i → v = sat16
      (if 1 ≤ g ∧ 2 ≤ F ∧ i = 0 then (D (g - 1) * (32768 - (32 * n : Nat)) + D g * (32 * n : Nat)) / 32768 else D g)) ∧
    (∀ j < 2, f = 18 + G * F + j → v = sat16 (D (G - 1) * (32768 - (16 * (1024 * j + n) : Nat)) / 32768)) ∧
    (20 + G * F ≤ f → v = sat16 (postMarker c n))

/-- The waveforms at the configuration's own bins (R161, R163, R165, R168, R169): a MARKER sample sums the even marker slots, a
POST sample the odd ones, and a DATA sample the slots of the group's 1 bits. -/
def Obligations.WaveformsSumTheTemplatesOfTheirSlots : Prop :=
  ∀ (c : Cfg) (enc : ByteMem) (g n : Nat),
    let A : Int := ((c.vol.toNat * (32767 / (8 * c.bpt.toNat))) / 100 : Nat)
    let T := fun b : Nat => A * sinq (b * n % 1024) / 32768
    startMarker c n = ((List.range 8).map fun j => T (c.fstart.toNat + 2 * j * c.fdelta.toNat)).sum ∧
    postMarker c n = ((List.range 8).map fun j => T (c.fstart.toNat + (2 * j + 1) * c.fdelta.toNat)).sum ∧
    dataWave c enc g n = (((List.range (8 * c.bpt.toNat)).filter fun k =>
      (Memory.read Space.enc enc (g * c.bpt.toNat + k / 8)).getLsbD (k % 8)).map
        fun k => T (c.fstart.toNat + (16 + k) * c.fdelta.toNat)).sum

/-- A session in flight is drained by as many SENDs as it has frames left: each emits the next frame, and only the last clears
HASDATA (R156, R175; 43_query.md R260). -/
def Obligations.SessionDrainsFrameByFrame : Prop :=
  ∀ (s : State) (rest : List HostEvent), s.Inv → s.tx.hasdata = true →
    s.port.events = List.replicate (s.tx.total.toNat - s.tx.frameid.toNat) (.command 0x0A00000000000000#64) ++ rest →
    ∃ t, Sys2Proof.core.run (s.tx.total.toNat - s.tx.frameid.toNat) s = .next t ∧
      t.tx.hasdata = false ∧ t.tx.frameid = 0 ∧ t.port.events = rest ∧ t.rx = s.rx ∧ t.cfg = s.cfg ∧
      t.port.responses =
        List.replicate (s.tx.total.toNat - s.tx.frameid.toNat) ⟨.ok, 1024⟩ ++ s.port.responses ∧
      ∃ xs : List Frame, t.port.sink = xs.reverse ++ s.port.sink ∧ xs.length = s.tx.total.toNat - s.tx.frameid.toNat ∧
        ∀ j x, xs[j]? = some x → ∀ n : Fin 1024,
          (x.get n).toInt = frameSample s.cfg s.tx.enc s.tx.ngrp.toNat (s.tx.frameid.toNat + j) n.val

/-- R107: TXLOAD of a string of at most 140 bytes stages it, byte by byte, and starts a session on exactly it, from every
state. -/
def Obligations.TxloadStagesAndStartsASession : Prop :=
  ∀ (s : State) (bs : List Byte) (ws : List CmdWord) (rest : List HostEvent), s.Inv → bs.length ≤ 140 →
    (Line.txload bs).words = some ws → s.port.events = ws.map .command ++ rest →
    ∃ t, Sys2Proof.core.run (bs.length + 1) s = .next t ∧ t.port.events = rest ∧ t.tx.hasdata = true ∧ t.tx.frameid = 0 ∧
      t.tx.txlen.toNat = bs.length ∧ (∀ a, Memory.read Space.txtext t.tx.txtext a = bs.getD a 0) ∧
      (∀ a, Memory.read Space.txstage t.tx.txstage a =
        if a < bs.length then bs.getD a 0 else Memory.read Space.txstage s.tx.txstage a) ∧
      t.rx = s.rx ∧ t.cfg = s.cfg

/-! ### RECEIVE (42_rx.md) -/

/-- RECEIVE (R200): exactly one pull, status OK, RESULT[10:0] = k, RESULT[12] = newrx and every other bit 0; newrx tells of a
successful decode, and without one the payload stands. So it is for every FFT engine and codec P, the hardware's own among them. -/
def Obligations.ReceivePullsOnceAndReportsIt : Prop :=
  ∀ s : State, exec .receive s = .next (s.receiveFrame Config.params) ∧
    ∀ P : Params, let t := s.receiveFrame P;
      t.cfg = s.cfg ∧ t.tx = s.tx ∧ ∃ r : Result,
        t.port = { s.port with source := s.port.source.tail, pulls := s.port.pulls + 1,
                               responses := ⟨.ok, r⟩ :: s.port.responses } ∧
        r.toNat = s.port.answer.count.val + (if r.getLsbD 12 then 4096 else 0) ∧
        (r.getLsbD 12 = true → t.rx.rxcount = s.rx.rxcount + 1) ∧
        (r.getLsbD 12 = false → t.rx.rxcount = s.rx.rxcount ∧ t.rx.rxtSum = s.rx.rxtSum ∧ t.rx.rxdata = s.rx.rxdata ∧
          t.rx.rxlen = s.rx.rxlen)

/-- R201: a pull with k = 0 changes no Rx state outside ANALYZING, and in ANALYZING none of what a live frame would. -/
def Obligations.ZeroLengthPullDoesOnlyTheAnalysis : Prop :=
  ∀ s : State, s.port.answer.count.val = 0 → ∃ t, exec .receive s = .next t ∧
    (s.rx.rxstate ≠ .analyzing → t.rx = s.rx) ∧
    t.rx.tbc = s.rx.tbc ∧ t.rx.samp = s.rx.samp ∧ t.rx.spec = s.rx.spec ∧ t.rx.hist = s.rx.hist ∧ t.rx.hid = s.rx.hid ∧
    t.rx.hcount = s.rx.hcount ∧ t.rx.recMem = s.rx.recMem ∧ t.rx.recf = s.rx.recf ∧ t.rx.fltr = s.rx.fltr ∧
    (s.Inv → s.rx.rxstate = .analyzing → t.rx.flta.toNat = s.rx.flta.toNat - 1 ∧ (t.rx.flta ≠ 0 → t.rx.rxstate = .analyzing))

/-- R202, R203, R205, R207: a pull with k > 0 counts 2k bytes, keeps the zero-padded frame and its spectrum, whose values are those
of the FFT engine, and pushes it into the history, in every Rx state. -/
def Obligations.LiveFrameEntersCountSpectrumAndHistory : Prop :=
  ∀ s : State, 0 < s.port.answer.count.val → ∃ t, exec .receive s = .next t ∧
    t.rx.tbc.toNat = (s.rx.tbc.toNat + 2 * s.port.answer.count.val) % 2 ^ 32 ∧
    (∀ n : Fin 1024, t.rx.samp.get n = if n.val < s.port.answer.count.val then s.port.answer.samples.get n else 0) ∧
    t.rx.spec = spectrum t.rx.samp ∧ (∀ b : Fin 513, Config.params.val (t.rx.spec.get b) = Config.engine.specMag t.rx.samp b) ∧
    (∀ h : Fin 4, t.rx.hist.get h = if h.val = s.rx.hid.toNat then t.rx.spec else s.rx.hist.get h) ∧
    t.rx.hid.toNat = (s.rx.hid.toNat + 1) % 4 ∧ t.rx.hcount.toNat = min (s.rx.hcount.toNat + 1) 4

/-- R206, R53, for every FFT engine: the floor is the mean over bins 1..511 of the per-bin mean of the written history slots, 0 when
there is none; what bins 0 and 512 and the unwritten slots hold does not enter it. -/
def Obligations.FloorIsTheMeanOfTheWrittenHistory : Prop :=
  ∀ (P : Params) (r : Rx), r.hcount.toNat ≤ 4 →
    let hist := fun (r : Rx) (h b : Nat) => P.val (elem (elem r.hist (Vector.replicate 513 .zero) h) .zero b)
    (∀ b ≤ 512, P.val (r.avg b) = if r.hcount = 0 then 0 else
      (1 / (r.hcount.toNat : ℝ)) * ∑ h ∈ Finset.range r.hcount.toNat, hist r h b) ∧
    P.val r.floor = (if r.hcount = 0 then 0 else
      (∑ b ∈ Finset.Icc 1 511, (∑ h ∈ Finset.range r.hcount.toNat, hist r h b) / (r.hcount.toNat : ℝ)) / 511) ∧
    ∀ r' : Rx, r'.hcount = r.hcount →
      (∀ h < r.hcount.toNat, ∀ b, 1 ≤ b → b ≤ 511 → hist r' h b = hist r h b) → P.val r'.floor = P.val r.floor

/-- R208, R209, for every FFT engine: a bin is ON when its magnitude exceeds the floor by the ratio 3/2, exactly and strictly, and
a frame matches when every even marker bin is ON and no odd one is. -/
def Obligations.MarkerMatchIsTheExactPattern : Prop :=
  ∀ (P : Params) (c : Cfg) (S : Spectrum) (fl : Mag),
    (∀ b, binOn P S fl b = true ↔ 2 * P.val (elem S .zero b) > 3 * P.val fl) ∧
    (P.val fl = 0 → ∀ b, (binOn P S fl b = true ↔ P.val (elem S .zero b) ≠ 0)) ∧
    (markerMatch P c S fl = true ↔
      ∀ j < 16, (2 * P.val (elem S .zero (c.fstart.toNat + j * c.fdelta.toNat)) > 3 * P.val fl ↔ j % 2 = 0))

/-- LISTENING (R211): a matching frame counts in RUN, another clears it, and the eighth match in a row locks; nothing but RUN,
RXSTATE, RXT and what every live frame writes changes. -/
def Obligations.ListeningCountsMatchesAndLocks : Prop :=
  ∀ (P : Params) (s : State), P.Admitted → s.Inv → s.rx.rxstate = .listening → 0 < s.port.answer.count.val →
    let m := s.rx.matchesMarker P s.cfg s.port.answer
    let t := s.receiveFrame P;
      t.rx.run.toNat = (if m then s.rx.run.toNat + 1 else 0) ∧
      t.rx.rxstate = (if m ∧ 8 ≤ s.rx.run.toNat + 1 then .markerLocked else .listening) ∧
      t.rx.rxt = (if m ∧ 8 ≤ s.rx.run.toNat + 1 then 0 else s.rx.rxt) ∧
      t.rx = { s.rx.capture s.port.answer with run := t.rx.run, rxstate := t.rx.rxstate, rxt := t.rx.rxt }

/-- MARKER_LOCKED (R213, R214): a matching frame stays; the first that does not match starts RECORDING and is row 0. -/
def Obligations.LockedTickRecordsTheFirstMismatch : Prop :=
  ∀ (P : Params) (s : State), P.Admitted → s.Inv → s.rx.rxstate = .markerLocked → 0 < s.port.answer.count.val →
    let m := s.rx.matchesMarker P s.cfg s.port.answer
    let t := s.receiveFrame P;
      t.rx.rxt.toNat = min (s.rx.rxt.toNat + 1) (2 ^ 32 - 1) ∧
      (m = true → t.rx.run.toNat = min (s.rx.run.toNat + 1) 65535 ∧
        t.rx = { s.rx.capture s.port.answer with run := t.rx.run, rxt := t.rx.rxt }) ∧
      (m = false → t.rx.rxstate = .recording ∧ t.rx.fltr.toNat = s.cfg.ftr - 1 ∧
        (∀ k : Fin 256, (Memory.read Space.recMem t.rx.recMem 0).get k =
          if k.val < s.cfg.ndb then elem t.rx.spec .zero (s.cfg.db k.val) else (Memory.read Space.recMem s.rx.recMem 0).get k) ∧
        Memory.read Space.recf t.rx.recf 0 = s.rx.floor ∧
        (∀ i, i ≠ 0 → Memory.read Space.recMem t.rx.recMem i = Memory.read Space.recMem s.rx.recMem i ∧
          Memory.read Space.recf t.rx.recf i = Memory.read Space.recf s.rx.recf i) ∧
        t.rx = { s.rx.capture s.port.answer with
          rxstate := .recording, rxt := t.rx.rxt, fltr := t.rx.fltr, recMem := t.rx.recMem, recf := t.rx.recf })

/-- RECORDING (R216, R217): row FTR - FLTR is recorded and FLTR counts down; at 0 the machine enters ANALYZING with FLTA = FTA
and a cleared accumulator and RXRAW. -/
def Obligations.RecordingTickStoresItsRowAndCountsDown : Prop :=
  ∀ (P : Params) (s : State), P.Admitted → s.Inv → s.rx.rxstate = .recording → 0 < s.port.answer.count.val →
    let i := s.cfg.ftr - s.rx.fltr.toNat
    let t := s.receiveFrame P;
      t.rx.rxt.toNat = min (s.rx.rxt.toNat + 1) (2 ^ 32 - 1) ∧
      t.rx.fltr.toNat = s.rx.fltr.toNat - 1 ∧
      (∀ k : Fin 256, (Memory.read Space.recMem t.rx.recMem i).get k =
        if k.val < s.cfg.ndb then elem t.rx.spec .zero (s.cfg.db k.val) else (Memory.read Space.recMem s.rx.recMem i).get k) ∧
      Memory.read Space.recf t.rx.recf i = s.rx.floor ∧
      (∀ j, j ≠ i → Memory.read Space.recMem t.rx.recMem j = Memory.read Space.recMem s.rx.recMem j ∧
        Memory.read Space.recf t.rx.recf j = Memory.read Space.recf s.rx.recf j) ∧
      (1 < s.rx.fltr.toNat → t.rx = { s.rx.capture s.port.answer with
        rxt := t.rx.rxt, fltr := t.rx.fltr, recMem := t.rx.recMem, recf := t.rx.recf }) ∧
      (s.rx.fltr.toNat = 1 → t.rx.flta.toNat = s.cfg.fta ∧ (∀ k : Fin 256, t.rx.acc.get k = .zero) ∧ t.rx.facc = .zero ∧
        (∀ a, Memory.read Space.rxraw t.rx.rxraw a = 0) ∧
        t.rx = { s.rx.capture s.port.answer with
          rxstate := .analyzing, rxt := t.rx.rxt, fltr := t.rx.fltr, recMem := t.rx.recMem, recf := t.rx.recf,
          flta := t.rx.flta, acc := t.rx.acc, facc := t.rx.facc, rxraw := t.rx.rxraw })

/-- ANALYZING (R219 to R224, R232), whatever the pull brought: record a = FTA - FLTA enters the accumulator inside its decision
window, and at its group's last frame the group's bits go to RXRAW and the accumulator is cleared. Before the last record nothing
is decoded: newrx is 0, the machine stays in ANALYZING, and nothing else changes but what a live frame writes. -/
def Obligations.AnalyzingTickAccumulatesAndDecides : Prop :=
  ∀ (P : Params) (s : State), P.Admitted → s.Inv → s.rx.rxstate = .analyzing →
    let a := s.cfg.fta - s.rx.flta.toNat
    let g := (a - 2) / s.cfg.fpt.toNat
    let i := (a - 2) % s.cfg.fpt.toNat
    let inWindow := 2 ≤ a ∧ s.cfg.nbl ≤ i
    let acc := fun k : Fin 256 => P.val (s.rx.acc.get k) +
      if inWindow ∧ k.val < s.cfg.ndb then P.val ((Memory.read Space.recMem s.rx.recMem a).get k) else 0
    let facc := P.val s.rx.facc + if inWindow then P.val (Memory.read Space.recf s.rx.recf a) else 0
    let decides := 2 ≤ a ∧ i = s.cfg.fpt.toNat - 1
    let t := s.receiveFrame P;
      t.rx.rxt.toNat = min (s.rx.rxt.toNat + 1) (2 ^ 32 - 1) ∧
      t.rx.flta.toNat = s.rx.flta.toNat - 1 ∧ t.rx.recMem = s.rx.recMem ∧ t.rx.recf = s.rx.recf ∧
      (¬ decides → (∀ k, P.val (t.rx.acc.get k) = acc k) ∧ P.val t.rx.facc = facc ∧ t.rx.rxraw = s.rx.rxraw) ∧
      (decides → (∀ k, t.rx.acc.get k = .zero) ∧ t.rx.facc = .zero ∧
        (∀ b j, (∀ k : Fin 256, k.val < s.cfg.ndb → g * s.cfg.bpt.toNat + k.val / 8 = b → k.val % 8 = j → ¬ 3 * facc < 2 * acc k) →
          (Memory.read Space.rxraw t.rx.rxraw b).getLsbD j = (Memory.read Space.rxraw s.rx.rxraw b).getLsbD j) ∧
        (∀ k : Fin 256, k.val < s.cfg.ndb → 3 * facc < 2 * acc k →
          (Memory.read Space.rxraw t.rx.rxraw (g * s.cfg.bpt.toNat + k.val / 8)).getLsbD (k.val % 8) = true)) ∧
      (1 < s.rx.flta.toNat →
        (∃ r, t.port.responses = ⟨.ok, r⟩ :: s.port.responses ∧ r.getLsbD 12 = false) ∧ t.rx.rxstate = .analyzing ∧
        t.rx = { (if 0 < s.port.answer.count.val then s.rx.capture s.port.answer else s.rx) with
          rxt := t.rx.rxt, flta := t.rx.flta, acc := t.rx.acc, facc := t.rx.facc, rxraw := t.rx.rxraw })

/-- The last analysis tick decodes (R225 to R229): on success the payload, its length and the averages change together and newrx is
1; on failure none of them changes; either way the machine listens again with RUN = 0, and nothing else changes but what the
analysis of the record and a live frame write. -/
def Obligations.LastAnalysisTickDecodes : Prop :=
  ∀ (P : Params) (s : State), P.Admitted → s.Inv → s.rx.rxstate = .analyzing → s.rx.flta.toNat = 1 →
    let t := s.receiveFrame P;
    ∃ r, t.port.responses = ⟨.ok, r⟩ :: s.port.responses ∧
      t.rx.rxstate = .listening ∧ t.rx.run = 0 ∧ t.rx.flta = 0 ∧
      let raw := fun from' n => (List.range n).map fun i => Memory.read Space.rxraw t.rx.rxraw (from' + i)
      let decodes := fun (m : List Byte) (l : Nat) => match s.cfg.mode with
        | .variable => ∃ h, P.dec 2 (raw 0 3) = some h ∧ l = (h.getD 0 0).toNat ∧ l ≤ 140 ∧
            P.dec s.cfg.ecc.toNat (raw 3 (l + s.cfg.ecc.toNat)) = some m
        | .fixed => l = 32 ∧ P.dec s.cfg.ecc.toNat (raw 0 (32 + s.cfg.ecc.toNat)) = some m
      (∀ m l, decodes m l → r.getLsbD 12 = true ∧ t.rx.rxlen.toNat = l ∧ m.length = l ∧
        (∀ a, Memory.read Space.rxdata t.rx.rxdata a = m.getD a 0) ∧ t.rx.rxcount = s.rx.rxcount + 1 ∧
        t.rx.rxtSum.toNat = (s.rx.rxtSum.toNat + t.rx.rxt.toNat) % 2 ^ 64) ∧
      ((¬ ∃ m l, decodes m l) → r.getLsbD 12 = false ∧ t.rx.rxdata = s.rx.rxdata ∧ t.rx.rxlen = s.rx.rxlen ∧
        t.rx.rxcount = s.rx.rxcount ∧ t.rx.rxtSum = s.rx.rxtSum) ∧
      t.rx = { (if 0 < s.port.answer.count.val then s.rx.capture s.port.answer else s.rx) with
        rxstate := t.rx.rxstate, run := t.rx.run, rxt := t.rx.rxt, flta := t.rx.flta, acc := t.rx.acc, facc := t.rx.facc,
        rxraw := t.rx.rxraw, rxdata := t.rx.rxdata, rxlen := t.rx.rxlen, rxcount := t.rx.rxcount, rxtSum := t.rx.rxtSum }

/-! ### RECEIVE over runs -/

/-- A run of RECEIVE commands is the run of ticks over the answers it pulls. -/
def Obligations.RunOfReceivesIsRunOfTicks : Prop :=
  ∀ (s : State) (as : List Answer) (more : List Answer) (rest : List HostEvent),
    s.port.source = as ++ more → s.port.events = List.replicate as.length (.command 0x1000000000000000#64) ++ rest →
    ∃ t, Sys2Proof.core.run as.length s = .next t ∧ t.rx = s.rx.ticks Config.params s.cfg as ∧ t.cfg = s.cfg ∧ t.tx = s.tx ∧
      t.port.source = more ∧ t.port.events = rest ∧ t.port.sink = s.port.sink

/-- R235, marker robustness, for every FFT engine: while every even marker bin of every live frame is at or below the threshold,
the receiver never locks, over any number of ticks. -/
def Obligations.SubthresholdFramesNeverLock : Prop :=
  ∀ (P : Params) (c : Cfg) (r : Rx) (as : List Answer), r.rxstate = .listening → r.run = 0 →
    r.AllTicks P c (fun r a => 0 < a.count.val → r.belowThreshold P c a) as →
    (r.ticks P c as).rxstate = .listening ∧ (r.ticks P c as).run = 0

/-- R235, R211: a lock needs eight consecutive matching live frames: from RUN = 0, no run with fewer than eight matches in a row
at its end leaves LISTENING. -/
def Obligations.LockNeedsEightMatchesInARow : Prop :=
  ∀ (P : Params) (c : Cfg) (r : Rx) (as : List Answer) (a : Answer), r.rxstate = .listening → r.run = 0 →
    (r.ticks P c as).rxstate = .listening → (r.ticks P c (as ++ [a])).rxstate = .markerLocked →
    ∃ before last : List Answer, as ++ [a] = before ++ last ∧
      (last.filter fun b => decide (0 < b.count.val)).length = 8 ∧
      (r.ticks P c before).AllTicks P c (fun r b => 0 < b.count.val → r.matchesMarker P c b = true) last

/-- R233, for every admitted FFT engine: from MARKER_LOCKED, after matching marker frames, the first frame that does not match and the live
frames after it are the recording, row by row, as long as the recording lasts. -/
def Obligations.RecordingHoldsTheFramesAfterTheMarker : Prop :=
  ∀ (P : Params) (c : Cfg) (r : Rx) (marks : List Answer) (first : Answer) (frames : List Answer),
    P.Admitted → c.Legal → r.Wf c → r.rxstate = .markerLocked → (∀ a ∈ marks ++ first :: frames, 0 < a.count.val) →
    r.AllTicks P c (fun r a => r.matchesMarker P c a = true) marks →
    (r.ticks P c marks).matchesMarker P c first = false → frames.length + 1 < c.ftr →
    let t := r.ticks P c (marks ++ first :: frames)
    t.rxstate = .recording ∧ t.fltr.toNat = c.ftr - (frames.length + 1) ∧
      ∀ i a, (first :: frames)[i]? = some a →
        (∀ k : Fin 256, k.val < c.ndb →
          (Memory.read Space.recMem t.recMem i).get k = elem (spectrum (zeroPad a)) .zero (c.db k.val)) ∧
        Memory.read Space.recf t.recf i = (r.ticks P c (marks ++ (first :: frames).take i)).floor

/-- A candidate takes FTR recording ticks and FTA analysis ticks (R330, R231), for every admitted FFT engine and codec: then the receiver
listens again, and RXT has counted each tick. -/
def Obligations.CandidateEndsAfterTwiceTheBudget : Prop :=
  ∀ (P : Params) (c : Cfg) (r : Rx) (first : Answer) (frames later : List Answer),
    P.Admitted → c.Legal → r.Wf c → r.rxstate = .markerLocked → 0 < first.count.val → r.matchesMarker P c first = false →
    (∀ a ∈ frames, 0 < a.count.val) → frames.length + 1 = c.ftr → later.length = c.fta →
    (r.ticks P c (first :: frames)).rxstate = .analyzing ∧
    (∀ n < c.fta, (r.ticks P c (first :: frames ++ later.take n)).rxstate = .analyzing) ∧
    (r.ticks P c (first :: frames ++ later)).rxstate = .listening ∧
    (r.ticks P c (first :: frames ++ later)).rxt.toNat = min (r.rxt.toNat + 2 * c.ftr) (2 ^ 32 - 1)

/-- R222 to R224: when the analysis is over, every group's bits are the comparison of its window sums, and no other bit of RXRAW
is set. -/
def Obligations.AnalysisDecidesEveryGroupByItsWindow : Prop :=
  ∀ (P : Params) (c : Cfg) (r : Rx) (as : List Answer), P.Admitted → c.Legal → r.Wf c → r.rxstate = .analyzing →
    r.flta.toNat = c.fta → (∀ k : Fin 256, P.val (r.acc.get k) = 0) → P.val r.facc = 0 → r.rxraw = [] → as.length = c.fta →
    (∀ g < c.gmax, ∀ k : Fin 256, k.val < c.ndb →
      ((Memory.read Space.rxraw (r.ticks P c as).rxraw (g * c.bpt.toNat + k.val / 8)).getLsbD (k.val % 8) = true ↔
        r.WindowBit P c g k)) ∧
    ∀ b, c.gmax * c.bpt.toNat ≤ b → Memory.read Space.rxraw (r.ticks P c as).rxraw b = 0

/-- The decode stage undoes the encode stage (R154, R226, law L1 of R71): RXRAW that holds the encodedData of a text with at most
LEN_ECC div 2 byte errors in the length codeword and ECC div 2 in the payload codeword decodes to the text. The codec laws are
named premises. -/
def Obligations.CodewordWithFewErrorsDecodesToItsText : Prop :=
  ∀ (P : Params) (c : Cfg) (text : List Byte) (rxraw : ByteMem) (e1 e2 : List Byte),
    P.Admitted → c.Legal → text.length ≤ 140 →
    (c.mode = .variable → P.Corrects 2 [BitVec.ofNat 8 text.length] → P.Corrects c.ecc.toNat text →
      e1.length = 3 → byteWeight e1 ≤ 1 → e2.length = text.length + c.ecc.toNat → byteWeight e2 ≤ c.ecc.toNat / 2 →
      (∀ i < (codeword P c text).length,
        Memory.read Space.rxraw rxraw i = (codeword P c text).getD i 0 ^^^ (e1 ++ e2).getD i 0) →
      decodePayload P c rxraw = some (text, text.length)) ∧
    (c.mode = .fixed → P.Corrects c.ecc.toNat (fixedPayload text) →
      e2.length = 32 + c.ecc.toNat → byteWeight e2 ≤ c.ecc.toNat / 2 →
      (∀ i < (codeword P c text).length,
        Memory.read Space.rxraw rxraw i = (codeword P c text).getD i 0 ^^^ e2.getD i 0) →
      decodePayload P c rxraw = some (fixedPayload text, 32))

/-- From the recording to the payload (R219 to R229), in both modes: if the window decisions of the recording are the bits of the
encodedData of a text (41_tx.md R154), the analysis ends with exactly the payload encoded in RXDATA, its length in RXLEN and one
more decode counted. The payload is the text in VariableLength mode, and its first 32 bytes padded with zeros to 32 in FixedLength
mode. -/
def Obligations.CleanRecordingDeliversItsText : Prop :=
  ∀ (P : Params) (c : Cfg) (r : Rx) (as : List Answer) (text : List Byte), P.Admitted → c.Legal → r.Wf c →
    r.rxstate = .analyzing → r.flta.toNat = c.fta → (∀ k : Fin 256, P.val (r.acc.get k) = 0) → P.val r.facc = 0 → r.rxraw = [] →
    as.length = c.fta → text.length ≤ 140 →
    let payload := match c.mode with
      | .variable => text
      | .fixed => text.take 32 ++ List.replicate (32 - text.length) 0
    (c.mode = .variable → P.Corrects 2 [BitVec.ofNat 8 text.length]) → P.Corrects c.ecc.toNat payload →
    (∀ g < c.gmax, ∀ k : Fin 256, k.val < c.ndb → g * c.bpt.toNat + k.val / 8 < (codeword P c text).length →
      (r.WindowBit P c g k ↔ ((codeword P c text).getD (g * c.bpt.toNat + k.val / 8) 0).getLsbD (k.val % 8) = true)) →
    let t := r.ticks P c as
    t.rxlen.toNat = (match c.mode with | .variable => text.length | .fixed => 32) ∧
      (∀ a, Memory.read Space.rxdata t.rxdata a = payload.getD a 0) ∧ t.rxcount = r.rxcount + 1 ∧ t.rxstate = .listening

/-! ### Reading the payload, and the queries (42_rx.md, 43_query.md) -/

/-- RDRX (R240): one byte of RXDATA, zero-extended, without side effect, or REJECTED. -/
def Obligations.RdrxReadsOnePayloadByteOrRejects : Prop :=
  ∀ (idx : BitVec 8) (s : State), exec (.rdrx idx) s = .next
    { s with port := { s.port with responses :=
      (if 140 ≤ idx.toNat then ⟨.rejected, 0⟩
       else ⟨.ok, BitVec.ofNat 32 (Memory.read Space.rxdata s.rx.rxdata idx.toNat).toNat⟩) :: s.port.responses } }

/-- R240's corner case, R229: from RXLEN to 139 every byte reads 0. -/
def Obligations.RdrxBeyondTheLengthReadsZero : Prop :=
  ∀ (idx : BitVec 8) (s : State), s.Inv → s.rx.rxlen.toNat ≤ idx.toNat → idx.toNat < 140 →
    ∃ t, exec (.rdrx idx) s = .next t ∧ t.port.responses = ⟨.ok, 0⟩ :: s.port.responses

/-- The queries that answer a register (R241, R260, R266, R268 to R270, R272, R273) or a constant (R274 to R276): the word that
is the opcode alone decodes to the query, and the query answers OK and the value, without side effect (R277). -/
def Obligations.QueriesAnswerTheirRegister : Prop :=
  ∀ s : State,
    let answers := fun (opc : BitVec 8) (i : Instr) (v : Nat) => decode (opc ++ 0#56) = .ok i ∧
      exec i s = .next { s with port := { s.port with responses := ⟨.ok, BitVec.ofNat 32 v⟩ :: s.port.responses } }
    answers 0x12 .getrxlen s.rx.rxlen.toNat ∧
    answers 0x20 .gethasdata (if s.tx.hasdata then 1 else 0) ∧
    answers 0x23 .getfltr s.rx.fltr.toNat ∧ answers 0x25 .getflta s.rx.flta.toNat ∧ answers 0x26 .gettbc s.rx.tbc.toNat ∧
    answers 0x27 .getrxstate
      (match s.rx.rxstate with | .listening => 0 | .markerLocked => 1 | .recording => 2 | .analyzing => 3) ∧
    answers 0x30 .getratein s.cfg.rateIn.toNat ∧ answers 0x31 .getrateout s.cfg.rateOut.toNat ∧
    answers 0x32 .getspf 1024 ∧ answers 0x33 .getssbin 2 ∧ answers 0x34 .getssbout 2

/-- GETFTR and GETFTA (R265, R267, R215): FTR = 2 + ceil(ENCMAX / BPT) x FPT, from the configuration only, no side effect. -/
def Obligations.BudgetQueriesAnswerTheRecordingBudget : Prop :=
  ∀ s : State, s.Inv →
    let encmax := match s.cfg.mode with
      | .variable => 3 + 140 + s.cfg.ecc.toNat
      | .fixed => 32 + s.cfg.ecc.toNat
    decode 0x2200000000000000#64 = .ok .getftr ∧ decode 0x2400000000000000#64 = .ok .getfta ∧
    ∃ v : Result, v.toNat = 2 + ((encmax + s.cfg.bpt.toNat - 1) / s.cfg.bpt.toNat) * s.cfg.fpt.toNat ∧
      exec .getftr s = .next { s with port := { s.port with responses := ⟨.ok, v⟩ :: s.port.responses } } ∧
      exec .getfta s = .next { s with port := { s.port with responses := ⟨.ok, v⟩ :: s.port.responses } }

/-- GETAVGRXT (R263): the mean receive time in whole milliseconds, saturated to 32 bits, 0 before the first decode. -/
def Obligations.AverageReceiveTimeIsTheMeanInMilliseconds : Prop :=
  decode 0x2100000000000000#64 = .ok .getavgrxt ∧ ∀ s : State, ∃ v : Result,
    v.toNat = (if s.rx.rxcount.toNat = 0 then 0
      else min (2 ^ 32 - 1) ((s.rx.rxtSum.toNat * 1024 * 1000) / (s.rx.rxcount.toNat * s.cfg.rateIn.toNat))) ∧
    exec .getavgrxt s = .next { s with port := { s.port with responses := ⟨.ok, v⟩ :: s.port.responses } }

/-! ### The reference FFT engine and the loopback (42_rx.md R203, R236) -/

/-- R176, R204: under the reference engine every template is close to a pure tone. With the ideal amplitude a = A x 32767 / 32768,
each sample of T(b) is within 1.0625 of a sin(2 pi b n / 1024); the magnitude of T(b) at bin b is within 1088 of 512 a, and below
1088 at every other bin. -/
def Obligations.TemplatesAreNearlyPureTonesUnderTheReferenceEngine : Prop :=
  ∀ (c : Cfg) (b : Nat) (enc : Nat → List Byte → List Byte) (dec : Nat → List Byte → Option (List Byte)),
    c.Legal → 1 ≤ b → b ≤ 511 →
    let P := Params.reference enc dec
    let a : ℝ := ((c.vol.toNat * (32767 / (8 * c.bpt.toNat))) / 100 : Nat) * 32767 / 32768
    let T : Frame := Vector.ofFn fun n => BitVec.ofInt 16 (tone c b n.val)
    (∀ n : Fin 1024, |((T.get n).toInt : ℝ) - a * Real.sin (2 * Real.pi * b * n.val / 1024)| < 1.0625) ∧
    ∀ b' : Fin 513, if b'.val = b then |P.val ((spectrum T).get b') - a * 512| < 1088 else P.val ((spectrum T).get b') < 1088

/-- R236, with the alignment of R233, for every FFT engine, the reference among them, and every codec that corrects the messages
(law L1, a named premise), in both modes. The frames of a session of a text, and live frames after it, are fed to a listening
receiver one a tick. If the receiver is locked after the 16 MARKER frames, frame 16 does not match, and in the window of every
group the data frames read as the bits of the encodedData against the floors in force, then the decode completes on RECEIVE number
16 + 2 x FTR, with none between, and the payload is in RXDATA. -/
def Obligations.LoopbackDeliversThePayload : Prop :=
  ∀ (P : Params) (c : Cfg) (r : Rx) (text : List Byte) (silence : List Answer), P.Admitted → c.Legal → r.Wf c →
    r.rxstate = .listening → text.length ≤ 140 →
    let payload := match c.mode with
      | .variable => text
      | .fixed => text.take 32 ++ List.replicate (32 - text.length) 0
    (c.mode = .variable → P.Corrects 2 [BitVec.ofNat 8 text.length]) → P.Corrects c.ecc.toNat payload →
    let cw := codeword P c text
    let heard := sessionAnswers c (Memory.fill Space.enc cw) (ceilDiv cw.length c.bpt.toNat) ++ silence
    (∀ a ∈ silence, 0 < a.count.val) → 16 + 2 * c.ftr ≤ heard.length →
    let at' := fun n => r.ticks P c (heard.take n)
    let frame := fun f => heard.getD f default
    (at' 16).rxstate = .markerLocked → (at' 16).matchesMarker P c (frame 16) = false →
    (∀ g < c.gmax, ∀ k < c.ndb, g * c.bpt.toNat + k / 8 < cw.length →
      let window := (List.range c.window).map fun i => 18 + g * c.fpt.toNat + c.nbl + i
      ((cw.getD (g * c.bpt.toNat + k / 8) 0).getLsbD (k % 8) = true ↔
        3 * (window.map fun f => P.val (at' f).floor).sum <
          2 * (window.map fun f => P.val (elem (spectrum (zeroPad (frame f))) .zero (c.db k))).sum)) →
    let t := at' (16 + 2 * c.ftr)
    t.rxlen.toNat = (match c.mode with | .variable => text.length | .fixed => 32) ∧
      (∀ a, Memory.read Space.rxdata t.rxdata a = payload.getD a 0) ∧ t.rxstate = .listening ∧
      t.rxcount = (at' 16).rxcount + 1 ∧ ∀ n, 16 ≤ n → n < 16 + 2 * c.ftr → (at' n).rxcount = (at' 16).rxcount
end

