-- ==== Sys2Proof/Laws/Config.lean ====
section
/-! SUPPORT. The contract of the open parameters holds of the hardware's own collaborators by their form (spec/20_memory.md
R70), and any codec with that contract is admitted with any FFT engine (spec/42_rx.md R203). -/

namespace Sys2Proof

@[simp] theorem Config.length_rsEnc (E : Nat) (m : List Byte) : (Config.rsEnc E m).length = m.length + E := by
  simp [Config.rsEnc]

theorem Config.length_rsDec {E : Nat} {c m : List Byte} (h : Config.rsDec E c = some m) : m.length = c.length - E := by
  unfold Config.rsDec at h
  split at h
  · cases h
    simp
  · cases h

/-- The hardware's codec and FFT engine are admitted parameters. -/
theorem Config.params_admitted : Config.params.Admitted where
  enc_length := Config.length_rsEnc
  dec_length _ _ _ _ h := Config.length_rsDec h

/-- The contract is the codec's alone: every FFT engine is admitted. -/
theorem Params.Admitted.withEngine {P : Params} (h : P.Admitted) (E : Engine) : Params.Admitted { P with engine := E } :=
  ⟨h.enc_length, h.dec_length⟩

@[simp] theorem Config.params_engine : Config.params.engine = Config.engine := rfl
@[simp] theorem Config.params_enc : Config.params.enc = Config.rsEnc := rfl
@[simp] theorem Config.params_dec : Config.params.dec = Config.rsDec := rfl

end Sys2Proof
end

