-- ==== Sys2Proof/Laws/Encoding.lean ====
section
/-! SUPPORT. The fields of a command word as numbers: an encoded command is the sum of its fields at their places
(spec/30_encoding.md R92), a field is a quotient and a remainder of the word, and the decoder's verdict by opcode. -/

namespace Sys2Proof

/-- Concatenation puts the upper part above the lower part's width. -/
theorem toNat_append_eq {m n : Nat} (x : BitVec m) (y : BitVec n) : (x ++ y).toNat = x.toNat * 2 ^ n + y.toNat := by
  rw [BitVec.toNat_append, Nat.shiftLeft_eq, Nat.mul_comm x.toNat, Nat.two_pow_add_eq_or_of_lt y.isLt]

/-- A field is a digit of the word. -/
theorem extract_eq_iff {n : Nat} (w : BitVec n) (s l : Nat) (x : BitVec l) :
    w.extractLsb' s l = x ↔ w.toNat / 2 ^ s % 2 ^ l = x.toNat := by
  rw [← BitVec.toNat_inj, BitVec.extractLsb'_toNat, Nat.shiftRight_eq_div_pow]

theorem toNat_encode_setparam (fd : BitVec 8) (fs : BitVec 10) (fpt : BitVec 4) (bpt : BitVec 6) (vol : BitVec 7) :
    (encode (.setparam fd fs fpt bpt vol)).toNat =
      0x01 * 2 ^ 56 + fd.toNat * 2 ^ 48 + fs.toNat * 2 ^ 38 + fpt.toNat * 2 ^ 34 + bpt.toNat * 2 ^ 28 + vol.toNat * 2 ^ 21 := by
  have h : (0x01#8 ++ fd ++ fs ++ fpt ++ bpt ++ vol ++ 0#21).toNat =
      0x01 * 2 ^ 56 + fd.toNat * 2 ^ 48 + fs.toNat * 2 ^ 38 + fpt.toNat * 2 ^ 34 + bpt.toNat * 2 ^ 28 + vol.toNat * 2 ^ 21 := by
    simp only [toNat_append_eq, BitVec.toNat_ofNat]
    omega
  exact h

theorem toNat_encode_setmode (m : BitVec 1) : (encode (.setmode m)).toNat = 0x02 * 2 ^ 56 + m.toNat := by
  have h : (0x02#8 ++ 0#55 ++ m).toNat =
      0x02 * 2 ^ 56 + m.toNat := by
    simp only [toNat_append_eq, BitVec.toNat_ofNat]
    omega
  exact h

theorem toNat_encode_setecc (e : BitVec 7) : (encode (.setecc e)).toNat = 0x03 * 2 ^ 56 + e.toNat := by
  have h : (0x03#8 ++ 0#49 ++ e).toNat =
      0x03 * 2 ^ 56 + e.toNat := by
    simp only [toNat_append_eq, BitVec.toNat_ofNat]
    omega
  exact h

theorem toNat_encode_setrate (rin rout : BitVec 24) :
    (encode (.setrate rin rout)).toNat = 0x04 * 2 ^ 56 + rin.toNat * 2 ^ 32 + rout.toNat * 2 ^ 8 := by
  have h : (0x04#8 ++ rin ++ rout ++ 0#8).toNat =
      0x04 * 2 ^ 56 + rin.toNat * 2 ^ 32 + rout.toNat * 2 ^ 8 := by
    simp only [toNat_append_eq, BitVec.toNat_ofNat]
    omega
  exact h

theorem toNat_encode_wtxb (idx data : BitVec 8) :
    (encode (.wtxb idx data)).toNat = 0x08 * 2 ^ 56 + idx.toNat * 2 ^ 8 + data.toNat := by
  have h : (0x08#8 ++ 0#40 ++ idx ++ data).toNat =
      0x08 * 2 ^ 56 + idx.toNat * 2 ^ 8 + data.toNat := by
    simp only [toNat_append_eq, BitVec.toNat_ofNat]
    omega
  exact h

theorem toNat_encode_init (len : BitVec 8) : (encode (.init len)).toNat = 0x09 * 2 ^ 56 + len.toNat := by
  have h : (0x09#8 ++ 0#48 ++ len).toNat =
      0x09 * 2 ^ 56 + len.toNat := by
    simp only [toNat_append_eq, BitVec.toNat_ofNat]
    omega
  exact h

theorem toNat_encode_rdrx (idx : BitVec 8) : (encode (.rdrx idx)).toNat = 0x11 * 2 ^ 56 + idx.toNat := by
  have h : (0x11#8 ++ 0#48 ++ idx).toNat =
      0x11 * 2 ^ 56 + idx.toNat := by
    simp only [toNat_append_eq, BitVec.toNat_ofNat]
    omega
  exact h

theorem toNat_encodeZ (opc : BitVec 8) : (encodeZ opc).toNat = opc.toNat * 2 ^ 56 := by
  have h : (opc ++ 0#56).toNat =
      opc.toNat * 2 ^ 56 := by
    simp only [toNat_append_eq, BitVec.toNat_ofNat]
    omega
  exact h

/-! ### The decoder's verdict -/

theorem ifReservedZero_zero {n : Nat} {r : BitVec n} (h : r = 0#n) (opc : BitVec 8) (i : Instr) :
    ifReservedZero r opc i = .ok i := by
  simp [ifReservedZero, h]

theorem ifReservedZero_ok {n : Nat} {r : BitVec n} {opc : BitVec 8} {i j : Instr}
    (h : ifReservedZero r opc i = .ok j) : r = 0#n ∧ j = i := by
  unfold ifReservedZero at h
  split at h
  · cases h
    exact ⟨‹_›, rfl⟩
  · cases h

/-- OPC of a word is its top digit. -/
theorem opcodeOf_eq_iff (w : CmdWord) (opc : BitVec 8) : opcodeOf w = opc ↔ w.toNat / 2 ^ 56 = opc.toNat := by
  rw [opcodeOf, extract_eq_iff]
  have := w.isLt
  omega

@[simp] theorem opcodeOf_encodeZ (opc : BitVec 8) : opcodeOf (encodeZ opc) = opc := by
  rw [opcodeOf_eq_iff, toNat_encodeZ]
  omega

@[simp] theorem decodeZ_encodeZ (opc : BitVec 8) (i : Instr) : decodeZ (encodeZ opc) i = .ok i := by
  refine ifReservedZero_zero ?_ _ _
  rw [extract_eq_iff, toNat_encodeZ, BitVec.toNat_ofNat]
  omega

end Sys2Proof
end

