-- ==== Sys2Proof/Laws/Flags.lean ====
section
/-! SUPPORT. What each flag computation and each operand check says, as a proposition over numbers (spec/60_exceptions.md R291;
spec/40_config.md R122, R130, R132; spec/41_tx.md R150, R152; spec/42_rx.md R200). -/

namespace Sys2Proof.Machine

/-! ### Status -/

@[simp] theorem Status.ofClamp_ne_illegal (c : Bool) : Status.ofClamp c ≠ .illegal := by cases c <;> decide
@[simp] theorem Status.ofClamp_ne_rejected (c : Bool) : Status.ofClamp c ≠ .rejected := by cases c <;> decide
@[simp] theorem Status.ofClamp_eq_clamped (c : Bool) : Status.ofClamp c = .clamped ↔ c = true := by cases c <;> decide

/-! ### Operand checks -/

theorem Knobs.clamps_iff (k : Knobs) :
    k.clamps = true ↔ k.fd = 0 ∨ k.fs = 0 ∨ k.fpt = 0 ∨ k.bpt = 0 ∨ 32 < k.bpt ∨ 100 < k.vol := by
  simp only [clamps, Bool.or_eq_true, beq_iff_eq, decide_eq_true_eq, or_assoc]

theorem Knobs.beyondNyquist_iff (k : Knobs) : k.beyondNyquist = true ↔ 511 < k.fs + (15 + 8 * k.bpt) * k.fd :=
  decide_eq_true_iff

theorem eccClamps_iff (e : Nat) : eccClamps e = true ↔ e < 2 ∨ 64 < e := by
  simp only [eccClamps, Config.minEcc, Config.maxEcc, Bool.or_eq_true, decide_eq_true_eq]

theorem rateInRange_iff (r : Nat) : rateInRange r = true ↔ 8000 ≤ r ∧ r ≤ 192000 := by
  simp only [rateInRange, Config.minRate, Config.maxRate, Bool.and_eq_true, decide_eq_true_eq]

theorem indexInRange_iff (i : Nat) : indexInRange i = true ↔ i < 140 := by
  simp only [indexInRange, Config.maxLength, decide_eq_true_eq]

theorem lengthClamps_iff (m : Mode) (len : Nat) :
    lengthClamps m len = true ↔ 140 < len ∨ (m = .fixed ∧ 32 < min len 140) := by
  cases m <;>
    simp [lengthClamps, copiedLength, Config.maxLength, Config.fixedLength]

/-! ### RECEIVE's result -/

theorem toNat_receiveResult (newrx : Bool) {k : Nat} (hk : k ≤ 1024) :
    (receiveResult newrx k).toNat = k + if newrx then 4096 else 0 := by
  have h : ∀ b : Bool, (0#19 ++ BitVec.ofBool b ++ 0#1 ++ BitVec.ofNat 11 k).toNat = k + if b then 4096 else 0 := by
    intro b
    simp only [BitVec.toNat_append, BitVec.toNat_ofNat, Nat.shiftLeft_eq]
    have hk' : k % 2 ^ 11 = k := by omega
    rw [hk']
    cases b
    · simp
    · have e := Nat.two_pow_add_eq_or_of_lt (i := 11) (show k < 2 ^ 11 by omega) 2
      simp [← e]; omega
  exact h newrx

theorem getLsbD_receiveResult (newrx : Bool) (k : Nat) : (receiveResult newrx k).getLsbD 12 = newrx := by
  have h : ∀ b : Bool, (0#19 ++ BitVec.ofBool b ++ 0#1 ++ BitVec.ofNat 11 k).getLsbD 12 = b := by
    intro b
    rw [BitVec.getLsbD_append, BitVec.getLsbD_append, BitVec.getLsbD_append]
    cases b <;> rfl
  exact h newrx

end Sys2Proof.Machine
end

