-- ==== Sys2Proof/Laws/Fourier.lean ====
section
/-! SUPPORT. The discrete Fourier transform of the reference engine (spec/42_rx.md R203): a sinusoid of b whole cycles has all its
magnitude in bin b, and a frame close to one is close to that (spec/41_tx.md R176). -/

namespace Sys2Proof.Machine

open Real Complex

/-- The transform of 1024 real samples, as `dft` takes it of a frame. -/
noncomputable def dftOf (g : Nat → ℝ) (b : Nat) : ℂ := ∑ n : Fin 1024, (g n.val : ℂ) * exp (-2 * π * I * b * n.val / 1024)

theorem dft_eq_dftOf (x : Frame) {g : Nat → ℝ} (h : ∀ n : Fin 1024, ((x.get n).toInt : ℝ) = g n.val) (b : Nat) : dft x b = dftOf g b := by
  unfold dft dftOf
  refine Finset.sum_congr rfl fun n _ => ?_
  rw [← h n, ofReal_intCast]

/-- Two frames whose samples differ by less than d have transforms that differ by less than 1024 d. -/
theorem dftOf_near {f g : Nat → ℝ} {d : ℝ} (h : ∀ n < 1024, |f n - g n| < d) (b : Nat) : ‖dftOf f b - dftOf g b‖ < 1024 * d := by
  unfold dftOf
  rw [← Finset.sum_sub_distrib]
  refine lt_of_le_of_lt (norm_sum_le _ _) ?_
  have e : (1024 : ℝ) * d = ∑ _n : Fin 1024, d := by simp
  rw [e]
  refine Finset.sum_lt_sum_of_nonempty Finset.univ_nonempty fun n _ => ?_
  have h1 : ‖exp (-2 * π * I * b * n.val / 1024)‖ = 1 := by
    rw [show -2 * π * I * b * n.val / 1024 = ((-2 * π * b * n.val / 1024 : ℝ) : ℂ) * I by push_cast; ring]
    exact norm_exp_ofReal_mul_I _
  rw [← sub_mul, norm_mul, h1, mul_one, ← ofReal_sub, norm_real]
  exact h n.val n.isLt

/-- A sum of whole turns: 1024 if the turn is an integer, else 0. -/
theorem sum_turns (m : Int) : ∑ n : Fin 1024, exp (2 * π * I * m * n.val / 1024) = if (1024 : Int) ∣ m then 1024 else 0 := by
  let z : ℂ := exp (2 * π * I * m / 1024)
  have hz : ∀ n : Nat, exp (2 * π * I * m * n / 1024) = z ^ n := by
    intro n
    rw [← Complex.exp_nat_mul]
    congr 1; ring
  have h1 : z ^ 1024 = 1 := by
    rw [← Complex.exp_nat_mul, Complex.exp_eq_one_iff]
    exact ⟨m, by push_cast; ring⟩
  have hs : ∑ n : Fin 1024, exp (2 * π * I * m * n.val / 1024) = ∑ n ∈ Finset.range 1024, z ^ n := by
    rw [← Fin.sum_univ_eq_sum_range]
    exact Finset.sum_congr rfl fun n _ => hz n.val
  rw [hs]
  have hone : z = 1 ↔ (1024 : Int) ∣ m := by
    rw [Complex.exp_eq_one_iff]
    have hp : (2 * π * I : ℂ) ≠ 0 := by simp [pi_ne_zero]
    constructor
    · rintro ⟨k, hk⟩
      refine ⟨k, ?_⟩
      have : (m : ℂ) = 1024 * k := by
        have h3 : (2 * π * I : ℂ) * m = (2 * π * I) * (1024 * k) := by linear_combination 1024 * hk
        exact mul_left_cancel₀ hp h3
      exact_mod_cast this
    · rintro ⟨k, rfl⟩
      exact ⟨k, by push_cast; ring⟩
  split
  · rename_i h
    rw [hone.2 h]; simp
  · rename_i h
    have h2 := mul_neg_geom_sum z 1024
    rw [h1, sub_self] at h2
    exact (mul_eq_zero.1 h2).resolve_left (fun h3 => h (hone.1 (sub_eq_zero.1 h3).symm))

/-- A sinusoid of amplitude a and b whole cycles: 512 a at bin b, 0 at every other bin (R176). -/
theorem norm_dftOf_sine {a : ℝ} (ha : 0 ≤ a) {b b' : Nat} (h1 : 1 ≤ b) (h2 : b ≤ 511) (h3 : b' ≤ 512) :
    ‖dftOf (fun n => a * Real.sin (2 * π * b * n / 1024)) b'‖ = if b' = b then a * 512 else 0 := by
  have e : dftOf (fun n => a * Real.sin (2 * π * b * n / 1024)) b' =
      a * I / 2 * (∑ n : Fin 1024, exp (2 * π * I * ((-b - b' : Int) : ℂ) * n.val / 1024) -
        ∑ n : Fin 1024, exp (2 * π * I * ((b - b' : Int) : ℂ) * n.val / 1024)) := by
    unfold dftOf
    rw [← Finset.sum_sub_distrib, Finset.mul_sum]
    refine Finset.sum_congr rfl fun n _ => ?_
    have p1 : exp (2 * π * I * ((-b - b' : Int) : ℂ) * n.val / 1024) =
        exp (-(2 * π * b * n.val / 1024 * I)) * exp (-2 * π * I * b' * n.val / 1024) := by
      rw [← Complex.exp_add]; congr 1; push_cast; ring
    have p2 : exp (2 * π * I * ((b - b' : Int) : ℂ) * n.val / 1024) =
        exp (2 * π * b * n.val / 1024 * I) * exp (-2 * π * I * b' * n.val / 1024) := by
      rw [← Complex.exp_add]; congr 1; push_cast; ring
    rw [p1, p2]
    push_cast
    rw [Complex.sin, neg_mul]
    ring
  rw [e, sum_turns, sum_turns]
  have d1 : ¬ (1024 : Int) ∣ -b - b' := by omega
  rw [if_neg d1]
  split
  · rename_i h
    rw [if_pos (by omega)]
    simp [abs_of_nonneg ha]; ring
  · rename_i h
    rw [if_neg (by rintro rfl; simp at h)]
    simp

end Sys2Proof.Machine
end

