-- ==== Sys2Proof/Laws/Layout.lean ====
section
/-! SUPPORT. What a legal configuration bounds: one lemma per derived value of the protocol layout (spec/10_state.md R52, R54;
spec/42_rx.md R215). -/

namespace Sys2Proof.Machine

theorem le_ceilDiv_mul (a : Nat) {b : Nat} (hb : 1 ≤ b) : a ≤ ceilDiv a b * b := by
  have h := Nat.div_add_mod (a + b - 1) b
  have h2 := Nat.mod_lt (a + b - 1) (y := b) (by omega)
  have : b * ((a + b - 1) / b) = ceilDiv a b * b := Nat.mul_comm ..
  omega

theorem ceilDiv_mul_le (a b : Nat) : ceilDiv a b * b ≤ a + b - 1 := Nat.div_mul_le_self ..

theorem ceilDiv_le {a b n : Nat} (hb : 1 ≤ b) (h : a ≤ n * b) : ceilDiv a b ≤ n := by
  unfold ceilDiv
  have : (a + b - 1) / b < n + 1 := by
    apply Nat.div_lt_of_lt_mul
    rw [Nat.mul_add, Nat.mul_comm b n]; omega
  omega

theorem ceilDiv_le_self (a : Nat) {b : Nat} (hb : 1 ≤ b) : ceilDiv a b ≤ a :=
  ceilDiv_le hb (Nat.le_mul_of_pos_right a hb)

theorem ceilDiv_pos {a b : Nat} (hb : 1 ≤ b) (ha : 1 ≤ a) : 1 ≤ ceilDiv a b :=
  (Nat.one_le_div_iff hb).mpr (by omega)

theorem lt_ceilDiv_iff {a b n : Nat} (hb : 1 ≤ b) : n < ceilDiv a b ↔ n * b < a := by
  constructor
  · intro h
    have h1 := ceilDiv_mul_le a b
    have h2 : (n + 1) * b ≤ ceilDiv a b * b := Nat.mul_le_mul_right b h
    rw [Nat.add_mul] at h2; omega
  · intro h
    by_contra hc
    have h1 := le_ceilDiv_mul a hb
    have h2 : ceilDiv a b * b ≤ n * b := Nat.mul_le_mul_right b (by omega)
    omega

namespace Cfg

variable {c : Cfg}

theorem Legal.ndb_pos (h : c.Legal) : 8 ≤ c.ndb := by unfold ndb; have := h.2.2.2.2.1; omega

theorem Legal.ndb_le (h : c.Legal) : c.ndb ≤ 256 := by unfold ndb; have := h.2.2.2.2.2.1; omega

theorem Legal.bpt_pos (h : c.Legal) : 1 ≤ c.bpt.toNat := h.2.2.2.2.1

theorem Legal.bpt_le (h : c.Legal) : c.bpt.toNat ≤ 32 := h.2.2.2.2.2.1

theorem Legal.fpt_pos (h : c.Legal) : 1 ≤ c.fpt.toNat := h.2.2.2.1

theorem fpt_le (c : Cfg) : c.fpt.toNat ≤ 15 := by have := c.fpt.isLt; omega

theorem nbl_le_one (c : Cfg) : c.nbl ≤ 1 := by unfold nbl; split <;> omega

theorem nbl_lt_fpt (h : c.Legal) : c.nbl < c.fpt.toNat := by
  have := h.fpt_pos; unfold nbl; split <;> omega

theorem Legal.window_pos (h : c.Legal) : 1 ≤ c.window := by have := nbl_lt_fpt h; unfold window; omega

theorem nbl_add_window (h : c.Legal) : c.nbl + c.window = c.fpt.toNat := by
  have := nbl_lt_fpt h; unfold window; omega

theorem Legal.encmax_le (h : c.Legal) : c.encmax ≤ 207 := by
  have := h.2.2.2.2.2.2.2.2.1
  unfold encmax; cases c.mode <;> simp only [Config.maxLength, Config.fixedLength] <;> omega

theorem Legal.encmax_pos (h : c.Legal) : 34 ≤ c.encmax := by
  have := h.2.2.2.2.2.2.2.1
  unfold encmax; cases c.mode <;> simp only [Config.maxLength, Config.fixedLength] <;> omega

theorem Legal.gmax_le (h : c.Legal) : c.gmax ≤ 207 := (ceilDiv_le_self _ h.bpt_pos).trans h.encmax_le

theorem Legal.gmax_pos (h : c.Legal) : 1 ≤ c.gmax := ceilDiv_pos h.bpt_pos (by have := h.encmax_pos; omega)

theorem Legal.encmax_le_gmax_mul (h : c.Legal) : c.encmax ≤ c.gmax * c.bpt.toNat := le_ceilDiv_mul _ h.bpt_pos

theorem Legal.gmax_mul_le (h : c.Legal) : c.gmax * c.bpt.toNat ≤ 238 := by
  have h1 := ceilDiv_mul_le c.encmax c.bpt.toNat
  have h2 := h.encmax_le; have h3 := h.bpt_le
  unfold gmax; omega

theorem ftr_eq (c : Cfg) : c.ftr = 2 + c.gmax * c.fpt.toNat := rfl

theorem fta_eq (c : Cfg) : c.fta = c.ftr := rfl

theorem Legal.ftr_le (h : c.Legal) : c.ftr ≤ 3107 := by
  have := Nat.mul_le_mul h.gmax_le c.fpt_le
  rw [ftr_eq]; omega

theorem Legal.ftr_pos (h : c.Legal) : 3 ≤ c.ftr := by
  have := Nat.mul_le_mul h.gmax_pos h.fpt_pos
  rw [ftr_eq]; omega

theorem slotBin_mono (c : Cfg) {s t : Nat} (h : s ≤ t) : c.slotBin s ≤ c.slotBin t :=
  Nat.add_le_add_left (Nat.mul_le_mul_right _ h) _

theorem Legal.slotBin_le (h : c.Legal) {s : Nat} (hs : s < 16 + c.ndb) : c.slotBin s ≤ 511 := by
  have h1 : c.slotBin s ≤ c.slotBin (15 + 8 * c.bpt.toNat) := c.slotBin_mono (by unfold ndb at hs; omega)
  exact h1.trans h.2.2.1

theorem Legal.mb_le (h : c.Legal) {j : Nat} (hj : j < 16) : c.mb j ≤ 511 := h.slotBin_le (by omega)

theorem Legal.db_le (h : c.Legal) {k : Nat} (hk : k < c.ndb) : c.db k ≤ 511 :=
  h.slotBin_le (by simp only [Config.markerBits]; omega)

theorem Legal.mb_lt_db (h : c.Legal) {j : Nat} (hj : j < 16) (k : Nat) : c.mb j < c.db k := by
  have h1 : (j + 1) * c.fdelta.toNat ≤ (16 + k) * c.fdelta.toNat := Nat.mul_le_mul_right _ (by omega)
  have h2 := h.1
  rw [Nat.add_mul] at h1
  simp only [mb, db, slotBin, Config.markerBits]; omega

/-- A tone slot's amplitude, times as many tones as can sound at once, stays within full scale (41_tx.md R161, R174). -/
theorem Legal.ndb_mul_amp_le (h : c.Legal) : c.ndb * c.amp ≤ 32767 := by
  have hv := h.2.2.2.2.2.2.1
  have h1 : c.amp ≤ Config.fullScale / c.ndb := by
    unfold amp
    exact Nat.div_le_of_le_mul (Nat.mul_le_mul_right _ hv)
  calc c.ndb * c.amp ≤ c.ndb * (Config.fullScale / c.ndb) := Nat.mul_le_mul_left _ h1
    _ ≤ 32767 := Nat.mul_div_le _ _

theorem Legal.eight_mul_amp_le (h : c.Legal) : 8 * c.amp ≤ 32767 :=
  (Nat.mul_le_mul_right _ h.ndb_pos).trans h.ndb_mul_amp_le

theorem Legal.amp_le (h : c.Legal) : c.amp ≤ 4095 := by have := h.eight_mul_amp_le; omega

end Cfg

/-- SETPARAM's clamps give values that are legal but for the Nyquist rule (40_config.md R122, R123). -/
theorem Knobs.clamp_bounds (k : Knobs) :
    1 ≤ k.clamp.fd ∧ 1 ≤ k.clamp.fs ∧ 1 ≤ k.clamp.fpt ∧ 1 ≤ k.clamp.bpt ∧ k.clamp.bpt ≤ 32 ∧ k.clamp.vol ≤ 100 := by
  simp only [clamp, raiseZero]
  refine ⟨?_, ?_, ?_, ?_, ?_, ?_⟩ <;> (repeat' split) <;> omega

theorem raiseZero_lt {v n : Nat} (h : v < n) (hn : 2 ≤ n) : raiseZero v < n := by
  unfold raiseZero; split <;> omega

theorem raiseZero_eq_max (v : Nat) : raiseZero v = max v 1 := by unfold raiseZero; split <;> omega

theorem clampEcc_bounds (e : Nat) : 2 ≤ clampEcc e ∧ clampEcc e ≤ 64 := by
  simp only [clampEcc, Config.minEcc, Config.maxEcc]; omega

end Sys2Proof.Machine
end

