-- ==== Sys2Proof/Laws/Magnitude.lean ====
section
/-! SUPPORT. What a magnitude stands for (spec/00_scope.md R13): the value of each expression the rules make, that it is in
R>=0, and that the comparisons of the datapath are the exact comparisons of values. -/

namespace Sys2Proof

open Machine

/-- Every magnitude is in R>=0 (R13). -/
theorem Mag.value_nonneg (S : Frame → Fin 513 → NNReal) (m : Mag) : 0 ≤ m.value S := by
  induction m with
  | zero => exact le_refl _
  | bin x b => exact NNReal.coe_nonneg _
  | add p q hp hq => exact add_nonneg hp hq
  | scale num den m hm => exact mul_nonneg (by positivity) hm

theorem Params.val_nonneg (P : Params) (m : Mag) : 0 ≤ P.val m := Mag.value_nonneg _ m

@[simp] theorem Params.val_zero (P : Params) : P.val .zero = 0 := rfl
@[simp] theorem Params.val_bin (P : Params) (x : Frame) (b : Fin 513) : P.val (.bin x b) = P.engine.specMag x b := rfl
@[simp] theorem Params.val_add (P : Params) (p q : Mag) : P.val (.add p q) = P.val p + P.val q := rfl
@[simp] theorem Params.val_scale (P : Params) (n d : Nat) (m : Mag) : P.val (.scale n d m) = (n : ℝ) / (d : ℝ) * P.val m := rfl

/-- The comparator is exact (R13). -/
theorem Params.less_iff (P : Params) (p q : Mag) : P.less p q = true ↔ P.val p < P.val q := P.engine.exact p q

namespace Machine

/-- The threshold comparison (42_rx.md R208, R224): 2 x m > 3 x fl. -/
theorem exceeds_iff (P : Params) (m fl : Mag) : exceeds P m fl = true ↔ 3 * P.val fl < 2 * P.val m := by
  simp [exceeds, Params.less_iff]

theorem binOn_iff (P : Params) (S : Spectrum) (fl : Mag) (b : Nat) :
    binOn P S fl b = true ↔ 3 * P.val fl < 2 * P.val (elem S .zero b) := exceeds_iff ..

theorem Rx.decideBit_iff (P : Params) (r : Rx) (k : Nat) :
    r.decideBit P k = true ↔ 3 * P.val r.facc < 2 * P.val (elem r.acc .zero k) := exceeds_iff ..

/-- A sum of magnitudes stands for the sum of their values. -/
theorem val_sumMag (P : Params) (n : Nat) (f : Nat → Mag) : P.val (sumMag n f) = ∑ i ∈ Finset.range n, P.val (f i) := by
  have key : ∀ (l : List Mag) (z : Mag), P.val (l.foldl Mag.add z) = P.val z + (l.map P.val).sum := by
    intro l
    induction l with
    | nil => intro z; simp
    | cons m l ih =>
      intro z
      rw [List.foldl_cons, ih, Params.val_add, List.map_cons, List.sum_cons, add_assoc]
  unfold sumMag
  rw [key, Params.val_zero, zero_add, List.map_map]
  induction n with
  | zero => rfl
  | succ n ih => rw [List.range_succ, List.map_append, List.sum_append, ih, Finset.sum_range_succ]; simp

/-- SPEC[b] is SpecMag of the frame at bin b (42_rx.md R203). -/
@[simp] theorem get_spectrum (x : Frame) (b : Fin 513) : (spectrum x).get b = .bin x b := by simp only [spectrum, Vector.get_ofFn]

theorem elem_spectrum (x : Frame) {b : Nat} (h : b < 513) : elem (spectrum x) .zero b = .bin x ⟨b, h⟩ := by
  have e : elem (spectrum x) .zero b = (spectrum x).get ⟨b, h⟩ := by simp [elem, h, Vector.get_eq_getElem]
  rw [e, get_spectrum]

theorem val_ite (P : Params) (p : Prop) [Decidable p] (m m' : Mag) : P.val (if p then m else m') = if p then P.val m else P.val m' := by
  split <;> rfl

/-! ### The reference engine (42_rx.md R203) -/

/-- Under the reference engine SPEC[b] is the magnitude of the discrete Fourier transform at bin b. -/
theorem val_reference (enc : Nat → List Byte → List Byte) (dec : Nat → List Byte → Option (List Byte)) (x : Frame) (b : Fin 513) :
    (Params.reference enc dec).val ((spectrum x).get b) = ‖dft x b.val‖ := by
  rw [get_spectrum]
  rfl

end Machine

end Sys2Proof
end

