-- ==== Sys2Proof/Laws/State.lean ====
section
/-! SUPPORT. One lemma per field per update, true by rfl: what each named update of the state leaves at each field. -/

namespace Sys2Proof.Machine

/-! ### respond, reject, illegal, emit: only the port -/

@[simp] theorem State.respond_cfg (s : State) (st : Status) (r : Result) : (s.respond st r).cfg = s.cfg := rfl
@[simp] theorem State.respond_tx (s : State) (st : Status) (r : Result) : (s.respond st r).tx = s.tx := rfl
@[simp] theorem State.respond_rx (s : State) (st : Status) (r : Result) : (s.respond st r).rx = s.rx := rfl
@[simp] theorem State.respond_port_events (s : State) (st : Status) (r : Result) : (s.respond st r).port.events = s.port.events := rfl
@[simp] theorem State.respond_port_source (s : State) (st : Status) (r : Result) : (s.respond st r).port.source = s.port.source := rfl
@[simp] theorem State.respond_port_pulls (s : State) (st : Status) (r : Result) : (s.respond st r).port.pulls = s.port.pulls := rfl
@[simp] theorem State.respond_port_sink (s : State) (st : Status) (r : Result) : (s.respond st r).port.sink = s.port.sink := rfl
@[simp] theorem State.respond_port_responses (s : State) (st : Status) (r : Result) : (s.respond st r).port.responses = ⟨st, r⟩ :: s.port.responses := rfl
@[simp] theorem State.reject_cfg (s : State) : (s.reject).cfg = s.cfg := rfl
@[simp] theorem State.reject_tx (s : State) : (s.reject).tx = s.tx := rfl
@[simp] theorem State.reject_rx (s : State) : (s.reject).rx = s.rx := rfl
@[simp] theorem State.reject_port_events (s : State) : (s.reject).port.events = s.port.events := rfl
@[simp] theorem State.reject_port_source (s : State) : (s.reject).port.source = s.port.source := rfl
@[simp] theorem State.reject_port_pulls (s : State) : (s.reject).port.pulls = s.port.pulls := rfl
@[simp] theorem State.reject_port_sink (s : State) : (s.reject).port.sink = s.port.sink := rfl
@[simp] theorem State.reject_port_responses (s : State) : (s.reject).port.responses = ⟨.rejected, 0⟩ :: s.port.responses := rfl
@[simp] theorem State.illegal_cfg (s : State) : (s.illegal).cfg = s.cfg := rfl
@[simp] theorem State.illegal_tx (s : State) : (s.illegal).tx = s.tx := rfl
@[simp] theorem State.illegal_rx (s : State) : (s.illegal).rx = s.rx := rfl
@[simp] theorem State.illegal_port_events (s : State) : (s.illegal).port.events = s.port.events := rfl
@[simp] theorem State.illegal_port_source (s : State) : (s.illegal).port.source = s.port.source := rfl
@[simp] theorem State.illegal_port_pulls (s : State) : (s.illegal).port.pulls = s.port.pulls := rfl
@[simp] theorem State.illegal_port_sink (s : State) : (s.illegal).port.sink = s.port.sink := rfl
@[simp] theorem State.illegal_port_responses (s : State) : (s.illegal).port.responses = ⟨.illegal, 0⟩ :: s.port.responses := rfl
@[simp] theorem State.emit_cfg (s : State) (x : Frame) : (s.emit x).cfg = s.cfg := rfl
@[simp] theorem State.emit_tx (s : State) (x : Frame) : (s.emit x).tx = s.tx := rfl
@[simp] theorem State.emit_rx (s : State) (x : Frame) : (s.emit x).rx = s.rx := rfl
@[simp] theorem State.emit_port_events (s : State) (x : Frame) : (s.emit x).port.events = s.port.events := rfl
@[simp] theorem State.emit_port_source (s : State) (x : Frame) : (s.emit x).port.source = s.port.source := rfl
@[simp] theorem State.emit_port_pulls (s : State) (x : Frame) : (s.emit x).port.pulls = s.port.pulls := rfl
@[simp] theorem State.emit_port_sink (s : State) (x : Frame) : (s.emit x).port.sink = x :: s.port.sink := rfl
@[simp] theorem State.emit_port_responses (s : State) (x : Frame) : (s.emit x).port.responses = s.port.responses := rfl

/-! ### takeEvent and applyReset -/

@[simp] theorem State.takeEvent_cfg (s : State) : (s.takeEvent).cfg = s.cfg := rfl
@[simp] theorem State.takeEvent_tx (s : State) : (s.takeEvent).tx = s.tx := rfl
@[simp] theorem State.takeEvent_rx (s : State) : (s.takeEvent).rx = s.rx := rfl
@[simp] theorem State.takeEvent_port_source (s : State) : (s.takeEvent).port.source = s.port.source := rfl
@[simp] theorem State.takeEvent_port_pulls (s : State) : (s.takeEvent).port.pulls = s.port.pulls := rfl
@[simp] theorem State.takeEvent_port_sink (s : State) : (s.takeEvent).port.sink = s.port.sink := rfl
@[simp] theorem State.takeEvent_port_responses (s : State) : (s.takeEvent).port.responses = s.port.responses := rfl
@[simp] theorem State.takeEvent_port_events (s : State) : (s.takeEvent).port.events = s.port.events.tail := rfl
@[simp] theorem State.applyReset_cfg (s : State) : (s.applyReset).cfg = Cfg.reset := rfl
@[simp] theorem State.applyReset_tx (s : State) : (s.applyReset).tx = Tx.reset := rfl
@[simp] theorem State.applyReset_rx (s : State) : (s.applyReset).rx = Rx.reset := rfl
@[simp] theorem State.applyReset_port (s : State) : (s.applyReset).port = s.port := rfl

/-! ### pulled -/

@[simp] theorem Port.pulled_events (p : Port) : (p.pulled).events = p.events := rfl
@[simp] theorem Port.pulled_sink (p : Port) : (p.pulled).sink = p.sink := rfl
@[simp] theorem Port.pulled_responses (p : Port) : (p.pulled).responses = p.responses := rfl
@[simp] theorem Port.pulled_source (p : Port) : (p.pulled).source = p.source.tail := rfl
@[simp] theorem Port.pulled_pulls (p : Port) : (p.pulled).pulls = p.pulls + 1 := rfl

/-! ### AbortSessions (40_config.md R134) -/

@[simp] theorem Tx.abort_txstage (t : Tx) : (t.abort).txstage = t.txstage := rfl
@[simp] theorem Tx.abort_txtext (t : Tx) : (t.abort).txtext = t.txtext := rfl
@[simp] theorem Tx.abort_txlen (t : Tx) : (t.abort).txlen = t.txlen := rfl
@[simp] theorem Tx.abort_sdl (t : Tx) : (t.abort).sdl = t.sdl := rfl
@[simp] theorem Tx.abort_enc (t : Tx) : (t.abort).enc = t.enc := rfl
@[simp] theorem Tx.abort_enclen (t : Tx) : (t.abort).enclen = t.enclen := rfl
@[simp] theorem Tx.abort_ngrp (t : Tx) : (t.abort).ngrp = t.ngrp := rfl
@[simp] theorem Tx.abort_total (t : Tx) : (t.abort).total = t.total := rfl
@[simp] theorem Tx.abort_ttDirty (t : Tx) : (t.abort).ttDirty = t.ttDirty := rfl
@[simp] theorem Tx.abort_tone (t : Tx) : (t.abort).tone = t.tone := rfl
@[simp] theorem Tx.abort_frameid (t : Tx) : (t.abort).frameid = 0 := rfl
@[simp] theorem Tx.abort_hasdata (t : Tx) : (t.abort).hasdata = false := rfl
@[simp] theorem Rx.abort_samp (r : Rx) : (r.abort).samp = r.samp := rfl
@[simp] theorem Rx.abort_spec (r : Rx) : (r.abort).spec = r.spec := rfl
@[simp] theorem Rx.abort_hist (r : Rx) : (r.abort).hist = r.hist := rfl
@[simp] theorem Rx.abort_hid (r : Rx) : (r.abort).hid = r.hid := rfl
@[simp] theorem Rx.abort_hcount (r : Rx) : (r.abort).hcount = r.hcount := rfl
@[simp] theorem Rx.abort_recMem (r : Rx) : (r.abort).recMem = r.recMem := rfl
@[simp] theorem Rx.abort_recf (r : Rx) : (r.abort).recf = r.recf := rfl
@[simp] theorem Rx.abort_rxraw (r : Rx) : (r.abort).rxraw = r.rxraw := rfl
@[simp] theorem Rx.abort_rxdata (r : Rx) : (r.abort).rxdata = r.rxdata := rfl
@[simp] theorem Rx.abort_rxlen (r : Rx) : (r.abort).rxlen = r.rxlen := rfl
@[simp] theorem Rx.abort_rxtSum (r : Rx) : (r.abort).rxtSum = r.rxtSum := rfl
@[simp] theorem Rx.abort_rxcount (r : Rx) : (r.abort).rxcount = r.rxcount := rfl
@[simp] theorem Rx.abort_tbc (r : Rx) : (r.abort).tbc = r.tbc := rfl
@[simp] theorem Rx.abort_rxstate (r : Rx) : (r.abort).rxstate = .listening := rfl
@[simp] theorem Rx.abort_run (r : Rx) : (r.abort).run = 0 := rfl
@[simp] theorem Rx.abort_fltr (r : Rx) : (r.abort).fltr = 0 := rfl
@[simp] theorem Rx.abort_flta (r : Rx) : (r.abort).flta = 0 := rfl
@[simp] theorem Rx.abort_rxt (r : Rx) : (r.abort).rxt = 0 := rfl
@[simp] theorem Rx.abort_acc (r : Rx) : (r.abort).acc = Vector.replicate 256 .zero := rfl
@[simp] theorem Rx.abort_facc (r : Rx) : (r.abort).facc = .zero := rfl
@[simp] theorem State.abortSessions_cfg (s : State) : (s.abortSessions).cfg = s.cfg := rfl
@[simp] theorem State.abortSessions_tx (s : State) : (s.abortSessions).tx = s.tx.abort := rfl
@[simp] theorem State.abortSessions_rx (s : State) : (s.abortSessions).rx = s.rx.abort := rfl
@[simp] theorem State.abortSessions_port (s : State) : (s.abortSessions).port = s.port := rfl
@[simp] theorem State.commitConfig_cfg (s : State) (c : Cfg) : (s.commitConfig c).cfg = c := rfl
@[simp] theorem State.commitConfig_tx (s : State) (c : Cfg) : (s.commitConfig c).tx = s.tx.abort := rfl
@[simp] theorem State.commitConfig_rx (s : State) (c : Cfg) : (s.commitConfig c).rx = s.rx.abort := rfl
@[simp] theorem State.commitConfig_port (s : State) (c : Cfg) : (s.commitConfig c).port = s.port := rfl
@[simp] theorem State.markToneDirty_cfg (s : State) : (s.markToneDirty).cfg = s.cfg := rfl
@[simp] theorem State.markToneDirty_tx (s : State) : (s.markToneDirty).tx = { s.tx with ttDirty := true } := rfl
@[simp] theorem State.markToneDirty_rx (s : State) : (s.markToneDirty).rx = s.rx := rfl
@[simp] theorem State.markToneDirty_port (s : State) : (s.markToneDirty).port = s.port := rfl

/-! ### The receiver's updates -/

@[simp] theorem Rx.historyPush_samp (r : Rx) (S : Spectrum) : (r.historyPush S).samp = r.samp := rfl
@[simp] theorem Rx.historyPush_spec (r : Rx) (S : Spectrum) : (r.historyPush S).spec = r.spec := rfl
@[simp] theorem Rx.historyPush_hist (r : Rx) (S : Spectrum) : (r.historyPush S).hist = r.hist.setIfInBounds r.hid.toNat S := rfl
@[simp] theorem Rx.historyPush_hid (r : Rx) (S : Spectrum) : (r.historyPush S).hid = r.hid + 1 := rfl
@[simp] theorem Rx.historyPush_hcount (r : Rx) (S : Spectrum) : (r.historyPush S).hcount = BitVec.ofNat 3 (min (r.hcount.toNat + 1) Config.maxHistory) := rfl
@[simp] theorem Rx.historyPush_rxstate (r : Rx) (S : Spectrum) : (r.historyPush S).rxstate = r.rxstate := rfl
@[simp] theorem Rx.historyPush_run (r : Rx) (S : Spectrum) : (r.historyPush S).run = r.run := rfl
@[simp] theorem Rx.historyPush_recMem (r : Rx) (S : Spectrum) : (r.historyPush S).recMem = r.recMem := rfl
@[simp] theorem Rx.historyPush_recf (r : Rx) (S : Spectrum) : (r.historyPush S).recf = r.recf := rfl
@[simp] theorem Rx.historyPush_acc (r : Rx) (S : Spectrum) : (r.historyPush S).acc = r.acc := rfl
@[simp] theorem Rx.historyPush_facc (r : Rx) (S : Spectrum) : (r.historyPush S).facc = r.facc := rfl
@[simp] theorem Rx.historyPush_fltr (r : Rx) (S : Spectrum) : (r.historyPush S).fltr = r.fltr := rfl
@[simp] theorem Rx.historyPush_flta (r : Rx) (S : Spectrum) : (r.historyPush S).flta = r.flta := rfl
@[simp] theorem Rx.historyPush_rxraw (r : Rx) (S : Spectrum) : (r.historyPush S).rxraw = r.rxraw := rfl
@[simp] theorem Rx.historyPush_rxdata (r : Rx) (S : Spectrum) : (r.historyPush S).rxdata = r.rxdata := rfl
@[simp] theorem Rx.historyPush_rxlen (r : Rx) (S : Spectrum) : (r.historyPush S).rxlen = r.rxlen := rfl
@[simp] theorem Rx.historyPush_rxt (r : Rx) (S : Spectrum) : (r.historyPush S).rxt = r.rxt := rfl
@[simp] theorem Rx.historyPush_rxtSum (r : Rx) (S : Spectrum) : (r.historyPush S).rxtSum = r.rxtSum := rfl
@[simp] theorem Rx.historyPush_rxcount (r : Rx) (S : Spectrum) : (r.historyPush S).rxcount = r.rxcount := rfl
@[simp] theorem Rx.historyPush_tbc (r : Rx) (S : Spectrum) : (r.historyPush S).tbc = r.tbc := rfl
@[simp] theorem Rx.recordRow_samp (c : Cfg) (r : Rx) (i : Nat) (fl : Mag) : (r.recordRow c i fl).samp = r.samp := rfl
@[simp] theorem Rx.recordRow_spec (c : Cfg) (r : Rx) (i : Nat) (fl : Mag) : (r.recordRow c i fl).spec = r.spec := rfl
@[simp] theorem Rx.recordRow_hist (c : Cfg) (r : Rx) (i : Nat) (fl : Mag) : (r.recordRow c i fl).hist = r.hist := rfl
@[simp] theorem Rx.recordRow_hid (c : Cfg) (r : Rx) (i : Nat) (fl : Mag) : (r.recordRow c i fl).hid = r.hid := rfl
@[simp] theorem Rx.recordRow_hcount (c : Cfg) (r : Rx) (i : Nat) (fl : Mag) : (r.recordRow c i fl).hcount = r.hcount := rfl
@[simp] theorem Rx.recordRow_rxstate (c : Cfg) (r : Rx) (i : Nat) (fl : Mag) : (r.recordRow c i fl).rxstate = r.rxstate := rfl
@[simp] theorem Rx.recordRow_run (c : Cfg) (r : Rx) (i : Nat) (fl : Mag) : (r.recordRow c i fl).run = r.run := rfl
@[simp] theorem Rx.recordRow_recf (c : Cfg) (r : Rx) (i : Nat) (fl : Mag) : (r.recordRow c i fl).recf = Memory.write Space.recf r.recf i fl := rfl
@[simp] theorem Rx.recordRow_acc (c : Cfg) (r : Rx) (i : Nat) (fl : Mag) : (r.recordRow c i fl).acc = r.acc := rfl
@[simp] theorem Rx.recordRow_facc (c : Cfg) (r : Rx) (i : Nat) (fl : Mag) : (r.recordRow c i fl).facc = r.facc := rfl
@[simp] theorem Rx.recordRow_fltr (c : Cfg) (r : Rx) (i : Nat) (fl : Mag) : (r.recordRow c i fl).fltr = r.fltr := rfl
@[simp] theorem Rx.recordRow_flta (c : Cfg) (r : Rx) (i : Nat) (fl : Mag) : (r.recordRow c i fl).flta = r.flta := rfl
@[simp] theorem Rx.recordRow_rxraw (c : Cfg) (r : Rx) (i : Nat) (fl : Mag) : (r.recordRow c i fl).rxraw = r.rxraw := rfl
@[simp] theorem Rx.recordRow_rxdata (c : Cfg) (r : Rx) (i : Nat) (fl : Mag) : (r.recordRow c i fl).rxdata = r.rxdata := rfl
@[simp] theorem Rx.recordRow_rxlen (c : Cfg) (r : Rx) (i : Nat) (fl : Mag) : (r.recordRow c i fl).rxlen = r.rxlen := rfl
@[simp] theorem Rx.recordRow_rxt (c : Cfg) (r : Rx) (i : Nat) (fl : Mag) : (r.recordRow c i fl).rxt = r.rxt := rfl
@[simp] theorem Rx.recordRow_rxtSum (c : Cfg) (r : Rx) (i : Nat) (fl : Mag) : (r.recordRow c i fl).rxtSum = r.rxtSum := rfl
@[simp] theorem Rx.recordRow_rxcount (c : Cfg) (r : Rx) (i : Nat) (fl : Mag) : (r.recordRow c i fl).rxcount = r.rxcount := rfl
@[simp] theorem Rx.recordRow_tbc (c : Cfg) (r : Rx) (i : Nat) (fl : Mag) : (r.recordRow c i fl).tbc = r.tbc := rfl
@[simp] theorem Rx.enterAnalyzing_samp (c : Cfg) (r : Rx) : (r.enterAnalyzing c).samp = r.samp := rfl
@[simp] theorem Rx.enterAnalyzing_spec (c : Cfg) (r : Rx) : (r.enterAnalyzing c).spec = r.spec := rfl
@[simp] theorem Rx.enterAnalyzing_hist (c : Cfg) (r : Rx) : (r.enterAnalyzing c).hist = r.hist := rfl
@[simp] theorem Rx.enterAnalyzing_hid (c : Cfg) (r : Rx) : (r.enterAnalyzing c).hid = r.hid := rfl
@[simp] theorem Rx.enterAnalyzing_hcount (c : Cfg) (r : Rx) : (r.enterAnalyzing c).hcount = r.hcount := rfl
@[simp] theorem Rx.enterAnalyzing_rxstate (c : Cfg) (r : Rx) : (r.enterAnalyzing c).rxstate = .analyzing := rfl
@[simp] theorem Rx.enterAnalyzing_run (c : Cfg) (r : Rx) : (r.enterAnalyzing c).run = r.run := rfl
@[simp] theorem Rx.enterAnalyzing_recMem (c : Cfg) (r : Rx) : (r.enterAnalyzing c).recMem = r.recMem := rfl
@[simp] theorem Rx.enterAnalyzing_recf (c : Cfg) (r : Rx) : (r.enterAnalyzing c).recf = r.recf := rfl
@[simp] theorem Rx.enterAnalyzing_acc (c : Cfg) (r : Rx) : (r.enterAnalyzing c).acc = Vector.replicate 256 .zero := rfl
@[simp] theorem Rx.enterAnalyzing_facc (c : Cfg) (r : Rx) : (r.enterAnalyzing c).facc = .zero := rfl
@[simp] theorem Rx.enterAnalyzing_fltr (c : Cfg) (r : Rx) : (r.enterAnalyzing c).fltr = r.fltr := rfl
@[simp] theorem Rx.enterAnalyzing_flta (c : Cfg) (r : Rx) : (r.enterAnalyzing c).flta = BitVec.ofNat 16 c.fta := rfl
@[simp] theorem Rx.enterAnalyzing_rxraw (c : Cfg) (r : Rx) : (r.enterAnalyzing c).rxraw = [] := rfl
@[simp] theorem Rx.enterAnalyzing_rxdata (c : Cfg) (r : Rx) : (r.enterAnalyzing c).rxdata = r.rxdata := rfl
@[simp] theorem Rx.enterAnalyzing_rxlen (c : Cfg) (r : Rx) : (r.enterAnalyzing c).rxlen = r.rxlen := rfl
@[simp] theorem Rx.enterAnalyzing_rxt (c : Cfg) (r : Rx) : (r.enterAnalyzing c).rxt = r.rxt := rfl
@[simp] theorem Rx.enterAnalyzing_rxtSum (c : Cfg) (r : Rx) : (r.enterAnalyzing c).rxtSum = r.rxtSum := rfl
@[simp] theorem Rx.enterAnalyzing_rxcount (c : Cfg) (r : Rx) : (r.enterAnalyzing c).rxcount = r.rxcount := rfl
@[simp] theorem Rx.enterAnalyzing_tbc (c : Cfg) (r : Rx) : (r.enterAnalyzing c).tbc = r.tbc := rfl
@[simp] theorem Rx.accumulate_samp (c : Cfg) (r : Rx) (a : Nat) : (r.accumulate c a).samp = r.samp := by simp only [Rx.accumulate]
@[simp] theorem Rx.accumulate_spec (c : Cfg) (r : Rx) (a : Nat) : (r.accumulate c a).spec = r.spec := by simp only [Rx.accumulate]
@[simp] theorem Rx.accumulate_hist (c : Cfg) (r : Rx) (a : Nat) : (r.accumulate c a).hist = r.hist := by simp only [Rx.accumulate]
@[simp] theorem Rx.accumulate_hid (c : Cfg) (r : Rx) (a : Nat) : (r.accumulate c a).hid = r.hid := by simp only [Rx.accumulate]
@[simp] theorem Rx.accumulate_hcount (c : Cfg) (r : Rx) (a : Nat) : (r.accumulate c a).hcount = r.hcount := by simp only [Rx.accumulate]
@[simp] theorem Rx.accumulate_rxstate (c : Cfg) (r : Rx) (a : Nat) : (r.accumulate c a).rxstate = r.rxstate := by simp only [Rx.accumulate]
@[simp] theorem Rx.accumulate_run (c : Cfg) (r : Rx) (a : Nat) : (r.accumulate c a).run = r.run := by simp only [Rx.accumulate]
@[simp] theorem Rx.accumulate_recMem (c : Cfg) (r : Rx) (a : Nat) : (r.accumulate c a).recMem = r.recMem := by simp only [Rx.accumulate]
@[simp] theorem Rx.accumulate_recf (c : Cfg) (r : Rx) (a : Nat) : (r.accumulate c a).recf = r.recf := by simp only [Rx.accumulate]
@[simp] theorem Rx.accumulate_facc (c : Cfg) (r : Rx) (a : Nat) : (r.accumulate c a).facc = .add r.facc (Memory.read Space.recf r.recf a) := by simp only [Rx.accumulate]
@[simp] theorem Rx.accumulate_fltr (c : Cfg) (r : Rx) (a : Nat) : (r.accumulate c a).fltr = r.fltr := by simp only [Rx.accumulate]
@[simp] theorem Rx.accumulate_flta (c : Cfg) (r : Rx) (a : Nat) : (r.accumulate c a).flta = r.flta := by simp only [Rx.accumulate]
@[simp] theorem Rx.accumulate_rxraw (c : Cfg) (r : Rx) (a : Nat) : (r.accumulate c a).rxraw = r.rxraw := by simp only [Rx.accumulate]
@[simp] theorem Rx.accumulate_rxdata (c : Cfg) (r : Rx) (a : Nat) : (r.accumulate c a).rxdata = r.rxdata := by simp only [Rx.accumulate]
@[simp] theorem Rx.accumulate_rxlen (c : Cfg) (r : Rx) (a : Nat) : (r.accumulate c a).rxlen = r.rxlen := by simp only [Rx.accumulate]
@[simp] theorem Rx.accumulate_rxt (c : Cfg) (r : Rx) (a : Nat) : (r.accumulate c a).rxt = r.rxt := by simp only [Rx.accumulate]
@[simp] theorem Rx.accumulate_rxtSum (c : Cfg) (r : Rx) (a : Nat) : (r.accumulate c a).rxtSum = r.rxtSum := by simp only [Rx.accumulate]
@[simp] theorem Rx.accumulate_rxcount (c : Cfg) (r : Rx) (a : Nat) : (r.accumulate c a).rxcount = r.rxcount := by simp only [Rx.accumulate]
@[simp] theorem Rx.accumulate_tbc (c : Cfg) (r : Rx) (a : Nat) : (r.accumulate c a).tbc = r.tbc := by simp only [Rx.accumulate]
@[simp] theorem Rx.decideGroup_samp (P : Params) (c : Cfg) (r : Rx) (g : Nat) : (r.decideGroup P c g).samp = r.samp := rfl
@[simp] theorem Rx.decideGroup_spec (P : Params) (c : Cfg) (r : Rx) (g : Nat) : (r.decideGroup P c g).spec = r.spec := rfl
@[simp] theorem Rx.decideGroup_hist (P : Params) (c : Cfg) (r : Rx) (g : Nat) : (r.decideGroup P c g).hist = r.hist := rfl
@[simp] theorem Rx.decideGroup_hid (P : Params) (c : Cfg) (r : Rx) (g : Nat) : (r.decideGroup P c g).hid = r.hid := rfl
@[simp] theorem Rx.decideGroup_hcount (P : Params) (c : Cfg) (r : Rx) (g : Nat) : (r.decideGroup P c g).hcount = r.hcount := rfl
@[simp] theorem Rx.decideGroup_rxstate (P : Params) (c : Cfg) (r : Rx) (g : Nat) : (r.decideGroup P c g).rxstate = r.rxstate := rfl
@[simp] theorem Rx.decideGroup_run (P : Params) (c : Cfg) (r : Rx) (g : Nat) : (r.decideGroup P c g).run = r.run := rfl
@[simp] theorem Rx.decideGroup_recMem (P : Params) (c : Cfg) (r : Rx) (g : Nat) : (r.decideGroup P c g).recMem = r.recMem := rfl
@[simp] theorem Rx.decideGroup_recf (P : Params) (c : Cfg) (r : Rx) (g : Nat) : (r.decideGroup P c g).recf = r.recf := rfl
@[simp] theorem Rx.decideGroup_acc (P : Params) (c : Cfg) (r : Rx) (g : Nat) : (r.decideGroup P c g).acc = Vector.replicate 256 .zero := rfl
@[simp] theorem Rx.decideGroup_facc (P : Params) (c : Cfg) (r : Rx) (g : Nat) : (r.decideGroup P c g).facc = .zero := rfl
@[simp] theorem Rx.decideGroup_fltr (P : Params) (c : Cfg) (r : Rx) (g : Nat) : (r.decideGroup P c g).fltr = r.fltr := rfl
@[simp] theorem Rx.decideGroup_flta (P : Params) (c : Cfg) (r : Rx) (g : Nat) : (r.decideGroup P c g).flta = r.flta := rfl
@[simp] theorem Rx.decideGroup_rxdata (P : Params) (c : Cfg) (r : Rx) (g : Nat) : (r.decideGroup P c g).rxdata = r.rxdata := rfl
@[simp] theorem Rx.decideGroup_rxlen (P : Params) (c : Cfg) (r : Rx) (g : Nat) : (r.decideGroup P c g).rxlen = r.rxlen := rfl
@[simp] theorem Rx.decideGroup_rxt (P : Params) (c : Cfg) (r : Rx) (g : Nat) : (r.decideGroup P c g).rxt = r.rxt := rfl
@[simp] theorem Rx.decideGroup_rxtSum (P : Params) (c : Cfg) (r : Rx) (g : Nat) : (r.decideGroup P c g).rxtSum = r.rxtSum := rfl
@[simp] theorem Rx.decideGroup_rxcount (P : Params) (c : Cfg) (r : Rx) (g : Nat) : (r.decideGroup P c g).rxcount = r.rxcount := rfl
@[simp] theorem Rx.decideGroup_tbc (P : Params) (c : Cfg) (r : Rx) (g : Nat) : (r.decideGroup P c g).tbc = r.tbc := rfl
@[simp] theorem Rx.commit_samp (r : Rx) (m : List Byte) (l : Nat) : (r.commit m l).samp = r.samp := rfl
@[simp] theorem Rx.commit_spec (r : Rx) (m : List Byte) (l : Nat) : (r.commit m l).spec = r.spec := rfl
@[simp] theorem Rx.commit_hist (r : Rx) (m : List Byte) (l : Nat) : (r.commit m l).hist = r.hist := rfl
@[simp] theorem Rx.commit_hid (r : Rx) (m : List Byte) (l : Nat) : (r.commit m l).hid = r.hid := rfl
@[simp] theorem Rx.commit_hcount (r : Rx) (m : List Byte) (l : Nat) : (r.commit m l).hcount = r.hcount := rfl
@[simp] theorem Rx.commit_rxstate (r : Rx) (m : List Byte) (l : Nat) : (r.commit m l).rxstate = r.rxstate := rfl
@[simp] theorem Rx.commit_run (r : Rx) (m : List Byte) (l : Nat) : (r.commit m l).run = r.run := rfl
@[simp] theorem Rx.commit_recMem (r : Rx) (m : List Byte) (l : Nat) : (r.commit m l).recMem = r.recMem := rfl
@[simp] theorem Rx.commit_recf (r : Rx) (m : List Byte) (l : Nat) : (r.commit m l).recf = r.recf := rfl
@[simp] theorem Rx.commit_acc (r : Rx) (m : List Byte) (l : Nat) : (r.commit m l).acc = r.acc := rfl
@[simp] theorem Rx.commit_facc (r : Rx) (m : List Byte) (l : Nat) : (r.commit m l).facc = r.facc := rfl
@[simp] theorem Rx.commit_fltr (r : Rx) (m : List Byte) (l : Nat) : (r.commit m l).fltr = r.fltr := rfl
@[simp] theorem Rx.commit_flta (r : Rx) (m : List Byte) (l : Nat) : (r.commit m l).flta = r.flta := rfl
@[simp] theorem Rx.commit_rxraw (r : Rx) (m : List Byte) (l : Nat) : (r.commit m l).rxraw = r.rxraw := rfl
@[simp] theorem Rx.commit_rxdata (r : Rx) (m : List Byte) (l : Nat) : (r.commit m l).rxdata = Memory.fill Space.rxdata (m.take l) := rfl
@[simp] theorem Rx.commit_rxlen (r : Rx) (m : List Byte) (l : Nat) : (r.commit m l).rxlen = BitVec.ofNat 8 l := rfl
@[simp] theorem Rx.commit_rxt (r : Rx) (m : List Byte) (l : Nat) : (r.commit m l).rxt = r.rxt := rfl
@[simp] theorem Rx.commit_rxtSum (r : Rx) (m : List Byte) (l : Nat) : (r.commit m l).rxtSum = r.rxtSum + r.rxt.setWidth 64 := rfl
@[simp] theorem Rx.commit_rxcount (r : Rx) (m : List Byte) (l : Nat) : (r.commit m l).rxcount = r.rxcount + 1 := rfl
@[simp] theorem Rx.commit_tbc (r : Rx) (m : List Byte) (l : Nat) : (r.commit m l).tbc = r.tbc := rfl
@[simp] theorem Rx.toListening_samp (r : Rx) : (r.toListening).samp = r.samp := rfl
@[simp] theorem Rx.toListening_spec (r : Rx) : (r.toListening).spec = r.spec := rfl
@[simp] theorem Rx.toListening_hist (r : Rx) : (r.toListening).hist = r.hist := rfl
@[simp] theorem Rx.toListening_hid (r : Rx) : (r.toListening).hid = r.hid := rfl
@[simp] theorem Rx.toListening_hcount (r : Rx) : (r.toListening).hcount = r.hcount := rfl
@[simp] theorem Rx.toListening_rxstate (r : Rx) : (r.toListening).rxstate = .listening := rfl
@[simp] theorem Rx.toListening_run (r : Rx) : (r.toListening).run = 0 := rfl
@[simp] theorem Rx.toListening_recMem (r : Rx) : (r.toListening).recMem = r.recMem := rfl
@[simp] theorem Rx.toListening_recf (r : Rx) : (r.toListening).recf = r.recf := rfl
@[simp] theorem Rx.toListening_acc (r : Rx) : (r.toListening).acc = r.acc := rfl
@[simp] theorem Rx.toListening_facc (r : Rx) : (r.toListening).facc = r.facc := rfl
@[simp] theorem Rx.toListening_fltr (r : Rx) : (r.toListening).fltr = r.fltr := rfl
@[simp] theorem Rx.toListening_flta (r : Rx) : (r.toListening).flta = r.flta := rfl
@[simp] theorem Rx.toListening_rxraw (r : Rx) : (r.toListening).rxraw = r.rxraw := rfl
@[simp] theorem Rx.toListening_rxdata (r : Rx) : (r.toListening).rxdata = r.rxdata := rfl
@[simp] theorem Rx.toListening_rxlen (r : Rx) : (r.toListening).rxlen = r.rxlen := rfl
@[simp] theorem Rx.toListening_rxt (r : Rx) : (r.toListening).rxt = r.rxt := rfl
@[simp] theorem Rx.toListening_rxtSum (r : Rx) : (r.toListening).rxtSum = r.rxtSum := rfl
@[simp] theorem Rx.toListening_rxcount (r : Rx) : (r.toListening).rxcount = r.rxcount := rfl
@[simp] theorem Rx.toListening_tbc (r : Rx) : (r.toListening).tbc = r.tbc := rfl
@[simp] theorem Rx.capture_samp (r : Rx) (a : Answer) : (r.capture a).samp = zeroPad a := by simp only [Rx.capture, Rx.historyPush]
@[simp] theorem Rx.capture_spec (r : Rx) (a : Answer) : (r.capture a).spec = spectrum (zeroPad a) := by simp only [Rx.capture, Rx.historyPush]
@[simp] theorem Rx.capture_hist (r : Rx) (a : Answer) : (r.capture a).hist = r.hist.setIfInBounds r.hid.toNat (spectrum (zeroPad a)) := by simp only [Rx.capture, Rx.historyPush]
@[simp] theorem Rx.capture_hid (r : Rx) (a : Answer) : (r.capture a).hid = r.hid + 1 := by simp only [Rx.capture, Rx.historyPush]
@[simp] theorem Rx.capture_hcount (r : Rx) (a : Answer) : (r.capture a).hcount = BitVec.ofNat 3 (min (r.hcount.toNat + 1) Config.maxHistory) := by simp only [Rx.capture, Rx.historyPush]
@[simp] theorem Rx.capture_rxstate (r : Rx) (a : Answer) : (r.capture a).rxstate = r.rxstate := by simp only [Rx.capture, Rx.historyPush]
@[simp] theorem Rx.capture_run (r : Rx) (a : Answer) : (r.capture a).run = r.run := by simp only [Rx.capture, Rx.historyPush]
@[simp] theorem Rx.capture_recMem (r : Rx) (a : Answer) : (r.capture a).recMem = r.recMem := by simp only [Rx.capture, Rx.historyPush]
@[simp] theorem Rx.capture_recf (r : Rx) (a : Answer) : (r.capture a).recf = r.recf := by simp only [Rx.capture, Rx.historyPush]
@[simp] theorem Rx.capture_acc (r : Rx) (a : Answer) : (r.capture a).acc = r.acc := by simp only [Rx.capture, Rx.historyPush]
@[simp] theorem Rx.capture_facc (r : Rx) (a : Answer) : (r.capture a).facc = r.facc := by simp only [Rx.capture, Rx.historyPush]
@[simp] theorem Rx.capture_fltr (r : Rx) (a : Answer) : (r.capture a).fltr = r.fltr := by simp only [Rx.capture, Rx.historyPush]
@[simp] theorem Rx.capture_flta (r : Rx) (a : Answer) : (r.capture a).flta = r.flta := by simp only [Rx.capture, Rx.historyPush]
@[simp] theorem Rx.capture_rxraw (r : Rx) (a : Answer) : (r.capture a).rxraw = r.rxraw := by simp only [Rx.capture, Rx.historyPush]
@[simp] theorem Rx.capture_rxdata (r : Rx) (a : Answer) : (r.capture a).rxdata = r.rxdata := by simp only [Rx.capture, Rx.historyPush]
@[simp] theorem Rx.capture_rxlen (r : Rx) (a : Answer) : (r.capture a).rxlen = r.rxlen := by simp only [Rx.capture, Rx.historyPush]
@[simp] theorem Rx.capture_rxt (r : Rx) (a : Answer) : (r.capture a).rxt = r.rxt := by simp only [Rx.capture, Rx.historyPush]
@[simp] theorem Rx.capture_rxtSum (r : Rx) (a : Answer) : (r.capture a).rxtSum = r.rxtSum := by simp only [Rx.capture, Rx.historyPush]
@[simp] theorem Rx.capture_rxcount (r : Rx) (a : Answer) : (r.capture a).rxcount = r.rxcount := by simp only [Rx.capture, Rx.historyPush]
@[simp] theorem Rx.capture_tbc (r : Rx) (a : Answer) : (r.capture a).tbc = r.tbc + BitVec.ofNat 32 (Config.sampleBytesIn * a.count.val) := by simp only [Rx.capture, Rx.historyPush]

end Sys2Proof.Machine
end

