-- ==== Sys2Proof/Laws/Memory.lean ====
section
/-! SUPPORT. The laws of the internal memories: what a read sees after a write, and that every operation keeps the canonical
form (spec/20_memory.md R60, R61). -/

namespace Sys2Proof.Machine.Memory

variable {α : Type} [DecidableEq α] (sp : Space α)

omit [DecidableEq α] in
@[simp] theorem read_nil (a : Nat) : read sp [] a = sp.unlisted := rfl

omit [DecidableEq α] in
/-- Indices below every listed one read as unlisted. -/
theorem read_of_lt {m : List (Nat × α)} {a : Nat} (h : ∀ c ∈ m, a < c.1) : read sp m a = sp.unlisted := by
  induction m with
  | nil => rfl
  | cons c m ih =>
    obtain ⟨b, w⟩ := c
    have hb : a < b := h (b, w) (by simp)
    have : a ≠ b := by omega
    simp only [read, this, if_false]
    exact ih fun c hc => h c (by simp [hc])

/-- Read after insert, on a rising list. -/
theorem read_insert {m : List (Nat × α)} (hm : m.Pairwise fun c c' => c.1 < c'.1) (a b : Nat) (v : α) :
    read sp (insert sp m a v) b = if b = a then v else read sp m b := by
  induction m with
  | nil =>
    by_cases hv : v = sp.unlisted <;> simp [insert, hv, read]
  | cons c m ih =>
    obtain ⟨k, w⟩ := c
    obtain ⟨hk, hm⟩ := List.pairwise_cons.1 hm
    have low : ∀ b, b ≤ k → read sp m b = sp.unlisted := fun b hb => read_of_lt sp fun c hc => by
      have := hk c hc
      simp only at this
      omega
    rcases lt_trichotomy a k with h | h | h
    · have hak : a ≠ k := by omega
      by_cases hb : b = a
      · subst hb
        by_cases hv : v = sp.unlisted <;> simp [insert, h, hv, read, hak, low b (by omega)]
      · by_cases hv : v = sp.unlisted <;> simp [insert, h, hv, read, hb]
    · subst h
      by_cases hb : b = a
      · subst hb
        by_cases hv : v = sp.unlisted <;> simp [insert, hv, read, low b (by omega)]
      · by_cases hv : v = sp.unlisted <;> simp [insert, hv, read, hb]
    · have h1 : ¬ a < k := by omega
      have h2 : ¬ a = k := by omega
      simp only [insert, h1, h2, if_false, read, ih hm]
      by_cases hb : b = k
      · simp [hb, Ne.symm h2]
      · simp [hb]

/-- Everything listed after an insert is the inserted element or was listed before. -/
theorem mem_insert {m : List (Nat × α)} {a : Nat} {v : α} {c : Nat × α} (h : c ∈ insert sp m a v) :
    (c = (a, v) ∧ v ≠ sp.unlisted) ∨ c ∈ m := by
  induction m with
  | nil =>
    simp only [insert] at h
    split_ifs at h with hv
    · simp at h
    · exact .inl ⟨by simpa using h, hv⟩
  | cons k m ih =>
    obtain ⟨k, w⟩ := k
    rcases lt_trichotomy a k with hk | hk | hk
    · by_cases hv : v = sp.unlisted
      · exact .inr (by simpa [insert, hk, hv] using h)
      · rcases List.mem_cons.1 (by simpa only [insert, hk, hv, if_true, if_false] using h) with h | h
        · exact .inl ⟨h, hv⟩
        · exact .inr h
    · subst hk
      by_cases hv : v = sp.unlisted
      · exact .inr (List.mem_cons_of_mem _ (by simpa [insert, hv] using h))
      · rcases List.mem_cons.1 (by simpa [insert, hv] using h) with h | h
        · exact .inl ⟨h, hv⟩
        · exact .inr (List.mem_cons_of_mem _ h)
    · have h1 : ¬ a < k := by omega
      have h2 : ¬ a = k := by omega
      rcases List.mem_cons.1 (by simpa only [insert, h1, h2, if_false] using h) with h | h
      · exact .inr (by simp [h])
      · rcases ih h with h | h
        · exact .inl h
        · exact .inr (List.mem_cons_of_mem _ h)

theorem pairwise_insert {m : List (Nat × α)} (hm : m.Pairwise fun c c' => c.1 < c'.1) (a : Nat) (v : α) :
    (insert sp m a v).Pairwise fun c c' => c.1 < c'.1 := by
  induction m with
  | nil => simp only [insert]; split_ifs <;> simp
  | cons k m ih =>
    obtain ⟨k, w⟩ := k
    obtain ⟨hk, hm'⟩ := List.pairwise_cons.1 hm
    rcases lt_trichotomy a k with h | h | h
    · by_cases hv : v = sp.unlisted
      · simpa [insert, h, hv] using hm
      · simp only [insert, h, hv, if_true, if_false]
        refine List.pairwise_cons.2 ⟨fun c hc => ?_, hm⟩
        rcases List.mem_cons.1 hc with rfl | hc
        · exact h
        · exact lt_trans h (hk c hc)
    · subst h
      by_cases hv : v = sp.unlisted
      · simpa [insert, hv] using hm'
      · simp only [insert, hv, lt_irrefl, if_true, if_false]
        exact List.pairwise_cons.2 ⟨hk, hm'⟩
    · have h1 : ¬ a < k := by omega
      have h2 : ¬ a = k := by omega
      simp only [insert, h1, h2, if_false]
      refine List.pairwise_cons.2 ⟨fun c hc => ?_, ih hm'⟩
      rcases mem_insert sp hc with ⟨rfl, -⟩ | hc
      · exact h
      · exact hk c hc

/-- The empty memory is canonical. -/
theorem wf_nil : wf sp ([] : List (Nat × α)) := by simp [wf]

/-- A write keeps the canonical form. -/
theorem wf_write {m : List (Nat × α)} (hm : wf sp m) (a : Nat) (v : α) : wf sp (write sp m a v) := by
  unfold write
  split_ifs with h
  · refine ⟨pairwise_insert sp hm.1 a v, fun c hc => ?_⟩
    rcases mem_insert sp hc with ⟨rfl, hv⟩ | hc
    · exact ⟨h, hv⟩
    · exact hm.2 c hc
  · exact hm

/-- A read after a write sees the value written, and every other element as before. -/
theorem read_write {m : List (Nat × α)} (hm : wf sp m) (a b : Nat) (v : α) :
    read sp (write sp m a v) b = if b = a ∧ a < sp.size then v else read sp m b := by
  unfold write
  split_ifs with h h1 h1
  · rw [read_insert sp hm.1, if_pos h1.1]
  · rw [read_insert sp hm.1, if_neg (by tauto)]
  · exact absurd h1.2 h
  · rfl

theorem wf_writeN {vs : List α} {m : List (Nat × α)} (hm : wf sp m) (a : Nat) : wf sp (writeN sp m a vs) := by
  induction vs generalizing m a with
  | nil => exact hm
  | cons v vs ih => exact ih (wf_write sp hm a v) (a + 1)

/-- MemWrite: the elements a.. hold the list, every other element is as before. -/
theorem read_writeN {vs : List α} {m : List (Nat × α)} (hm : wf sp m) (a b : Nat) (hsz : a + vs.length ≤ sp.size) :
    read sp (writeN sp m a vs) b = if h : a ≤ b ∧ b < a + vs.length then vs[b - a]'(by omega) else read sp m b := by
  induction vs generalizing m a with
  | nil =>
    have : ¬ (a ≤ b ∧ b < a) := by omega
    simp [writeN]
  | cons v vs ih =>
    simp only [List.length_cons] at hsz
    rw [writeN, ih (wf_write sp hm a v) (a + 1) (by omega), read_write sp hm]
    by_cases hb : b = a
    · subst hb
      have : b < sp.size := by omega
      simp [this]
    · by_cases h : a ≤ b ∧ b < a + (v :: vs).length
      · have h' : a + 1 ≤ b ∧ b < a + 1 + vs.length := by simp at h; omega
        obtain ⟨d, rfl⟩ : ∃ d, b = a + 1 + d := ⟨b - a - 1, by omega⟩
        have e : a + 1 + d - a = d + 1 := by omega
        rw [dif_pos h, dif_pos h']
        simp [e]
      · have h' : ¬ (a + 1 ≤ b ∧ b < a + 1 + vs.length) := by simp at h; omega
        rw [dif_neg h, dif_neg h', if_neg (by tauto)]

theorem wf_fill (vs : List α) : wf sp (fill sp vs) := wf_writeN sp (wf_nil sp) 0

/-- A filled space reads as the list, then as unlisted. -/
theorem read_fill {vs : List α} (h : vs.length ≤ sp.size) (b : Nat) :
    read sp (fill sp vs) b = vs.getD b sp.unlisted := by
  rw [fill, read_writeN sp (wf_nil sp) 0 b (by omega)]
  by_cases hb : b < vs.length <;> simp [hb]

omit [DecidableEq α] in
@[simp] theorem length_readN (m : List (Nat × α)) (a n : Nat) : (readN sp m a n).length = n := by simp [readN]

omit [DecidableEq α] in
theorem getElem_readN (m : List (Nat × α)) (a n i : Nat) (h : i < (readN sp m a n).length) :
    (readN sp m a n)[i] = read sp m (a + i) := by simp [readN]

/-- Setting a bit keeps the canonical form. -/
theorem wf_setBit {sp : Space Byte} {m : ByteMem} (hm : wf sp m) (a i : Nat) : wf sp (setBit sp m a i) :=
  wf_write sp hm a _

/-- Setting bit i of byte a: that bit reads 1, every other bit of every byte as before. -/
theorem getLsbD_read_setBit {sp : Space Byte} {m : ByteMem} (hm : wf sp m) (a b i j : Nat) (hi : i < 8) (ha : a < sp.size) :
    (read sp (setBit sp m a i) b).getLsbD j = ((b == a && j == i) || (read sp m b).getLsbD j) := by
  rw [setBit, read_write sp hm]
  by_cases hb : b = a
  · subst hb
    have : (BitVec.ofNat 8 (2 ^ i)).getLsbD j = decide (j = i) := by
      rw [BitVec.getLsbD_ofNat, Nat.testBit_two_pow]
      by_cases h : i = j
      · subst h; simp [hi]
      · have h' : ¬ j = i := fun e => h e.symm
        simp [h, h']
    simp only [ha, and_self, if_true, BitVec.getLsbD_or, this, beq_self_eq_true, Bool.true_and]
    rw [Bool.or_comm]
    rfl
  · simp [hb]

end Sys2Proof.Machine.Memory
end

