-- ==== Sys2Proof/Laws/PerInstr.lean ====
section
/-! SUPPORT. The family RoundTrip: the decoder reads back each encoded command, with every operand at every value its field
admits (spec/30_encoding.md R92, R93 to R100); one lemma per constructor of Instr. -/

namespace Sys2Proof.Laws.RoundTrip

/-- The decoder reads i from the word of i. -/
def Statement (i : Instr) : Prop := decode (encode i) = .ok i

theorem setparam (fd : BitVec 8) (fs : BitVec 10) (fpt : BitVec 4) (bpt : BitVec 6) (vol : BitVec 7) :
    Statement (.setparam fd fs fpt bpt vol) := by
  have hw := toNat_encode_setparam fd fs fpt bpt vol
  unfold Statement
  generalize encode (.setparam fd fs fpt bpt vol) = w at hw
  have ho : opcodeOf w = 0x01#8 := by rw [opcodeOf_eq_iff, hw, BitVec.toNat_ofNat]; omega
  have hr : w.extractLsb' 0 21 = 0#21 := by rw [extract_eq_iff, hw, BitVec.toNat_ofNat]; omega
  have h1 : w.extractLsb' 48 8 = fd := by rw [extract_eq_iff, hw]; omega
  have h2 : w.extractLsb' 38 10 = fs := by rw [extract_eq_iff, hw]; omega
  have h3 : w.extractLsb' 34 4 = fpt := by rw [extract_eq_iff, hw]; omega
  have h4 : w.extractLsb' 28 6 = bpt := by rw [extract_eq_iff, hw]; omega
  have h5 : w.extractLsb' 21 7 = vol := by rw [extract_eq_iff, hw]; omega
  simp only [decode, ho, if_true, hr, h1, h2, h3, h4, h5, ifReservedZero_zero]

theorem setmode (m : BitVec 1) : Statement (.setmode m) := by
  have hw := toNat_encode_setmode m
  unfold Statement
  generalize encode (.setmode m) = w at hw
  have ho : opcodeOf w = 0x02#8 := by rw [opcodeOf_eq_iff, hw, BitVec.toNat_ofNat]; omega
  have hr : w.extractLsb' 1 55 = 0#55 := by rw [extract_eq_iff, hw, BitVec.toNat_ofNat]; omega
  have h1 : w.extractLsb' 0 1 = m := by rw [extract_eq_iff, hw]; omega
  simp [decode, ho, hr, h1, ifReservedZero_zero]

theorem setecc (e : BitVec 7) : Statement (.setecc e) := by
  have hw := toNat_encode_setecc e
  unfold Statement
  generalize encode (.setecc e) = w at hw
  have ho : opcodeOf w = 0x03#8 := by rw [opcodeOf_eq_iff, hw, BitVec.toNat_ofNat]; omega
  have hr : w.extractLsb' 7 49 = 0#49 := by rw [extract_eq_iff, hw, BitVec.toNat_ofNat]; omega
  have h1 : w.extractLsb' 0 7 = e := by rw [extract_eq_iff, hw]; omega
  simp [decode, ho, hr, h1, ifReservedZero_zero]

theorem setrate (rin rout : BitVec 24) : Statement (.setrate rin rout) := by
  have hw := toNat_encode_setrate rin rout
  unfold Statement
  generalize encode (.setrate rin rout) = w at hw
  have ho : opcodeOf w = 0x04#8 := by rw [opcodeOf_eq_iff, hw, BitVec.toNat_ofNat]; omega
  have hr : w.extractLsb' 0 8 = 0#8 := by rw [extract_eq_iff, hw, BitVec.toNat_ofNat]; omega
  have h1 : w.extractLsb' 32 24 = rin := by rw [extract_eq_iff, hw]; omega
  have h2 : w.extractLsb' 8 24 = rout := by rw [extract_eq_iff, hw]; omega
  simp [decode, ho, hr, h1, h2, ifReservedZero_zero]

theorem wtxb (idx data : BitVec 8) : Statement (.wtxb idx data) := by
  have hw := toNat_encode_wtxb idx data
  unfold Statement
  generalize encode (.wtxb idx data) = w at hw
  have ho : opcodeOf w = 0x08#8 := by rw [opcodeOf_eq_iff, hw, BitVec.toNat_ofNat]; omega
  have hr : w.extractLsb' 16 40 = 0#40 := by rw [extract_eq_iff, hw, BitVec.toNat_ofNat]; omega
  have h1 : w.extractLsb' 8 8 = idx := by rw [extract_eq_iff, hw]; omega
  have h2 : w.extractLsb' 0 8 = data := by rw [extract_eq_iff, hw]; omega
  simp [decode, ho, hr, h1, h2, ifReservedZero_zero]

theorem init (len : BitVec 8) : Statement (.init len) := by
  have hw := toNat_encode_init len
  unfold Statement
  generalize encode (.init len) = w at hw
  have ho : opcodeOf w = 0x09#8 := by rw [opcodeOf_eq_iff, hw, BitVec.toNat_ofNat]; omega
  have hr : w.extractLsb' 8 48 = 0#48 := by rw [extract_eq_iff, hw, BitVec.toNat_ofNat]; omega
  have h1 : w.extractLsb' 0 8 = len := by rw [extract_eq_iff, hw]; omega
  simp [decode, ho, hr, h1, ifReservedZero_zero]

theorem rdrx (idx : BitVec 8) : Statement (.rdrx idx) := by
  have hw := toNat_encode_rdrx idx
  unfold Statement
  generalize encode (.rdrx idx) = w at hw
  have ho : opcodeOf w = 0x11#8 := by rw [opcodeOf_eq_iff, hw, BitVec.toNat_ofNat]; omega
  have hr : w.extractLsb' 8 48 = 0#48 := by rw [extract_eq_iff, hw, BitVec.toNat_ofNat]; omega
  have h1 : w.extractLsb' 0 8 = idx := by rw [extract_eq_iff, hw]; omega
  simp [decode, ho, hr, h1, ifReservedZero_zero]

theorem send : Statement .send := by simp [Statement, encode, decode]
theorem receive : Statement .receive := by simp [Statement, encode, decode]
theorem getrxlen : Statement .getrxlen := by simp [Statement, encode, decode]
theorem gethasdata : Statement .gethasdata := by simp [Statement, encode, decode]
theorem getavgrxt : Statement .getavgrxt := by simp [Statement, encode, decode]
theorem getftr : Statement .getftr := by simp [Statement, encode, decode]
theorem getfltr : Statement .getfltr := by simp [Statement, encode, decode]
theorem getfta : Statement .getfta := by simp [Statement, encode, decode]
theorem getflta : Statement .getflta := by simp [Statement, encode, decode]
theorem gettbc : Statement .gettbc := by simp [Statement, encode, decode]
theorem getrxstate : Statement .getrxstate := by simp [Statement, encode, decode]
theorem getratein : Statement .getratein := by simp [Statement, encode, decode]
theorem getrateout : Statement .getrateout := by simp [Statement, encode, decode]
theorem getspf : Statement .getspf := by simp [Statement, encode, decode]
theorem getssbin : Statement .getssbin := by simp [Statement, encode, decode]
theorem getssbout : Statement .getssbout := by simp [Statement, encode, decode]

end Sys2Proof.Laws.RoundTrip
end

