-- ==== Sys2Proof/Laws/Receive.lean ====
section
/-! SUPPORT. What the operations of a RECEIVE tick can do, one lemma per operation, and that each keeps the Rx part of the
invariant (spec/42_rx.md R200 to R229). -/

namespace Sys2Proof.Machine

/-! ### Vectors and counters -/

theorem elem_of_lt {α : Type} {n : Nat} (v : Vector α n) (d : α) {i : Nat} (h : i < n) : elem v d i = v.get ⟨i, h⟩ := by
  simp [elem, h, Vector.get_eq_getElem]

theorem elem_of_ge {α : Type} {n : Nat} (v : Vector α n) (d : α) {i : Nat} (h : n ≤ i) : elem v d i = d := by
  simp [elem, Nat.not_lt.2 h]

@[simp] theorem get_replicate_zero {n : Nat} (k : Fin n) : (Vector.replicate n Mag.zero).get k = .zero := by
  simp [Vector.get_eq_getElem]

/-- A saturating counter (10_state.md R42, R49). -/
theorem toNat_satInc {w : Nat} (v : BitVec w) : (satInc v).toNat = min (v.toNat + 1) (2 ^ w - 1) := by
  have := Nat.two_pow_pos w
  rw [satInc, BitVec.toNat_ofNat, Nat.mod_eq_of_lt (by omega)]

theorem toNat_hcount {v : BitVec 3} : (BitVec.ofNat 3 (min (v.toNat + 1) Config.maxHistory)).toNat = min (v.toNat + 1) 4 := by
  rw [BitVec.toNat_ofNat, Nat.mod_eq_of_lt (by simp only [Config.maxHistory]; omega)]

theorem toNat_sub_one {w : Nat} (hw : 1 ≤ w) {v : BitVec w} (h : 1 ≤ v.toNat) : (v - 1).toNat = v.toNat - 1 := by
  have h1 : (1 : BitVec w).toNat = 1 := by
    simp [BitVec.toNat_ofNat]; omega
  have := v.isLt
  rw [BitVec.toNat_sub, h1]
  have e : 2 ^ w - 1 + v.toNat = 2 ^ w + (v.toNat - 1) := by omega
  rw [e, Nat.add_mod_left, Nat.mod_eq_of_lt (by omega)]

theorem eq_zero_iff_toNat {w : Nat} (v : BitVec w) : v = 0 ↔ v.toNat = 0 := by
  rw [← BitVec.toNat_inj]; simp

/-! ### The floor -/

/-- AVG by value (10_state.md R53). -/
theorem Rx.val_avg (P : Params) {r : Rx} (h : r.hcount.toNat ≤ 4) (b : Nat) : P.val (r.avg b) =
    if r.hcount = 0 then 0 else 1 / (r.hcount.toNat : ℝ) * ∑ i ∈ Finset.range r.hcount.toNat, P.val (r.histAt i b) := by
  unfold Rx.avg
  split
  · rfl
  · rw [Params.val_scale, val_sumMag, min_eq_left h, Nat.cast_one]

/-- The floor by value (R206). -/
theorem Rx.val_floor (P : Params) (r : Rx) : P.val r.floor = 1 / 511 * ∑ i ∈ Finset.range 511, P.val (r.avg (i + 1)) := by
  unfold Rx.floor
  rw [Params.val_scale, val_sumMag]
  norm_num

/-- The floor is no greater than the mean over bins 1..511 of a bound on the history's magnitudes, bin by bin. -/
theorem Rx.floor_le (P : Params) {r : Rx} {B : Nat → ℝ} (h0 : ∀ b, 0 ≤ B b) (h : ∀ i b, P.val (r.histAt i b) ≤ B b) :
    P.val r.floor ≤ 1 / 511 * ∑ i ∈ Finset.range 511, B (i + 1) := by
  have havg : ∀ b, P.val (r.avg b) ≤ B b := by
    intro b
    unfold Rx.avg
    split
    · exact h0 b
    · rename_i hne
      have hpos : (0 : ℝ) < r.hcount.toNat := by
        rw [eq_zero_iff_toNat] at hne
        exact_mod_cast Nat.pos_of_ne_zero hne
      have h1 : P.val (sumMag (min r.hcount.toNat Config.maxHistory) (fun i => r.histAt i b)) ≤ r.hcount.toNat * B b := by
        rw [val_sumMag]
        refine (Finset.sum_le_card_nsmul _ _ (B b) fun i _ => h i b).trans ?_
        rw [Finset.card_range, nsmul_eq_mul]
        exact mul_le_mul_of_nonneg_right (by exact_mod_cast Nat.min_le_left _ _) (h0 b)
      rw [Params.val_scale, Nat.cast_one, one_div, inv_mul_le_iff₀ hpos]
      exact h1
  rw [Rx.val_floor]
  exact mul_le_mul_of_nonneg_left (Finset.sum_le_sum fun i _ => havg _) (by norm_num)

/-- The histories of two receivers that agree on the written slots of bins 1..511 have the same floor. -/
theorem Rx.floor_congr (P : Params) {r r' : Rx} (h4 : r.hcount.toNat ≤ 4) (hc : r'.hcount = r.hcount)
    (h : ∀ i < r.hcount.toNat, ∀ b, 1 ≤ b → b ≤ 511 → P.val (r'.histAt i b) = P.val (r.histAt i b)) :
    P.val r'.floor = P.val r.floor := by
  have havg : ∀ b, 1 ≤ b → b ≤ 511 → P.val (r'.avg b) = P.val (r.avg b) := by
    intro b h1 h2
    rw [Rx.val_avg P h4, Rx.val_avg P (by rw [hc]; exact h4), hc]
    split
    · rfl
    · rw [Finset.sum_congr rfl fun i hi => h i (Finset.mem_range.1 hi) b h1 h2]
  rw [Rx.val_floor, Rx.val_floor, Finset.sum_congr rfl fun i hi => havg (i + 1) (by omega) (Finset.mem_range.1 hi)]

/-! ### Capture -/

theorem get_historyPush_hist (r : Rx) (S : Spectrum) (h : Fin 4) :
    (r.historyPush S).hist.get h = if h.val = r.hid.toNat then S else r.hist.get h := by
  simp only [Rx.historyPush_hist, Vector.get_eq_getElem, Vector.getElem_setIfInBounds]
  split <;> split <;> first | rfl | omega

theorem get_zeroPad (a : Answer) (n : Fin 1024) :
    (zeroPad a).get n = if n.val < a.count.val then a.samples.get n else 0 := by
  simp only [zeroPad, Vector.get_ofFn]

/-- The capture writes only TBC, SAMP, SPEC and the history (R200, R202, R205, R207). -/
theorem Rx.capture_rest (r : Rx) (a : Answer) : r.capture a =
    { r with tbc := (r.capture a).tbc, samp := (r.capture a).samp, spec := (r.capture a).spec,
             hist := (r.capture a).hist, hid := (r.capture a).hid, hcount := (r.capture a).hcount } := rfl

/-! ### The recording -/

/-- What RecordRow(i, FL) writes (R214). -/
structure Rx.RecordSays (c : Cfg) (r : Rx) (i : Nat) (fl : Mag) (r' : Rx) : Prop where
  row : ∀ k : Fin 256, (Memory.read Space.recMem r'.recMem i).get k =
    if k.val < c.ndb then elem r.spec .zero (c.db k.val) else (Memory.read Space.recMem r.recMem i).get k
  floor : Memory.read Space.recf r'.recf i = fl
  others : ∀ j, j ≠ i → Memory.read Space.recMem r'.recMem j = Memory.read Space.recMem r.recMem j ∧
    Memory.read Space.recf r'.recf j = Memory.read Space.recf r.recf j
  wfRec : Memory.wf Space.recMem r'.recMem
  wfRecf : Memory.wf Space.recf r'.recf
  rest : r' = { r with recMem := r'.recMem, recf := r'.recf }

theorem Rx.recordRow_says (c : Cfg) {r : Rx} (h1 : Memory.wf Space.recMem r.recMem) (h2 : Memory.wf Space.recf r.recf) {i : Nat}
    (hi : i < 4096) (fl : Mag) : Rx.RecordSays c r i fl (r.recordRow c i fl) := by
  constructor
  · intro k
    simp only [Rx.recordRow]
    rw [Memory.read_write _ h1, if_pos ⟨rfl, hi⟩, Vector.get_ofFn]
  · simp only [Rx.recordRow]
    rw [Memory.read_write _ h2, if_pos ⟨rfl, hi⟩]
  · intro j hj
    simp only [Rx.recordRow]
    rw [Memory.read_write _ h1, Memory.read_write _ h2, if_neg (by tauto), if_neg (by tauto)]
    exact ⟨rfl, rfl⟩
  · exact Memory.wf_write _ h1 _ _
  · exact Memory.wf_write _ h2 _ _
  · simp only [Rx.recordRow]

/-! ### The symbol decision -/

/-- Setting a list of bits: each is 1 afterwards, every other bit is as before. -/
theorem foldl_setBit (sp : Space Byte) (p : Nat → Bool) (f g : Nat → Nat) (hf : ∀ k, f k < sp.size) (hg : ∀ k, g k < 8)
    (l : List Nat) {m : ByteMem} (hm : Memory.wf sp m) :
    Memory.wf sp (l.foldl (fun m k => if p k then Memory.setBit sp m (f k) (g k) else m) m) ∧
    ∀ b j, (Memory.read sp (l.foldl (fun m k => if p k then Memory.setBit sp m (f k) (g k) else m) m) b).getLsbD j =
      ((l.any fun k => p k && (b == f k) && (j == g k)) || (Memory.read sp m b).getLsbD j) := by
  induction l generalizing m with
  | nil => exact ⟨hm, fun b j => by simp⟩
  | cons k l ih =>
    simp only [List.foldl_cons, List.any_cons]
    cases hp : p k with
    | false => simpa using ih hm
    | true =>
      obtain ⟨h1, h2⟩ := ih (Memory.wf_setBit (sp := sp) hm (f k) (g k))
      refine ⟨by simpa using h1, fun b j => ?_⟩
      have h3 := h2 b j
      rw [Memory.getLsbD_read_setBit hm _ _ _ _ (hg k) (hf k)] at h3
      simp only [if_true, Bool.true_and]
      rw [h3]
      cases (b == f k && j == g k) <;> cases (l.any fun k => p k && (b == f k) && (j == g k)) <;> rfl

theorem wf_decideGroup (P : Params) (c : Cfg) {r : Rx} (h : Memory.wf Space.rxraw r.rxraw) (g : Nat) :
    Memory.wf Space.rxraw (r.decideGroup P c g).rxraw := by
  have : ∀ l : List Nat, ∀ m, Memory.wf Space.rxraw m → Memory.wf Space.rxraw (l.foldl
      (fun m k => if r.decideBit P k then Memory.setBit Space.rxraw m (g * c.bpt.toNat + k / 8) (k % 8) else m) m) := by
    intro l
    induction l with
    | nil => exact fun m hm => hm
    | cons k l ih =>
      intro m hm
      rw [List.foldl_cons]
      apply ih
      split
      · exact Memory.wf_setBit hm _ _
      · exact hm
  exact this _ _ h

/-- The decisions of group g: bit j of byte g x BPT + i is also set where slot 8i + j is decided 1; no other bit changes
(R224). -/
theorem read_decideGroup {P : Params} {c : Cfg} {r : Rx} (hm : Memory.wf Space.rxraw r.rxraw) {g : Nat} (hg : (g + 1) * c.bpt.toNat ≤ 256)
    (b : Nat) {j : Nat} (hj : j < 8) :
    (Memory.read Space.rxraw (r.decideGroup P c g).rxraw b).getLsbD j =
      (decide (g * c.bpt.toNat ≤ b ∧ b < (g + 1) * c.bpt.toNat) && r.decideBit P (8 * (b - g * c.bpt.toNat) + j) ||
        (Memory.read Space.rxraw r.rxraw b).getLsbD j) := by
  -- the addresses of slots from NDB on play no part: cut them back into the space
  let f := fun k => if k < c.ndb then g * c.bpt.toNat + k / 8 else 0
  have hmul : (g + 1) * c.bpt.toNat = g * c.bpt.toNat + c.bpt.toNat := by ring
  have hf : ∀ k, f k < Space.rxraw.size := by
    intro k
    simp only [f, Space.rxraw]
    split
    · rename_i hk
      unfold Cfg.ndb at hk
      omega
    · omega
  have e : (r.decideGroup P c g).rxraw = (List.range c.ndb).foldl
      (fun m k => if r.decideBit P k then Memory.setBit Space.rxraw m (f k) (k % 8) else m) r.rxraw := by
    unfold Rx.decideGroup
    dsimp only
    apply List.foldl_ext
    intro m k hk
    simp only [f, if_pos (List.mem_range.1 hk)]
  rw [e, (foldl_setBit Space.rxraw (r.decideBit P) f (· % 8) hf (fun k => Nat.mod_lt _ (by omega)) _ hm).2]
  congr 1
  rw [Bool.eq_iff_iff]
  simp only [List.any_eq_true, List.mem_range, Bool.and_eq_true, beq_iff_eq, decide_eq_true_eq]
  constructor
  · rintro ⟨k, hk, ⟨hp, rfl⟩, rfl⟩
    simp only [f, if_pos hk]
    unfold Cfg.ndb at hk
    have : 8 * (g * c.bpt.toNat + k / 8 - g * c.bpt.toNat) + k % 8 = k := by omega
    exact ⟨by omega, by rwa [this]⟩
  · rintro ⟨⟨h1, h2⟩, hp⟩
    have hk : 8 * (b - g * c.bpt.toNat) + j < c.ndb := by unfold Cfg.ndb; omega
    refine ⟨_, hk, ⟨hp, ?_⟩, by omega⟩
    simp only [f, if_pos hk]
    omega

/-- What record a does (R219 to R224): nothing for the ramp-up; else it enters the accumulator inside its decision window, and
the last frame of its group decides the group. -/
theorem Rx.analyzeRow_cases (P : Params) (c : Cfg) (r : Rx) (a : Nat) :
    (a < 2 ∧ r.analyzeRow P c a = r) ∨
    (2 ≤ a ∧ ∃ r', (r' = r ∧ (a - 2) % c.fpt.toNat < c.nbl ∨ r' = r.accumulate c a ∧ c.nbl ≤ (a - 2) % c.fpt.toNat) ∧
      ((a - 2) % c.fpt.toNat ≠ c.fpt.toNat - 1 ∧ r.analyzeRow P c a = r' ∨
       (a - 2) % c.fpt.toNat = c.fpt.toNat - 1 ∧ r.analyzeRow P c a = r'.decideGroup P c ((a - 2) / c.fpt.toNat))) := by
  unfold analyzeRow
  simp only [Config.rampBegin]
  by_cases h : a < 2
  · exact .inl ⟨h, if_pos h⟩
  · refine .inr ⟨by omega, ?_⟩
    rw [if_neg h]
    by_cases h1 : c.nbl ≤ (a - 2) % c.fpt.toNat <;> by_cases h2 : (a - 2) % c.fpt.toNat = c.fpt.toNat - 1
    · exact ⟨_, .inr ⟨rfl, h1⟩, .inr ⟨h2, by simp only [h1, if_true]; rw [if_pos h2]⟩⟩
    · exact ⟨_, .inr ⟨rfl, h1⟩, .inl ⟨h2, by simp only [h1, if_true]; rw [if_neg h2]⟩⟩
    · exact ⟨_, .inl ⟨rfl, by omega⟩, .inr ⟨h2, by simp only [h1, if_false]; rw [if_pos h2]⟩⟩
    · exact ⟨_, .inl ⟨rfl, by omega⟩, .inl ⟨h2, by simp only [h1, if_false]; rw [if_neg h2]⟩⟩

/-- AnalyzeStep's record changes only the accumulator and RXRAW. -/
theorem Rx.analyzeRow_rest (P : Params) (c : Cfg) (r : Rx) (a : Nat) :
    r.analyzeRow P c a = { r with rxraw := (r.analyzeRow P c a).rxraw, acc := (r.analyzeRow P c a).acc, facc := (r.analyzeRow P c a).facc } := by
  rcases r.analyzeRow_cases P c a with ⟨-, e⟩ | ⟨-, r', ⟨rfl, -⟩ | ⟨rfl, -⟩, ⟨-, e⟩ | ⟨-, e⟩⟩ <;> rw [e] <;>
    simp only [Rx.accumulate, Rx.decideGroup]

theorem get_accumulate_acc (c : Cfg) (r : Rx) (a : Nat) (k : Fin 256) : (r.accumulate c a).acc.get k =
    if k.val < c.ndb then .add (r.acc.get k) ((Memory.read Space.recMem r.recMem a).get k) else r.acc.get k := by
  simp only [Rx.accumulate, Vector.get_ofFn]

/-- The accumulator by value (R223). -/
theorem val_accumulate_acc (P : Params) (c : Cfg) (r : Rx) (a : Nat) (k : Fin 256) : P.val ((r.accumulate c a).acc.get k) =
    P.val (r.acc.get k) + if k.val < c.ndb then P.val ((Memory.read Space.recMem r.recMem a).get k) else 0 := by
  rw [get_accumulate_acc, val_ite]
  split <;> simp

/-! ### The decode stage -/

/-- What Decode() delivers: a payload of the length it names, at most 140 bytes (R226, R227). -/
theorem decodePayload_length {P : Params} (hP : P.Admitted) {c : Cfg} (hc : c.Legal) {raw : ByteMem} {m : List Byte} {l : Nat}
    (h : decodePayload P c raw = some (m, l)) : m.length = l ∧ l ≤ 140 := by
  have he := hc.2.2.2.2.2.2.2.2.1
  unfold decodePayload at h
  cases hm : c.mode
  · simp only [hm] at h
    split at h
    · cases h
    · split at h
      · cases h
      · rename_i hl
        obtain ⟨p, hp, e⟩ := Option.map_eq_some_iff.1 h
        cases e
        refine ⟨?_, by simpa using hl⟩
        rw [hP.dec_length _ _ _ (by rw [Memory.length_readN]; omega) hp, Memory.length_readN]; omega
  · simp only [hm] at h
    obtain ⟨p, hp, e⟩ := Option.map_eq_some_iff.1 h
    cases e
    refine ⟨?_, by simp only [Config.fixedLength]; omega⟩
    rw [hP.dec_length _ _ _ (by rw [Memory.length_readN]; omega) hp, Memory.length_readN]; omega

/-- What the commit writes (R229). -/
theorem read_commit_rxdata (r : Rx) {m : List Byte} {l : Nat} (hm : m.length = l) (hl : l ≤ 140) (a : Nat) :
    Memory.read Space.rxdata (r.commit m l).rxdata a = m.getD a 0 := by
  have e : m.take l = m := List.take_of_length_le (by omega)
  simp only [Rx.commit_rxdata, e]
  exact Memory.read_fill _ (by simp only [Space.rxdata]; omega) a

theorem toNat_commit_rxlen (r : Rx) (m : List Byte) {l : Nat} (hl : l ≤ 140) : (r.commit m l).rxlen.toNat = l := by
  simp only [Rx.commit_rxlen, BitVec.toNat_ofNat]; omega

end Sys2Proof.Machine
end

