-- ==== Sys2Proof/Laws/Tick.lean ====
section
/-! SUPPORT. A RECEIVE tick: its cases, and that each of its stages keeps the Rx part of the invariant (spec/10_state.md R37 to
R50; spec/42_rx.md R200 to R229). -/

namespace Sys2Proof.Machine

/-- The Rx part of the invariant without the cursors. -/
structure Rx.Held (r : Rx) : Prop where
  rxraw   : Memory.wf Space.rxraw r.rxraw
  rxdata  : Memory.wf Space.rxdata r.rxdata
  recMem  : Memory.wf Space.recMem r.recMem
  recf    : Memory.wf Space.recf r.recf
  hcount  : r.hcount.toNat ≤ 4
  hid     : r.hcount.toNat < 4 → r.hid.toNat = r.hcount.toNat
  rxlen   : r.rxlen.toNat ≤ 140
  tail    : ∀ i, r.rxlen.toNat ≤ i → Memory.read Space.rxdata r.rxdata i = 0

variable {c : Cfg} {r : Rx}

theorem Rx.Wf.held (h : r.Wf c) : r.Held := { h with }

theorem Rx.Held.wf (h : r.Held) (hc : r.CursorsFit c) : r.Wf c := { h with cursors := hc }

/-- A change of the counters and the state register only. -/
theorem Rx.Held.cursors (h : r.Held) (st : RxState) (run fltr flta : BitVec 16) (rxt : BitVec 32) :
    Rx.Held { r with rxstate := st, run := run, fltr := fltr, flta := flta, rxt := rxt } :=
  { h with }

theorem Rx.Held.capture (h : r.Held) (a : Answer) : (r.capture a).Held := by
  constructor
  · rw [Rx.capture_rxraw]; exact h.rxraw
  · rw [Rx.capture_rxdata]; exact h.rxdata
  · rw [Rx.capture_recMem]; exact h.recMem
  · rw [Rx.capture_recf]; exact h.recf
  · rw [Rx.capture_hcount, toNat_hcount]; omega
  · rw [Rx.capture_hcount, toNat_hcount, Rx.capture_hid, BitVec.toNat_add]
    intro hlt
    have h1 := h.hid (by omega)
    have h2 : (1 : BitVec 2).toNat = 1 := rfl
    omega
  · rw [Rx.capture_rxlen]; exact h.rxlen
  · rw [Rx.capture_rxlen, Rx.capture_rxdata]; exact h.tail

/-! ### The steps of the Rx state machine -/

theorem Rx.listenStep_cases (r : Rx) (m : Bool) :
    (8 ≤ (if m then satInc r.run else 0).toNat ∧
      r.listenStep m = { r with run := if m then satInc r.run else 0, rxstate := .markerLocked, rxt := 0 }) ∨
    ((if m then satInc r.run else 0).toNat < 8 ∧ r.listenStep m = { r with run := if m then satInc r.run else 0 }) := by
  unfold listenStep
  simp only [Config.lockFrames]
  by_cases h : 8 ≤ (if m then satInc r.run else 0).toNat
  · exact .inl ⟨h, by rw [if_pos h]⟩
  · exact .inr ⟨by omega, by rw [if_neg h]⟩

theorem Rx.Wf.listenStep (h : r.Held) (hs : r.rxstate = .listening) (h1 : r.fltr = 0) (h2 : r.flta = 0) (m : Bool) :
    (r.listenStep m).Wf c := by
  rcases r.listenStep_cases m with ⟨h3, e⟩ | ⟨h3, e⟩ <;> rw [e]
  · exact (h.cursors .markerLocked _ r.fltr r.flta 0).wf ⟨h1, h2, h3⟩
  · refine (h.cursors r.rxstate _ r.fltr r.flta r.rxt).wf ?_
    simp only [CursorsFit, hs]
    exact ⟨h1, h2, h3⟩

/-- A recorded row keeps the invariant, whatever becomes of the cursors. -/
theorem Rx.Held.recordRow (h : r.Held) {i : Nat} (hi : i < 4096) (fl : Mag) : (r.recordRow c i fl).Held := by
  have s := Rx.recordRow_says c h.recMem h.recf hi fl
  exact { h with recMem := s.wfRec, recf := s.wfRecf }

theorem Rx.toNat_ftr (hc : c.Legal) {n : Nat} (hn : n ≤ c.ftr) : (BitVec.ofNat 16 n).toNat = n := by
  have := hc.ftr_le
  rw [BitVec.toNat_ofNat, Nat.mod_eq_of_lt (by omega)]

theorem Rx.lockedStep_match (c : Cfg) (r : Rx) (fl : Mag) :
    r.lockedStep c true fl = { r with rxt := satInc r.rxt, run := satInc r.run } := by
  simp only [Rx.lockedStep, if_true]

theorem Rx.lockedStep_differ (c : Cfg) (r : Rx) (fl : Mag) :
    r.lockedStep c false fl =
      { ({ r with rxt := satInc r.rxt } : Rx).recordRow c 0 fl with rxstate := .recording, fltr := BitVec.ofNat 16 (c.ftr - 1) } := by
  unfold Rx.lockedStep
  dsimp only
  rw [if_neg (by decide)]

theorem Rx.Wf.lockedStep_match (h : r.Held) (hs : r.rxstate = .markerLocked) (h1 : r.fltr = 0) (h2 : r.flta = 0)
    (h3 : 8 ≤ r.run.toNat) (fl : Mag) : (r.lockedStep c true fl).Wf c := by
  have e1 : 8 ≤ (satInc r.run).toNat := by
    rw [toNat_satInc]
    exact le_min (by omega) (by norm_num)
  rw [Rx.lockedStep_match]
  generalize satInc r.run = v at e1
  refine (h.cursors r.rxstate v r.fltr r.flta (satInc r.rxt)).wf ?_
  simp only [CursorsFit, hs]
  exact ⟨h1, h2, e1⟩

theorem Rx.Wf.lockedStep_differ (hc : c.Legal) (h : r.Held) (h2 : r.flta = 0) (fl : Mag) :
    (r.lockedStep c false fl).Wf c := by
  have hh : Rx.Held { r with rxt := satInc r.rxt } := h.cursors r.rxstate r.run r.fltr r.flta _
  have h4 := hh.recordRow (c := c) (i := 0) (by omega) fl
  have e := Rx.toNat_ftr hc (n := c.ftr - 1) (by omega)
  have h5 := hc.ftr_pos
  have e3 := Rx.recordRow_flta c { r with rxt := satInc r.rxt } 0 fl
  rw [Rx.lockedStep_differ]
  generalize Rx.recordRow c { r with rxt := satInc r.rxt } 0 fl = r2 at h4 e3 ⊢
  generalize BitVec.ofNat 16 (c.ftr - 1) = v at e ⊢
  refine (h4.cursors .recording _ v _ _).wf ?_
  simp only [CursorsFit, e]
  exact ⟨by omega, by omega, e3.trans h2⟩

theorem Rx.Wf.lockedStep (hc : c.Legal) (h : r.Held) (hs : r.rxstate = .markerLocked) (h1 : r.fltr = 0) (h2 : r.flta = 0)
    (h3 : 8 ≤ r.run.toNat) (m : Bool) (fl : Mag) : (r.lockedStep c m fl).Wf c := by
  cases m
  · exact Rx.Wf.lockedStep_differ hc h h2 fl
  · exact Rx.Wf.lockedStep_match h hs h1 h2 h3 fl

theorem Rx.Held.setAcc (h : r.Held) (v : RecRow) (f : Mag) : Rx.Held { r with acc := v, facc := f } := { h with }

theorem Rx.Wf.enterAnalyzing (hc : c.Legal) (h : r.Held) (h1 : r.fltr = 0) : (r.enterAnalyzing c).Wf c := by
  have h2 : (r.enterAnalyzing c).Held :=
    { h with rxraw := Memory.wf_nil _ }
  refine h2.wf ?_
  have e : (BitVec.ofNat 16 c.fta).toNat = c.fta := Rx.toNat_ftr hc (le_refl _)
  have h3 := hc.ftr_pos
  rw [← Cfg.fta_eq] at h3
  simp only [CursorsFit, Rx.enterAnalyzing_rxstate, Rx.enterAnalyzing_fltr, Rx.enterAnalyzing_flta, e]
  exact ⟨h1, by omega, le_refl _⟩

theorem Rx.recordStep_cases (c : Cfg) (r : Rx) (fl : Mag) :
    let r' := { ({ r with rxt := satInc r.rxt } : Rx).recordRow c (c.ftr - r.fltr.toNat) fl with fltr := r.fltr - 1 }
    (r.fltr - 1 = 0 ∧ r.recordStep c fl = r'.enterAnalyzing c) ∨ (r.fltr - 1 ≠ 0 ∧ r.recordStep c fl = r') := by
  intro r'
  unfold recordStep
  by_cases h : r.fltr - 1 = 0
  · exact .inl ⟨h, if_pos h⟩
  · exact .inr ⟨h, if_neg h⟩

/-- What RecordStep does (R216, R217). -/
structure Rx.RecordStepSays (c : Cfg) (r : Rx) (fl : Mag) (t : Rx) : Prop where
  rxt : t.rxt = satInc r.rxt
  fltr : t.fltr.toNat = r.fltr.toNat - 1
  record : Rx.RecordSays c r (c.ftr - r.fltr.toNat) fl { r with recMem := t.recMem, recf := t.recf }
  going : 1 < r.fltr.toNat → t = { r with rxt := t.rxt, fltr := t.fltr, recMem := t.recMem, recf := t.recf }
  last : r.fltr.toNat = 1 → t =
    { r with rxstate := .analyzing, rxt := t.rxt, fltr := 0, recMem := t.recMem, recf := t.recf, flta := BitVec.ofNat 16 c.fta,
             acc := Vector.replicate 256 .zero, facc := .zero, rxraw := [] }

theorem Rx.recordStep_says (hc : c.Legal) (h1 : Memory.wf Space.recMem r.recMem) (h2 : Memory.wf Space.recf r.recf)
    (h3 : 1 ≤ r.fltr.toNat) (fl : Mag) : Rx.RecordStepSays c r fl (r.recordStep c fl) := by
  have hle := hc.ftr_le
  have hsay := Rx.recordRow_says c (r := { r with rxt := satInc r.rxt }) h1 h2 (i := c.ftr - r.fltr.toNat) (by omega) fl
  have hsub := toNat_sub_one (w := 16) (by omega) h3
  have key := r.recordStep_cases c fl
  have rest := hsay.rest
  generalize Rx.recordRow c { r with rxt := satInc r.rxt } (c.ftr - r.fltr.toNat) fl = r2 at *
  generalize r2.recMem = m1 at *
  generalize r2.recf = m2 at *
  subst rest
  have hsay' : Rx.RecordSays c r (c.ftr - r.fltr.toNat) fl { r with recMem := m1, recf := m2 } :=
    ⟨hsay.row, hsay.floor, hsay.others, hsay.wfRec, hsay.wfRecf, rfl⟩
  rcases key with ⟨h6, e6⟩ | ⟨h6, e6⟩ <;> rw [e6]
  · have h7 := h6
    rw [eq_zero_iff_toNat, hsub] at h7
    refine ⟨rfl, hsub, hsay', fun h => by omega, fun _ => ?_⟩
    simp only [Rx.enterAnalyzing, h6]
  · have h7 := h6
    rw [Ne, eq_zero_iff_toNat, hsub] at h7
    exact ⟨rfl, hsub, hsay', fun _ => rfl, fun h => by omega⟩

theorem Rx.Wf.recordStep (hc : c.Legal) (h : r.Held) (hs : r.rxstate = .recording) (h1 : 1 ≤ r.fltr.toNat)
    (h2 : r.fltr.toNat < c.ftr) (h3 : r.flta = 0) (fl : Mag) : (r.recordStep c fl).Wf c := by
  have hh : Rx.Held { r with rxt := satInc r.rxt } := h.cursors r.rxstate r.run r.fltr r.flta _
  have hle := hc.ftr_le
  have h4 := hh.recordRow (c := c) (i := c.ftr - r.fltr.toNat) (by omega) fl
  have h5 := h4.cursors r.rxstate r.run (r.fltr - 1) r.flta (satInc r.rxt)
  have e := toNat_sub_one (w := 16) (by omega) h1
  rcases r.recordStep_cases c fl with ⟨h6, e'⟩ | ⟨h6, e'⟩ <;> rw [e']
  · refine Rx.Wf.enterAnalyzing hc h5 ?_
    exact h6
  · refine h5.wf ?_
    rw [Ne, eq_zero_iff_toNat, e] at h6
    simp only [CursorsFit, hs, e]
    exact ⟨by omega, by omega, h3⟩

/-! ### Analysis -/

theorem Rx.decideGroup_rest (P : Params) (c : Cfg) (r : Rx) (g : Nat) : r.decideGroup P c g =
    { r with rxraw := (r.decideGroup P c g).rxraw, acc := Vector.replicate 256 .zero, facc := .zero } := by
  simp only [Rx.decideGroup]

/-- What record a does to the accumulator and to RXRAW, by number (R219 to R224). -/
structure Rx.AnalyzeSays (P : Params) (c : Cfg) (r : Rx) (a : Nat) (t : Rx) : Prop where
  /-- Not the last frame of a group: the accumulator takes the record in, if it is in the decision window. -/
  going : ¬ (2 ≤ a ∧ (a - 2) % c.fpt.toNat = c.fpt.toNat - 1) →
    (∀ k : Fin 256, P.val (t.acc.get k) = P.val (r.acc.get k) +
      if (2 ≤ a ∧ c.nbl ≤ (a - 2) % c.fpt.toNat) ∧ k.val < c.ndb then P.val ((Memory.read Space.recMem r.recMem a).get k) else 0) ∧
    P.val t.facc = P.val r.facc +
      (if 2 ≤ a ∧ c.nbl ≤ (a - 2) % c.fpt.toNat then P.val (Memory.read Space.recf r.recf a) else 0) ∧
    t.rxraw = r.rxraw
  /-- The last frame of group g: the record enters the sums, the sums decide the group's bits, and the accumulator is cleared. -/
  last : 2 ≤ a ∧ (a - 2) % c.fpt.toNat = c.fpt.toNat - 1 → t.acc = Vector.replicate 256 .zero ∧ t.facc = .zero ∧
    (∀ k : Fin 256, k.val < c.ndb →
      ((Memory.read Space.rxraw t.rxraw ((a - 2) / c.fpt.toNat * c.bpt.toNat + k.val / 8)).getLsbD (k.val % 8) = true ↔
        3 * (P.val r.facc + P.val (Memory.read Space.recf r.recf a)) <
            2 * (P.val (r.acc.get k) + P.val ((Memory.read Space.recMem r.recMem a).get k)) ∨
          (Memory.read Space.rxraw r.rxraw ((a - 2) / c.fpt.toNat * c.bpt.toNat + k.val / 8)).getLsbD (k.val % 8) = true)) ∧
    (∀ b, b < (a - 2) / c.fpt.toNat * c.bpt.toNat ∨ ((a - 2) / c.fpt.toNat + 1) * c.bpt.toNat ≤ b →
      Memory.read Space.rxraw t.rxraw b = Memory.read Space.rxraw r.rxraw b)
  rest : t = { r with rxraw := t.rxraw, acc := t.acc, facc := t.facc }

/-- The group of a record of the analysis is one of the GMAX groups (R221). -/
theorem group_lt {a : Nat} (h2 : 2 ≤ a) (ha : a < c.ftr) : (a - 2) / c.fpt.toNat < c.gmax := by
  rw [Cfg.ftr_eq] at ha
  exact Nat.div_lt_of_lt_mul (by rw [Nat.mul_comm]; omega)

theorem group_end_le (hc : c.Legal) {g : Nat} (hg : g < c.gmax) : (g + 1) * c.bpt.toNat ≤ 238 :=
  (Nat.mul_le_mul_right _ hg).trans hc.gmax_mul_le

theorem Rx.analyzeRow_says (P : Params) (hc : c.Legal) (hm : Memory.wf Space.rxraw r.rxraw) {a : Nat} (ha : a < c.ftr) :
    Rx.AnalyzeSays P c r a (r.analyzeRow P c a) := by
  have hn := Cfg.nbl_lt_fpt hc
  have hrest := Rx.analyzeRow_rest P c r a
  have hfacc : P.val (r.accumulate c a).facc = P.val r.facc + P.val (Memory.read Space.recf r.recf a) := by
    rw [Rx.accumulate_facc, Params.val_add]
  rcases r.analyzeRow_cases P c a with ⟨h1, e⟩ | ⟨h1, r', ⟨rfl, h2⟩ | ⟨rfl, h2⟩, ⟨h3, e⟩ | ⟨h3, e⟩⟩ <;> rw [e] at hrest ⊢
  · refine ⟨fun _ => ⟨fun k => ?_, ?_, rfl⟩, fun h => by omega, hrest⟩
    · rw [if_neg (by omega)]; simp
    · rw [if_neg (by omega)]; simp
  · refine ⟨fun _ => ⟨fun k => ?_, ?_, rfl⟩, fun h => absurd h.2 h3, hrest⟩
    · rw [if_neg (by omega)]; simp
    · rw [if_neg (by omega)]; simp
  · omega
  · refine ⟨fun _ => ⟨fun k => ?_, ?_, ?_⟩, fun h => absurd h.2 h3, hrest⟩
    · rw [val_accumulate_acc]
      simp only [h1, h2, and_self, true_and]
    · rw [hfacc, if_pos ⟨h1, h2⟩]
    · rw [Rx.accumulate_rxraw]
  · have hg : ((a - 2) / c.fpt.toNat + 1) * c.bpt.toNat ≤ 256 := (group_end_le hc (group_lt h1 ha)).trans (by norm_num)
    have hm' : Memory.wf Space.rxraw (r.accumulate c a).rxraw := by rw [Rx.accumulate_rxraw]; exact hm
    have bit := fun b j (hj : j < 8) => read_decideGroup (P := P) hm' hg b hj
    have hacc := val_accumulate_acc P c r a
    rw [Rx.accumulate_rxraw] at bit
    obtain ⟨g, hgd⟩ : ∃ g, (a - 2) / c.fpt.toNat = g := ⟨_, rfl⟩
    rw [hgd] at bit hg hrest ⊢
    have hmul : (g + 1) * c.bpt.toNat = g * c.bpt.toNat + c.bpt.toNat := by ring
    refine ⟨fun h => absurd ⟨h1, h3⟩ h, fun _ => ⟨?_, ?_, fun k hk => ?_, fun b hb => ?_⟩, hrest⟩
    · rw [Rx.decideGroup_rest]
    · rw [Rx.decideGroup_rest]
    · rw [hgd]
      have hk2 : k.val < 8 * c.bpt.toNat := hk
      have ek : 8 * (g * c.bpt.toNat + k.val / 8 - g * c.bpt.toNat) + k.val % 8 = k.val := by omega
      have hin : g * c.bpt.toNat ≤ g * c.bpt.toNat + k.val / 8 ∧ g * c.bpt.toNat + k.val / 8 < (g + 1) * c.bpt.toNat := by omega
      rw [bit _ _ (Nat.mod_lt _ (by omega)), ek, decide_eq_true hin, Bool.true_and, Bool.or_eq_true, Rx.decideBit_iff,
        elem_of_lt _ _ k.isLt, hfacc, hacc, if_pos hk]
    · rw [hgd] at hb
      apply BitVec.eq_of_getLsbD_eq
      intro j hj
      have hout : ¬ (g * c.bpt.toNat ≤ b ∧ b < (g + 1) * c.bpt.toNat) := by omega
      rw [bit _ _ hj, decide_eq_false hout, Bool.false_and, Bool.false_or]

theorem Rx.accumulate_rest (c : Cfg) (r : Rx) (a : Nat) :
    r.accumulate c a = { r with acc := (r.accumulate c a).acc, facc := (r.accumulate c a).facc } := by
  simp only [Rx.accumulate]

theorem Rx.Held.accumulate (h : r.Held) (a : Nat) : (r.accumulate c a).Held := by
  rw [Rx.accumulate_rest]
  exact h.setAcc _ _

theorem Rx.Held.decideGroup (P : Params) (h : r.Held) (g : Nat) : (r.decideGroup P c g).Held := by
  have h1 := wf_decideGroup P c h.rxraw g
  rw [Rx.decideGroup_rest]
  generalize (r.decideGroup P c g).rxraw = m at h1
  exact { h.setAcc (Vector.replicate 256 .zero) .zero with rxraw := h1 }

theorem Rx.Held.analyzeRow (P : Params) (h : r.Held) (a : Nat) : (r.analyzeRow P c a).Held := by
  rcases r.analyzeRow_cases P c a with ⟨-, e⟩ | ⟨-, r', ⟨rfl, -⟩ | ⟨rfl, -⟩, ⟨-, e⟩ | ⟨-, e⟩⟩ <;> rw [e]
  · exact h
  · exact h
  · exact h.decideGroup P _
  · exact h.accumulate a
  · exact (h.accumulate a).decideGroup P _

theorem Rx.Held.commit (h : r.Held) {m : List Byte} {l : Nat} (hm : m.length = l) (hl : l ≤ 140) : (r.commit m l).Held := by
  refine { h with rxdata := Memory.wf_fill _ _, rxlen := ?_, tail := fun i hi => ?_ }
  · rw [toNat_commit_rxlen _ _ hl]; exact hl
  · rw [toNat_commit_rxlen _ _ hl] at hi
    rw [read_commit_rxdata r hm hl, List.getD_eq_default _ _ (by omega)]

theorem Rx.Held.toListening (h : r.Held) (h1 : r.fltr = 0) (h2 : r.flta = 0) : r.toListening.Wf c :=
  (h.cursors .listening 0 r.fltr r.flta r.rxt).wf ⟨h1, h2, Nat.zero_lt_succ 7⟩

/-- The tick after the last frame was analysed: the machine listens again, with the payload of a successful decode or with the
old one (R225 to R229). -/
theorem Rx.decodeStep_cases (P : Params) (c : Cfg) (r : Rx) :
    (decodePayload P c r.rxraw = none ∧ r.decodeStep P c = (r.toListening, false)) ∨
    ∃ m l, decodePayload P c r.rxraw = some (m, l) ∧ r.decodeStep P c = ((r.commit m l).toListening, true) := by
  unfold decodeStep
  cases h : decodePayload P c r.rxraw with
  | none => exact .inl ⟨rfl, rfl⟩
  | some p => exact .inr ⟨p.1, p.2, rfl, rfl⟩

theorem Rx.Wf.decodeStep {P : Params} (hP : P.Admitted) (hc : c.Legal) (h : r.Held) (h1 : r.fltr = 0) (h2 : r.flta = 0) :
    (r.decodeStep P c).1.Wf c := by
  rcases r.decodeStep_cases P c with ⟨-, e⟩ | ⟨m, l, hd, e⟩ <;> rw [e]
  · exact h.toListening h1 h2
  · obtain ⟨hm, hl⟩ := decodePayload_length hP hc hd
    exact (h.commit hm hl).toListening h1 h2

/-- The record AnalyzeStep runs before its decode (R219). -/
def Rx.analyzed (P : Params) (c : Cfg) (r : Rx) : Rx :=
  { ({ r with rxt := satInc r.rxt } : Rx).analyzeRow P c (c.fta - r.flta.toNat) with flta := r.flta - 1 }

theorem Rx.analyzeStep_cases (P : Params) (c : Cfg) (r : Rx) :
    (r.flta - 1 = 0 ∧ r.analyzeStep P c = (r.analyzed P c).decodeStep P c) ∨
    (r.flta - 1 ≠ 0 ∧ r.analyzeStep P c = (r.analyzed P c, false)) := by
  have e : (({ r with rxt := satInc r.rxt } : Rx).analyzeRow P c (c.fta - r.flta.toNat)).flta = r.flta := by
    rw [Rx.analyzeRow_rest]
  unfold analyzeStep analyzed
  simp only [e]
  by_cases h : r.flta - 1 = 0
  · exact .inl ⟨h, by rw [if_pos h]⟩
  · exact .inr ⟨h, by rw [if_neg h]⟩

/-- What is unchanged by an analysis record. -/
theorem Rx.analyzed_rest (P : Params) (c : Cfg) (r : Rx) : r.analyzed P c =
    { r with rxt := satInc r.rxt, flta := r.flta - 1, rxraw := (r.analyzed P c).rxraw, acc := (r.analyzed P c).acc,
             facc := (r.analyzed P c).facc } := by
  unfold analyzed
  rw [Rx.analyzeRow_rest]

theorem Rx.Held.analyzed (P : Params) (h : r.Held) : (r.analyzed P c).Held := by
  have hh : Rx.Held { r with rxt := satInc r.rxt } := h.cursors r.rxstate r.run r.fltr r.flta _
  have h1 := hh.analyzeRow (c := c) P (c.fta - r.flta.toNat)
  exact h1.cursors _ _ _ _ _

theorem Rx.Wf.analyzeStep {P : Params} (hP : P.Admitted) (hc : c.Legal) (h : r.Held) (hs : r.rxstate = .analyzing)
    (h1 : r.fltr = 0) (h2 : 1 ≤ r.flta.toNat) (h3 : r.flta.toNat ≤ c.fta) : (r.analyzeStep P c).1.Wf c := by
  have e := r.analyzed_rest P c
  have e1 : (r.analyzed P c).fltr = 0 := by rw [e]; exact h1
  have e2 : (r.analyzed P c).flta = r.flta - 1 := by rw [e]
  have e3 : (r.analyzed P c).rxstate = .analyzing := by rw [e]; exact hs
  have ha : (r.analyzed P c).Held := h.analyzed P
  rcases r.analyzeStep_cases P c with ⟨h4, e4⟩ | ⟨h4, e4⟩ <;> rw [e4]
  · exact Rx.Wf.decodeStep hP hc ha e1 (e2.trans h4)
  · refine ha.wf ?_
    have e5 := toNat_sub_one (w := 16) (by omega) h2
    rw [Ne, eq_zero_iff_toNat, e5] at h4
    simp only [CursorsFit, e3, e1, e2, e5]
    exact ⟨trivial, by omega, by omega⟩

/-! ### The tick -/

/-- Everything a tick can do, by the state it begins in and whether samples came (R200, R201, R210). -/
theorem Rx.tick_cases (P : Params) (c : Cfg) (r : Rx) (a : Answer) :
    (r.rxstate ≠ .analyzing ∧ a.count.val = 0 ∧ r.tick P c a = (r, false)) ∨
    (r.rxstate = .listening ∧ 0 < a.count.val ∧
      r.tick P c a = ((r.capture a).listenStep (r.matchesMarker P c a), false)) ∨
    (r.rxstate = .markerLocked ∧ 0 < a.count.val ∧
      r.tick P c a = ((r.capture a).lockedStep c (r.matchesMarker P c a) r.floor, false)) ∨
    (r.rxstate = .recording ∧ 0 < a.count.val ∧ r.tick P c a = ((r.capture a).recordStep c r.floor, false)) ∨
    (r.rxstate = .analyzing ∧ a.count.val = 0 ∧ r.tick P c a = r.analyzeStep P c) ∨
    (r.rxstate = .analyzing ∧ 0 < a.count.val ∧ r.tick P c a = (r.capture a).analyzeStep P c) := by
  unfold tick liveTick matchesMarker
  rcases Nat.eq_zero_or_pos a.count.val with h | h <;> cases hs : r.rxstate <;> simp [h]

theorem Rx.tick_idle (P : Params) (c : Cfg) {r : Rx} {a : Answer} (hs : r.rxstate ≠ .analyzing) (hk : a.count.val = 0) :
    r.tick P c a = (r, false) := by
  rcases r.tick_cases P c a with ⟨_, _, e⟩ | ⟨_, h, _⟩ | ⟨_, h, _⟩ | ⟨_, h, _⟩ | ⟨h, _⟩ | ⟨h, _⟩
  · exact e
  · omega
  · omega
  · omega
  · exact absurd h hs
  · exact absurd h hs

theorem Rx.tick_listening (P : Params) (c : Cfg) {r : Rx} {a : Answer} (hs : r.rxstate = .listening) (hk : 0 < a.count.val) :
    r.tick P c a = ((r.capture a).listenStep (r.matchesMarker P c a), false) := by
  rcases r.tick_cases P c a with ⟨_, h, _⟩ | ⟨_, _, e⟩ | ⟨h, _⟩ | ⟨h, _⟩ | ⟨h, _⟩ | ⟨h, _⟩
  · omega
  · exact e
  all_goals rw [hs] at h; cases h

theorem Rx.tick_locked (P : Params) (c : Cfg) {r : Rx} {a : Answer} (hs : r.rxstate = .markerLocked) (hk : 0 < a.count.val) :
    r.tick P c a = ((r.capture a).lockedStep c (r.matchesMarker P c a) r.floor, false) := by
  rcases r.tick_cases P c a with ⟨_, h, _⟩ | ⟨h, _⟩ | ⟨_, _, e⟩ | ⟨h, _⟩ | ⟨h, _⟩ | ⟨h, _⟩
  · omega
  · rw [hs] at h; cases h
  · exact e
  all_goals rw [hs] at h; cases h

theorem Rx.tick_recording (P : Params) (c : Cfg) {r : Rx} {a : Answer} (hs : r.rxstate = .recording) (hk : 0 < a.count.val) :
    r.tick P c a = ((r.capture a).recordStep c r.floor, false) := by
  rcases r.tick_cases P c a with ⟨_, h, _⟩ | ⟨h, _⟩ | ⟨h, _⟩ | ⟨_, _, e⟩ | ⟨h, _⟩ | ⟨h, _⟩
  · omega
  · rw [hs] at h; cases h
  · rw [hs] at h; cases h
  · exact e
  all_goals rw [hs] at h; cases h

/-- ANALYZING runs on every tick; a live frame is captured first (R201, R219). -/
theorem Rx.tick_analyzing (P : Params) (c : Cfg) {r : Rx} (hs : r.rxstate = .analyzing) (a : Answer) :
    r.tick P c a = (if 0 < a.count.val then r.capture a else r).analyzeStep P c := by
  rcases r.tick_cases P c a with ⟨h, _⟩ | ⟨h, _⟩ | ⟨h, _⟩ | ⟨h, _⟩ | ⟨_, h, e⟩ | ⟨_, h, e⟩
  · exact absurd hs h
  · rw [hs] at h; cases h
  · rw [hs] at h; cases h
  · rw [hs] at h; cases h
  · rw [e, if_neg (by omega)]
  · rw [e, if_pos h]

/-- The history takes in every live frame, in every Rx state, and nothing else (R207). -/
theorem Rx.tick_hist (P : Params) (c : Cfg) (r : Rx) (a : Answer) :
    (r.tick P c a).1.hist = if 0 < a.count.val then (r.capture a).hist else r.hist := by
  have hd : ∀ q : Rx, (q.decodeStep P c).1.hist = q.hist := by
    intro q
    rcases q.decodeStep_cases P c with ⟨-, e⟩ | ⟨m, l, -, e⟩ <;> rw [e] <;> simp
  have ha : ∀ q : Rx, (q.analyzeStep P c).1.hist = q.hist := by
    intro q
    rcases q.analyzeStep_cases P c with ⟨-, e⟩ | ⟨-, e⟩ <;> rw [e]
    · rw [hd, q.analyzed_rest P c]
    · rw [q.analyzed_rest P c]
  rcases r.tick_cases P c a with ⟨-, h, e⟩ | ⟨-, h, e⟩ | ⟨-, h, e⟩ | ⟨-, h, e⟩ | ⟨-, h, e⟩ | ⟨-, h, e⟩ <;> rw [e]
  · rw [if_neg (by omega)]
  · rw [if_pos h]
    rcases (r.capture a).listenStep_cases (r.matchesMarker P c a) with ⟨-, e⟩ | ⟨-, e⟩ <;> rw [e]
  · rw [if_pos h]
    cases r.matchesMarker P c a
    · rw [Rx.lockedStep_differ]; simp only [Rx.recordRow]
    · rw [Rx.lockedStep_match]
  · rw [if_pos h]
    rcases (r.capture a).recordStep_cases c r.floor with ⟨-, e⟩ | ⟨-, e⟩ <;> rw [e]
    · simp only [Rx.enterAnalyzing_hist, Rx.recordRow]
    · simp only [Rx.recordRow]
  · rw [if_neg (by omega), ha]
  · rw [if_pos h, ha]

theorem Rx.Wf.tick {P : Params} (hP : P.Admitted) (hc : c.Legal) (h : r.Wf c) (a : Answer) : (r.tick P c a).1.Wf c := by
  have hcap := h.held.capture a
  have hcur := h.cursors
  have e1 := Rx.capture_rxstate r a
  have e2 := Rx.capture_fltr r a
  have e3 := Rx.capture_flta r a
  have e4 := Rx.capture_run r a
  rcases r.tick_cases P c a with ⟨-, -, e⟩ | ⟨hs, -, e⟩ | ⟨hs, -, e⟩ | ⟨hs, -, e⟩ | ⟨hs, -, e⟩ | ⟨hs, -, e⟩ <;> rw [e] <;>
    clear e
  · exact h
  all_goals
    simp only [CursorsFit, hs] at hcur
    rw [hs] at e1
  · rw [← e2, ← e3] at hcur
    exact Rx.Wf.listenStep hcap e1 hcur.1 hcur.2.1 _
  · rw [← e2, ← e3, ← e4] at hcur
    exact Rx.Wf.lockedStep hc hcap e1 hcur.1 hcur.2.1 hcur.2.2 _ _
  · rw [← e2, ← e3] at hcur
    exact Rx.Wf.recordStep hc hcap e1 hcur.1 hcur.2.1 hcur.2.2 _
  · exact Rx.Wf.analyzeStep hP hc h.held hs hcur.1 hcur.2.1 hcur.2.2
  · rw [← e2, ← e3] at hcur
    exact Rx.Wf.analyzeStep hP hc hcap e1 hcur.1 hcur.2.1 hcur.2.2

/-! ### The other writers of Rx state -/

theorem Rx.Wf.reset : Rx.Wf Cfg.reset Rx.reset where
  rxraw := Memory.wf_nil _
  rxdata := Memory.wf_nil _
  recMem := Memory.wf_nil _
  recf := Memory.wf_nil _
  hcount := by decide
  hid _ := rfl
  rxlen := by decide
  tail _ _ := rfl
  cursors := ⟨rfl, rfl, by decide⟩

/-- AbortSessions keeps the invariant, whatever the new configuration (R134). -/
theorem Rx.Wf.abort {c' : Cfg} (h : r.Wf c) : r.abort.Wf c' :=
  ((h.held.setAcc (Vector.replicate 256 .zero) .zero).cursors .listening 0 0 0 0).wf ⟨rfl, rfl, Nat.zero_lt_succ 7⟩

end Sys2Proof.Machine
end

