-- ==== Sys2Proof/Laws/Runs.lean ====
section
/-! SUPPORT. Runs of RECEIVE ticks: how they are put together, that they keep the Rx part of the invariant, and how far an
analysis has come after each of its ticks (spec/42_rx.md R210 to R224). -/

namespace Sys2Proof.Machine

variable {P : Params} {c : Cfg}

@[simp] theorem Rx.ticks_nil (P : Params) (c : Cfg) (r : Rx) : r.ticks P c [] = r := rfl

@[simp] theorem Rx.ticks_cons (P : Params) (c : Cfg) (r : Rx) (a : Answer) (as : List Answer) :
    r.ticks P c (a :: as) = (r.tick P c a).1.ticks P c as := rfl

theorem Rx.ticks_append (P : Params) (c : Cfg) (r : Rx) (as bs : List Answer) :
    r.ticks P c (as ++ bs) = (r.ticks P c as).ticks P c bs := by
  induction as generalizing r with
  | nil => rfl
  | cons a as ih => exact ih _

theorem Rx.ticks_concat (P : Params) (c : Cfg) (r : Rx) (as : List Answer) (a : Answer) :
    r.ticks P c (as ++ [a]) = ((r.ticks P c as).tick P c a).1 := by rw [Rx.ticks_append]; rfl

theorem Rx.allTicks_append {p : Rx → Answer → Prop} (r : Rx) (as bs : List Answer) :
    r.AllTicks P c p (as ++ bs) ↔ r.AllTicks P c p as ∧ (r.ticks P c as).AllTicks P c p bs := by
  induction as generalizing r with
  | nil => exact ⟨fun h => ⟨trivial, h⟩, fun h => h.2⟩
  | cons a as ih =>
    constructor
    · rintro ⟨h1, h2⟩
      exact ⟨⟨h1, ((ih _).1 h2).1⟩, ((ih _).1 h2).2⟩
    · rintro ⟨⟨h1, h2⟩, h3⟩
      exact ⟨h1, (ih _).2 ⟨h2, h3⟩⟩

theorem Rx.Wf.ticks (hP : P.Admitted) (hc : c.Legal) {r : Rx} (h : r.Wf c) (as : List Answer) : (r.ticks P c as).Wf c := by
  induction as generalizing r with
  | nil => exact h
  | cons a as ih => exact ih (h.tick hP hc a)

/-- What the start of an analysis tick takes over from the state before it, whatever the pull brought. -/
theorem Rx.analysis_start (r : Rx) (a : Answer) :
    ∃ q : Rx, (if 0 < a.count.val then r.capture a else r) = q ∧ q.rxstate = r.rxstate ∧ q.flta = r.flta ∧ q.fltr = r.fltr ∧
      q.rxt = r.rxt ∧ q.recMem = r.recMem ∧ q.recf = r.recf ∧ q.acc = r.acc ∧ q.facc = r.facc ∧ q.rxraw = r.rxraw ∧
      q.rxdata = r.rxdata ∧ q.rxlen = r.rxlen ∧ q.rxcount = r.rxcount ∧ q.rxtSum = r.rxtSum ∧ q.run = r.run := by
  split
  · exact ⟨_, rfl, by simp⟩
  · exact ⟨_, rfl, by simp⟩

/-- One analysis tick: record a = FTA - FLTA is analysed, and either the analysis goes on or its result is decoded (R219). -/
theorem Rx.tick_analysis (P : Params) (c : Cfg) {r : Rx} (hs : r.rxstate = .analyzing) (h1 : 1 ≤ r.flta.toNat) (a : Answer) :
    ∃ p : Rx, p.flta.toNat = r.flta.toNat - 1 ∧ p.rxt = satInc r.rxt ∧ p.rxstate = .analyzing ∧ p.fltr = r.fltr ∧
      p.recMem = r.recMem ∧ p.recf = r.recf ∧ p.rxdata = r.rxdata ∧ p.rxlen = r.rxlen ∧ p.rxcount = r.rxcount ∧
      p.rxtSum = r.rxtSum ∧
      (c.Legal → Memory.wf Space.rxraw r.rxraw → r.flta.toNat ≤ c.fta → Rx.AnalyzeSays P c r (c.fta - r.flta.toNat)
        { r with rxraw := p.rxraw, acc := p.acc, facc := p.facc }) ∧
      (1 < r.flta.toNat → r.tick P c a = (p, false)) ∧ (r.flta.toNat = 1 → r.tick P c a = p.decodeStep P c) := by
  obtain ⟨q, e, e1, e2, e3, e4, e5, e6, e7, e8, e9, e10, e11, e12, e13, -⟩ := Rx.analysis_start r a
  have hsub := toNat_sub_one (w := 16) (by omega) (v := q.flta) (by rw [e2]; exact h1)
  have R := q.analyzed_rest P c
  have hz : q.flta - 1 = 0 ↔ r.flta.toNat = 1 := by rw [eq_zero_iff_toNat, hsub, e2]; omega
  refine ⟨q.analyzed P c, ?_, ?_, ?_, ?_, ?_, ?_, ?_, ?_, ?_, ?_, ?_, ?_, ?_⟩
  · rw [R]; dsimp only; rw [hsub, e2]
  · rw [R]; dsimp only; rw [e4]
  · rw [R]; exact e1.trans hs
  · rw [R]; exact e3
  · rw [R]; exact e5
  · rw [R]; exact e6
  · rw [R]; exact e10
  · rw [R]; exact e11
  · rw [R]; exact e12
  · rw [R]; exact e13
  · intro hc hm hle
    have ha : c.fta - r.flta.toNat < c.ftr := by rw [Cfg.fta_eq] at *; have := hc.ftr_pos; omega
    have S := Rx.analyzeRow_says (r := { q with rxt := satInc q.rxt }) P hc (by rw [← e9] at hm; exact hm) ha
    have A : q.analyzed P c =
        { ({ q with rxt := satInc q.rxt } : Rx).analyzeRow P c (c.fta - r.flta.toNat) with flta := q.flta - 1 } := by
      unfold Rx.analyzed; rw [e2]
    rw [A]
    generalize ({ q with rxt := satInc q.rxt } : Rx).analyzeRow P c (c.fta - r.flta.toNat) = t at S ⊢
    refine ⟨fun h => ?_, fun h => ?_, rfl⟩
    · have := S.going h
      rw [← e5, ← e6, ← e7, ← e8, ← e9]
      exact this
    · have := S.last h
      rw [← e5, ← e6, ← e7, ← e8, ← e9]
      exact this
  · intro h
    rw [Rx.tick_analyzing P c hs, e]
    rcases q.analyzeStep_cases P c with ⟨z, -⟩ | ⟨-, E⟩
    · have := hz.1 z; omega
    · exact E
  · intro h
    rw [Rx.tick_analyzing P c hs, e]
    rcases q.analyzeStep_cases P c with ⟨-, E⟩ | ⟨z, -⟩
    · exact E
    · exact absurd (hz.2 h) z

/-! ### How far an analysis has come -/

/-- The sum of slot k over the first m rows of the decision window of group g, by value. -/
noncomputable def Rx.windowSum (P : Params) (c : Cfg) (r : Rx) (g m : Nat) (k : Fin 256) : ℝ :=
  ((List.range m).map fun i => P.val ((Memory.read Space.recMem r.recMem (2 + g * c.fpt.toNat + c.nbl + i)).get k)).sum

/-- The floor over the same rows. -/
noncomputable def Rx.windowFloor (P : Params) (c : Cfg) (r : Rx) (g m : Nat) : ℝ :=
  ((List.range m).map fun i => P.val (Memory.read Space.recf r.recf (2 + g * c.fpt.toNat + c.nbl + i))).sum

theorem Rx.windowSum_succ (P : Params) (c : Cfg) (r : Rx) (g m : Nat) (k : Fin 256) : r.windowSum P c g (m + 1) k =
    r.windowSum P c g m k + P.val ((Memory.read Space.recMem r.recMem (2 + g * c.fpt.toNat + c.nbl + m)).get k) := by
  unfold windowSum
  rw [List.range_succ, List.map_append, List.sum_append]
  simp

theorem Rx.windowFloor_succ (P : Params) (c : Cfg) (r : Rx) (g m : Nat) : r.windowFloor P c g (m + 1) =
    r.windowFloor P c g m + P.val (Memory.read Space.recf r.recf (2 + g * c.fpt.toNat + c.nbl + m)) := by
  unfold windowFloor
  rw [List.range_succ, List.map_append, List.sum_append]
  simp

theorem Rx.windowBit_iff (P : Params) (c : Cfg) (r : Rx) (g : Nat) (k : Fin 256) :
    r.WindowBit P c g k ↔ 3 * r.windowFloor P c g c.window < 2 * r.windowSum P c g c.window k := by
  unfold WindowBit windowFloor windowSum
  simp only [List.map_map, Function.comp_def]

/-- After n records of the recording of r have been analysed, t holds: the groups up to there decided, the current group's sums
begun, no other bit set. -/
structure Rx.Progress (P : Params) (c : Cfg) (r : Rx) (n : Nat) (t : Rx) : Prop where
  recMem : t.recMem = r.recMem
  recf : t.recf = r.recf
  payload : t.rxdata = r.rxdata ∧ t.rxlen = r.rxlen ∧ t.rxcount = r.rxcount ∧ t.rxtSum = r.rxtSum
  bits : ∀ g < c.gmax, ∀ k : Fin 256, k.val < c.ndb →
    ((Memory.read Space.rxraw t.rxraw (g * c.bpt.toNat + k.val / 8)).getLsbD (k.val % 8) = true ↔
      2 + (g + 1) * c.fpt.toNat ≤ n ∧ r.WindowBit P c g k)
  above : ∀ b, c.gmax * c.bpt.toNat ≤ b → Memory.read Space.rxraw t.rxraw b = 0
  acc : ∀ k : Fin 256, k.val < c.ndb →
    P.val (t.acc.get k) = r.windowSum P c ((n - 2) / c.fpt.toNat) ((n - 2) % c.fpt.toNat - c.nbl) k
  facc : P.val t.facc = r.windowFloor P c ((n - 2) / c.fpt.toNat) ((n - 2) % c.fpt.toNat - c.nbl)

/-- The accumulator and RXRAW as a candidate enters ANALYZING (R216, R217). -/
theorem Rx.Progress.start {r : Rx} (h1 : ∀ k : Fin 256, P.val (r.acc.get k) = 0) (h2 : P.val r.facc = 0) (h3 : r.rxraw = []) :
    Rx.Progress P c r 0 r where
  recMem := rfl
  recf := rfl
  payload := ⟨rfl, rfl, rfl, rfl⟩
  bits g _ k _ := by
    have : ¬ 2 + (g + 1) * c.fpt.toNat ≤ 0 := by omega
    rw [h3]
    simp [Space.rxraw]
  above b _ := by rw [h3]; rfl
  acc k _ := by rw [h1]; simp [Rx.windowSum]
  facc := by rw [h2]; simp [Rx.windowFloor]

theorem div_mod_succ {f m : Nat} (h : m % f ≠ f - 1) (hf : 1 ≤ f) : (m + 1) / f = m / f ∧ (m + 1) % f = m % f + 1 := by
  have h1 := Nat.mod_lt m (show f > 0 by omega)
  have h2 := Nat.div_add_mod m f
  have h3 : m % f + 1 < f := by omega
  have e : m + 1 = m % f + 1 + f * (m / f) := by omega
  constructor
  · rw [e, Nat.add_mul_div_left _ _ (by omega), Nat.div_eq_of_lt h3]; simp
  · rw [e, Nat.add_mul_mod_self_left, Nat.mod_eq_of_lt h3]

theorem div_mod_wrap {f m : Nat} (h : m % f = f - 1) (hf : 1 ≤ f) : (m + 1) / f = m / f + 1 ∧ (m + 1) % f = 0 := by
  have h2 := Nat.div_add_mod m f
  have e : m + 1 = f * (m / f + 1) := by rw [Nat.mul_add]; omega
  constructor
  · rw [e, Nat.mul_div_cancel_left _ (by omega)]
  · rw [e, Nat.mul_mod_right]

/-- One more record analysed. -/
theorem Rx.Progress.succ (hc : c.Legal) {r t t' : Rx} {n : Nat} (h : Rx.Progress P c r n t) (hn : n < c.ftr)
    (S : Rx.AnalyzeSays P c t n { t with rxraw := t'.rxraw, acc := t'.acc, facc := t'.facc })
    (h1 : t'.recMem = t.recMem) (h2 : t'.recf = t.recf)
    (hp : t'.rxdata = t.rxdata ∧ t'.rxlen = t.rxlen ∧ t'.rxcount = t.rxcount ∧ t'.rxtSum = t.rxtSum) : Rx.Progress P c r (n + 1) t' := by
  have hpay : t'.rxdata = r.rxdata ∧ t'.rxlen = r.rxlen ∧ t'.rxcount = r.rxcount ∧ t'.rxtSum = r.rxtSum :=
    ⟨hp.1.trans h.payload.1, hp.2.1.trans h.payload.2.1, hp.2.2.1.trans h.payload.2.2.1, hp.2.2.2.trans h.payload.2.2.2⟩
  have hf := hc.fpt_pos
  have hnl := Cfg.nbl_lt_fpt hc
  have hn1 := c.nbl_le_one
  have hw := Cfg.nbl_add_window hc
  have hm := Nat.div_add_mod (n - 2) c.fpt.toNat
  have hml := Nat.mod_lt (n - 2) (show c.fpt.toNat > 0 by omega)
  by_cases hlast : 2 ≤ n ∧ (n - 2) % c.fpt.toNat = c.fpt.toNat - 1
  · obtain ⟨h3, h4, h5, h6⟩ := S.last hlast
    obtain ⟨e1, e2⟩ := div_mod_wrap hlast.2 hf
    have e3 : n + 1 - 2 = n - 2 + 1 := by omega
    have hg := group_lt (c := c) hlast.1 hn
    have hacc := h.acc
    have hfacc := h.facc
    dsimp only at h3 h4 h5 h6
    rw [← e3] at e1 e2
    generalize hgd : (n - 2) / c.fpt.toNat = g at *
    have hrow : n = 2 + g * c.fpt.toNat + c.nbl + ((n - 2) % c.fpt.toNat - c.nbl) := by
      have : g * c.fpt.toNat = c.fpt.toNat * g := Nat.mul_comm ..
      omega
    have hwin : c.window = (n - 2) % c.fpt.toNat - c.nbl + 1 := by omega
    have hbit : ∀ k : Fin 256, k.val < c.ndb →
        (3 * (P.val t.facc + P.val (Memory.read Space.recf t.recf n)) <
          2 * (P.val (t.acc.get k) + P.val ((Memory.read Space.recMem t.recMem n).get k)) ↔ r.WindowBit P c g k) := by
      intro k hk
      rw [Rx.windowBit_iff, hwin, Rx.windowSum_succ, Rx.windowFloor_succ, ← hrow, hacc k hk, hfacc, h.recMem, h.recf]
    refine ⟨h1.trans h.recMem, h2.trans h.recf, hpay, ?_, ?_, ?_, ?_⟩
    · intro g' hg' k hk
      have hk2 : k.val < 8 * c.bpt.toNat := hk
      have hend : n + 1 = 2 + (g + 1) * c.fpt.toNat := by
        have : (g + 1) * c.fpt.toNat = c.fpt.toNat * g + c.fpt.toNat := by ring
        omega
      by_cases hgg : g' = g
      · subst hgg
        have hnot : ¬ 2 + (g' + 1) * c.fpt.toNat ≤ n := by omega
        have hold := h.bits g' hg' k hk
        rw [h5 k hk, hold, hbit k hk]
        have := show 2 + (g' + 1) * c.fpt.toNat ≤ n + 1 by omega
        tauto
      · have hside : g' * c.bpt.toNat + k.val / 8 < g * c.bpt.toNat ∨ (g + 1) * c.bpt.toNat ≤ g' * c.bpt.toNat + k.val / 8 := by
          rcases Nat.lt_or_gt_of_ne hgg with hlt | hgt
          · left
            have := Nat.mul_le_mul_right c.bpt.toNat (show g' + 1 ≤ g from hlt)
            rw [Nat.add_mul] at this; omega
          · right
            have := Nat.mul_le_mul_right c.bpt.toNat (show g + 1 ≤ g' from hgt)
            omega
        rw [h6 _ hside, h.bits g' hg' k hk]
        refine and_congr_left' ?_
        rcases Nat.lt_or_gt_of_ne hgg with hlt | hgt
        · have := Nat.mul_le_mul_right c.fpt.toNat (show g' + 1 ≤ g from hlt)
          have e : (g + 1) * c.fpt.toNat = g * c.fpt.toNat + c.fpt.toNat := by ring
          omega
        · have := Nat.mul_le_mul_right c.fpt.toNat (show g + 1 + 1 ≤ g' + 1 by omega)
          have e : (g + 1 + 1) * c.fpt.toNat = (g + 1) * c.fpt.toNat + c.fpt.toNat := by ring
          omega
    · intro b hb
      rw [h6 b (.inr ((Nat.mul_le_mul_right _ hg).trans hb)), h.above b hb]
    · intro k _
      rw [h3, e2]
      simp [Rx.windowSum]
    · rw [h4, e2]
      simp [Rx.windowFloor]
  · obtain ⟨h3, h4, h5⟩ := S.going hlast
    dsimp only at h3 h4 h5
    refine ⟨h1.trans h.recMem, h2.trans h.recf, hpay, ?_, ?_, ?_, ?_⟩
    · intro g hg k hk
      rw [h5, h.bits g hg k hk]
      refine and_congr_left' ?_
      constructor
      · omega
      · intro hle
        by_contra hnot
        have e' : (g + 1) * c.fpt.toNat = c.fpt.toNat * g + c.fpt.toNat := by ring
        have e : n - 2 = c.fpt.toNat - 1 + c.fpt.toNat * g := by omega
        refine hlast ⟨by omega, ?_⟩
        rw [e, Nat.add_mul_mod_self_left, Nat.mod_eq_of_lt (by omega)]
    · intro b hb
      rw [h5]; exact h.above b hb
    all_goals
      rcases Nat.lt_or_ge n 2 with hlt | hge
      · have e1 : n - 2 = 0 := by omega
        have e2 : n + 1 - 2 = 0 := by omega
        have e3 : ¬ (2 ≤ n ∧ c.nbl ≤ (n - 2) % c.fpt.toNat) := by omega
        try intro k hk
        first
          | (rw [h3, if_neg (by tauto), h.acc k hk, e1, e2]; simp)
          | (rw [h4, if_neg e3, h.facc, e1, e2]; simp)
      · have e0 : n + 1 - 2 = n - 2 + 1 := by omega
        obtain ⟨e1, e2⟩ := div_mod_succ (f := c.fpt.toNat) (m := n - 2) (by tauto) hf
        have hrow : (n - 2) / c.fpt.toNat * c.fpt.toNat = c.fpt.toNat * ((n - 2) / c.fpt.toNat) := Nat.mul_comm ..
        try intro k hk
        by_cases hin : c.nbl ≤ (n - 2) % c.fpt.toNat
        · have e3 : (n - 2) % c.fpt.toNat + 1 - c.nbl = (n - 2) % c.fpt.toNat - c.nbl + 1 := by omega
          have e4 : 2 + (n - 2) / c.fpt.toNat * c.fpt.toNat + c.nbl + ((n - 2) % c.fpt.toNat - c.nbl) = n := by omega
          first
            | rw [h3, if_pos ⟨⟨hge, hin⟩, hk⟩, e0, e1, e2, e3, Rx.windowSum_succ, e4, h.acc k hk, h.recMem]
            | rw [h4, if_pos ⟨hge, hin⟩, e0, e1, e2, e3, Rx.windowFloor_succ, e4, h.facc, h.recf]
        · have e3 : (n - 2) % c.fpt.toNat + 1 - c.nbl = (n - 2) % c.fpt.toNat - c.nbl := by omega
          first
            | (rw [h3, if_neg (by tauto), e0, e1, e2, e3, h.acc k hk]; simp)
            | (rw [h4, if_neg (by tauto), e0, e1, e2, e3, h.facc]; simp)

/-- After n ticks of an analysis that is not over, n records have been analysed. -/
theorem Rx.Progress.ticks (hP : P.Admitted) (hc : c.Legal) {r : Rx} (h : r.Wf c) (hs : r.rxstate = .analyzing)
    (h0 : r.flta.toNat = c.fta) (h1 : ∀ k : Fin 256, P.val (r.acc.get k) = 0) (h2 : P.val r.facc = 0) (h3 : r.rxraw = []) :
    ∀ as : List Answer, as.length < c.fta → Rx.Progress P c r as.length (r.ticks P c as) ∧
      (r.ticks P c as).rxstate = .analyzing ∧ (r.ticks P c as).flta.toNat = c.fta - as.length := by
  intro as
  induction as using List.reverseRecOn with
  | nil => exact fun _ => ⟨Rx.Progress.start h1 h2 h3, hs, h0⟩
  | append_singleton as a ih =>
    intro hlen
    rw [List.length_append, List.length_singleton] at hlen ⊢
    obtain ⟨p1, p2, p3⟩ := ih (by omega)
    have hw := (h.ticks hP hc as).rxraw
    rw [Rx.ticks_concat]
    generalize r.ticks P c as = t at *
    obtain ⟨p, q1, q2, q3, q4, q5, q6, q8, q9, q10, q11, S, q7, -⟩ := Rx.tick_analysis P c p2 (by omega) a
    rw [q7 (by omega)]
    have S := S hc hw (by omega)
    have e : c.fta - t.flta.toNat = as.length := by omega
    rw [e] at S
    rw [Cfg.fta_eq] at hlen
    exact ⟨p1.succ hc (by omega) S q5 q6 ⟨q8, q9, q10, q11⟩, q3, by dsimp only; omega⟩

/-- When the whole recording has been analysed, the same tick decodes (R219, R225). -/
theorem Rx.Progress.finish (hP : P.Admitted) (hc : c.Legal) {r : Rx} (h : r.Wf c) (hs : r.rxstate = .analyzing)
    (h0 : r.flta.toNat = c.fta) (h1 : ∀ k : Fin 256, P.val (r.acc.get k) = 0) (h2 : P.val r.facc = 0) (h3 : r.rxraw = [])
    {as : List Answer} (hl : as.length = c.fta) : ∃ p : Rx, Rx.Progress P c r c.ftr p ∧ r.ticks P c as = (p.decodeStep P c).1 := by
  have hp := hc.ftr_pos
  rw [← Cfg.fta_eq] at hp
  obtain ⟨bs, a, rfl⟩ : ∃ bs a, as = bs ++ [a] :=
    ⟨as.dropLast, as.getLast (by rintro rfl; simp at hl; omega), (List.dropLast_append_getLast _).symm⟩
  rw [List.length_append, List.length_singleton] at hl
  obtain ⟨p1, p2, p3⟩ := Rx.Progress.ticks hP hc h hs h0 h1 h2 h3 bs (by omega)
  have hw := (h.ticks hP hc bs).rxraw
  rw [Rx.ticks_concat]
  generalize r.ticks P c bs = t at *
  obtain ⟨p, q1, q2, q3, q4, q5, q6, q7, q8, q9, q10, S, -, q11⟩ := Rx.tick_analysis P c p2 (by omega) a
  refine ⟨p, ?_, by rw [q11 (by omega)]⟩
  have S := S hc hw (by omega)
  have e : c.fta - t.flta.toNat = bs.length := by omega
  rw [e] at S
  have := p1.succ hc (by rw [← Cfg.fta_eq]; omega) S q5 q6 ⟨q7, q8, q9, q10⟩
  rwa [show bs.length + 1 = c.ftr by rw [← Cfg.fta_eq]; omega] at this

/-! ### How far a recording has come -/

/-- What t holds after the frames fs from a locked receiver r: a first frame that does not match and live frames after it (R213,
R214, R216, R217). -/
structure Rx.Recorded (P : Params) (c : Cfg) (r : Rx) (fs : List Answer) (t : Rx) : Prop where
  going : fs.length < c.ftr → t.rxstate = .recording ∧ t.fltr.toNat = c.ftr - fs.length
  last : fs.length = c.ftr → t.rxstate = .analyzing ∧ t.flta.toNat = c.fta ∧ t.acc = Vector.replicate 256 .zero ∧
    t.facc = .zero ∧ t.rxraw = []
  rows : ∀ i a, fs[i]? = some a →
    (∀ k : Fin 256, k.val < c.ndb → (Memory.read Space.recMem t.recMem i).get k = elem (spectrum (zeroPad a)) .zero (c.db k.val)) ∧
    Memory.read Space.recf t.recf i = (r.ticks P c (fs.take i)).floor
  payload : t.rxdata = r.rxdata ∧ t.rxlen = r.rxlen ∧ t.rxcount = r.rxcount ∧ t.rxtSum = r.rxtSum

theorem Rx.Recorded.ticks (hP : P.Admitted) (hc : c.Legal) {r : Rx} (h : r.Wf c) (hs : r.rxstate = .markerLocked) {first : Answer}
    (hk : 0 < first.count.val) (hm : r.matchesMarker P c first = false) : ∀ frames : List Answer, (∀ a ∈ frames, 0 < a.count.val) →
      frames.length < c.ftr → Rx.Recorded P c r (first :: frames) (r.ticks P c (first :: frames)) := by
  have hp := hc.ftr_pos
  intro frames
  induction frames using List.reverseRecOn with
  | nil =>
    intro _ _
    have hcap := h.held.capture first
    have e1 := Rx.capture_spec r first
    have e2 : (r.capture first).rxdata = r.rxdata ∧ (r.capture first).rxlen = r.rxlen ∧ (r.capture first).rxcount = r.rxcount ∧
      (r.capture first).rxtSum = r.rxtSum := by simp
    rw [Rx.ticks_cons, Rx.ticks_nil, Rx.tick_locked P c hs hk, hm, Rx.lockedStep_differ]
    generalize r.capture first = q at *
    have S := Rx.recordRow_says c (r := { q with rxt := satInc q.rxt }) hcap.recMem hcap.recf (i := 0) (by omega) r.floor
    have R := S.rest
    dsimp only at S R ⊢
    generalize Rx.recordRow c { q with rxt := satInc q.rxt } 0 r.floor = u at *
    have hf : (BitVec.ofNat 16 (c.ftr - 1)).toNat = c.ftr - 1 := Rx.toNat_ftr hc (by omega)
    generalize BitVec.ofNat 16 (c.ftr - 1) = v at hf
    refine ⟨fun _ => ⟨rfl, hf⟩, fun e => by simp at e; omega, fun i a hi => ?_, ?_⟩
    · match i, hi with
      | 0, hi =>
        cases hi
        refine ⟨fun k hk => ?_, S.floor⟩
        rw [show _ = _ from S.row k, if_pos hk, ← e1]
    · rw [R]; exact e2
  | append_singleton frames a ih =>
    intro hlive hlen
    rw [List.length_append, List.length_singleton] at hlen
    have ih := ih (fun b hb => hlive b (List.mem_append_left _ hb)) (by omega)
    have hka := hlive a (by simp)
    rw [← List.cons_append, Rx.ticks_concat]
    have hw := h.ticks hP hc (first :: frames)
    have htake : ∀ i, i ≤ (first :: frames).length → (first :: frames ++ [a]).take i = (first :: frames).take i := fun i hi =>
      List.take_append_of_le_length hi
    have hfull : r.ticks P c ((first :: frames).take (frames.length + 1)) = r.ticks P c (first :: frames) := by
      rw [List.take_of_length_le (by simp)]
    generalize hfs : first :: frames = fs at *
    have hfl : fs.length = frames.length + 1 := by rw [← hfs]; rfl
    rw [← hfl] at hfull
    generalize hq : r.ticks P c fs = q at *
    obtain ⟨g1, g2⟩ := ih.going (by omega)
    have e1 := Rx.capture_spec q a
    have e2 : (q.capture a).rxdata = q.rxdata ∧ (q.capture a).rxlen = q.rxlen ∧ (q.capture a).rxcount = q.rxcount ∧
      (q.capture a).rxtSum = q.rxtSum := by simp
    have e3 := Rx.capture_fltr q a
    have e4 := Rx.capture_rxstate q a
    have e5 := Rx.capture_recMem q a
    have e6 := Rx.capture_recf q a
    rw [Rx.tick_recording P c g1 hka]
    have hcap := hw.held.capture a
    generalize q.capture a = u at *
    have S := Rx.recordStep_says (r := u) hc hcap.recMem hcap.recf (by rw [e3, g2]; omega) q.floor
    generalize u.recordStep c q.floor = t at *
    have hrow : c.ftr - u.fltr.toNat = fs.length := by rw [e3, g2]; omega
    have hrec := S.record
    rw [hrow] at hrec
    have hu : u.fltr.toNat = c.ftr - fs.length := by rw [e3, g2]
    have hpay : t.rxdata = u.rxdata ∧ t.rxlen = u.rxlen ∧ t.rxcount = u.rxcount ∧ t.rxtSum = u.rxtSum := by
      rcases Nat.lt_or_ge 1 u.fltr.toNat with h1 | h1
      · rw [S.going h1]; exact ⟨rfl, rfl, rfl, rfl⟩
      · rw [S.last (by omega)]; exact ⟨rfl, rfl, rfl, rfl⟩
    constructor
    · intro hl
      rw [List.length_append, List.length_singleton] at hl ⊢
      refine ⟨?_, by rw [S.fltr]; omega⟩
      rw [S.going (by omega)]; exact e4.trans g1
    · intro hl
      rw [List.length_append, List.length_singleton] at hl
      have L := S.last (by omega)
      refine ⟨by rw [L], ?_, by rw [L], by rw [L], by rw [L]⟩
      rw [L]
      exact Rx.toNat_ftr hc (le_refl _)
    · intro i b hi
      rcases Nat.lt_trichotomy i fs.length with hlt | rfl | hgt
      · rw [List.getElem?_append_left hlt] at hi
        have o := hrec.others i (by omega)
        rw [htake i (by omega), show _ = _ from o.1, show _ = _ from o.2, e5, e6]
        exact ih.rows i b hi
      · rw [List.getElem?_append_right (le_refl _)] at hi
        simp only [Nat.sub_self, List.getElem?_cons_zero, Option.some.injEq] at hi
        subst hi
        refine ⟨fun k hk => ?_, ?_⟩
        · rw [show _ = _ from hrec.row k, if_pos hk, e1]
        · rw [show _ = _ from hrec.floor, htake _ (le_refl _), hfull]
      · rw [List.getElem?_append_right (by omega)] at hi
        have : i - fs.length = i - fs.length - 1 + 1 := by omega
        rw [this] at hi
        simp at hi
    · obtain ⟨a1, a2, a3, a4⟩ := hpay
      obtain ⟨b1, b2, b3, b4⟩ := e2
      obtain ⟨c1, c2, c3, c4⟩ := ih.payload
      exact ⟨a1.trans (b1.trans c1), a2.trans (b2.trans c2), a3.trans (b3.trans c3), a4.trans (b4.trans c4)⟩

end Sys2Proof.Machine
end

