-- ==== Sys2Proof/Laws/SineRom.lean ====
section
/-! SUPPORT. The sine ROM against the sine (spec/41_tx.md R162): every entry is 32767 times the sine of its angle, rounded to the
nearest integer, and a template is within 1.0625 of its ideal sinusoid (R163, R176). The angles are reached one ROM step after
another by integer arithmetic with a known error. -/

namespace Sys2Proof.Machine

open Real

/-- The scale of the integer arithmetic. -/
abbrev romScale : Int := 2 ^ 90

/-- Integers that stand for a sine and a cosine at the scale, and a bound on their error. -/
structure Approx where
  s : Int
  c : Int
  e : Int

/-- The angle x, as far as a says. -/
structure Approx.Of (a : Approx) (x : ℝ) : Prop where
  sin : |sin x * romScale - a.s| ≤ a.e
  cos : |cos x * romScale - a.c| ≤ a.e

/-- The sum of two angles. -/
def Approx.add (a b : Approx) : Approx where
  s := (a.s * b.c + a.c * b.s) / romScale
  c := (a.c * b.c - a.s * b.s) / romScale
  e := (a.e * (|b.c| + |b.s|) + b.e * (|a.c| + |a.s|) + a.e * b.e * 2) / romScale + 2

/-- A product of two approximations, at the square of the scale. -/
theorem approx_prod {x y : ℝ} {p q e e' : Int} (h : |x * romScale - p| ≤ e) (h' : |y * romScale - q| ≤ e') :
    |x * y * romScale * romScale - p * q| ≤ e * |(q : ℝ)| + e' * |(p : ℝ)| + e * e' := by
  have h0 : (0 : ℝ) ≤ e := (abs_nonneg _).trans h
  have e1 : x * y * romScale * romScale - p * q =
      (x * romScale - p) * q + (y * romScale - q) * p + (x * romScale - p) * (y * romScale - q) := by ring
  rw [e1]
  refine (abs_add_le _ _).trans (add_le_add ((abs_add_le _ _).trans (add_le_add ?_ ?_)) ?_)
  · rw [abs_mul]; exact mul_le_mul_of_nonneg_right h (abs_nonneg _)
  · rw [abs_mul]; exact mul_le_mul_of_nonneg_right h' (abs_nonneg _)
  · rw [abs_mul]; exact mul_le_mul h h' (abs_nonneg _) h0

/-- Rounding the value and the error down to the scale costs less than 2. -/
theorem approx_div {x : ℝ} {p E : Int} (h : |x * romScale * romScale - p| ≤ E) :
    |x * romScale - (p / romScale : Int)| ≤ (E / romScale + 2 : Int) := by
  have hd : ∀ v : Int, v / romScale * romScale ≤ v ∧ v < v / romScale * romScale + romScale := by
    intro v; unfold romScale; omega
  have cast : ∀ v : Int, ((v / romScale : Int) : ℝ) * romScale ≤ v ∧ (v : ℝ) < ((v / romScale : Int) : ℝ) * romScale + romScale := by
    intro v; exact ⟨by exact_mod_cast (hd v).1, by exact_mod_cast (hd v).2⟩
  obtain ⟨p1, p2⟩ := cast p
  obtain ⟨-, E2⟩ := cast E
  have hD : (0 : ℝ) < (romScale : Int) := by norm_num
  generalize ((p / romScale : Int) : ℝ) = p' at *
  push_cast only [Int.cast_add, Int.cast_ofNat] at *
  generalize ((E / romScale : Int) : ℝ) = E' at *
  generalize ((romScale : Int) : ℝ) = D at *
  rw [abs_le] at h ⊢
  constructor <;> by_contra hn <;> rw [not_le] at hn <;> nlinarith

theorem Approx.Of.add {a b : Approx} {x y : ℝ} (h : a.Of x) (h' : b.Of y) : (a.add b).Of (x + y) := by
  have p1 := approx_prod h.sin h'.cos
  have p2 := approx_prod h.cos h'.sin
  have p3 := approx_prod h.cos h'.cos
  have p4 := approx_prod h.sin h'.sin
  constructor
  · apply approx_div
    rw [sin_add]
    refine le_trans ?_ ((add_le_add p1 p2).trans (le_of_eq ?_))
    · refine le_trans (le_of_eq ?_) (abs_add_le _ _)
      congr 1; push_cast; ring
    · push_cast; ring
  · apply approx_div
    rw [cos_add]
    refine le_trans ?_ ((add_le_add p3 p4).trans (le_of_eq ?_))
    · refine le_trans (le_of_eq ?_) (abs_sub _ _)
      congr 1; push_cast; ring
    · push_cast; ring

/-- pi / 2^15. -/
def romSeed : Approx := ⟨118686014619312851348134, 1237940033595940696909973142, 2 ^ 34⟩

theorem romSeed_of : romSeed.Of (π / 2 ^ 15) := by
  have l := pi_gt_d20
  have u := pi_lt_d20
  have hx : |π / 2 ^ 15| ≤ 1 := by rw [abs_of_pos (by positivity)]; linarith
  have hs := sin_bound hx
  have hc := cos_bound hx
  rw [abs_of_pos (show (0 : ℝ) < π / 2 ^ 15 by positivity)] at hs hc
  have hl : (3.14159265358979323846 : ℝ) / 2 ^ 15 < π / 2 ^ 15 := by linarith
  have hu : π / 2 ^ 15 < (3.14159265358979323847 : ℝ) / 2 ^ 15 := by linarith
  generalize π / 2 ^ 15 = x at *
  have x0 : 0 ≤ x := le_trans (by norm_num) hl.le
  have hpow : ∀ n, ((3.14159265358979323846 : ℝ) / 2 ^ 15) ^ n ≤ x ^ n ∧ x ^ n ≤ (3.14159265358979323847 / 2 ^ 15) ^ n := fun n =>
    ⟨pow_le_pow_left₀ (by norm_num) hl.le n, pow_le_pow_left₀ x0 hu.le n⟩
  have h2 := hpow 2
  have h3 := hpow 3
  have h4 := hpow 4
  have h5 := hpow 5
  rw [abs_le] at hs hc
  constructor <;> simp only [romSeed, abs_le] <;> norm_num at * <;> constructor <;> linarith

def Approx.double (a : Approx) : Approx := a.add a

/-- One step of the ROM: 2 pi / 1024. -/
def romStep : Approx := romSeed.double.double.double.double.double.double

theorem romStep_of : romStep.Of (2 * π / 1024) := by
  have d : ∀ {a : Approx} {x : ℝ}, a.Of x → a.double.Of (2 * x) := fun h => by rw [two_mul]; exact h.add h
  have := d (d (d (d (d (d romSeed_of)))))
  have e : 2 * (2 * (2 * (2 * (2 * (2 * (π / 2 ^ 15)))))) = 2 * π / 1024 := by ring
  rwa [e] at this

/-- The entries p, p + 1, ... of the quarter wave round 32767 times the sine, from the angle a on. -/
def romRounds : Nat → Nat → Approx → Bool
  | 0, _, _ => true
  | n + 1, p, a =>
    decide (2 * (|32767 * a.s - quarter p * romScale| + 32767 * a.e) ≤ romScale) && romRounds n (p + 1) (a.add romStep)

theorem romRounds_says : ∀ (n p : Nat) (a : Approx), a.Of (2 * π / 1024 * p) → romRounds n p a = true →
    ∀ q, p ≤ q → q < p + n → |(quarter q : ℝ) - 32767 * sin (2 * π / 1024 * q)| ≤ 1 / 2 := by
  intro n
  induction n with
  | zero => intro p a _ _ q h1 h2; omega
  | succ n ih =>
    intro p a ha h q h1 h2
    simp only [romRounds, Bool.and_eq_true, decide_eq_true_eq] at h
    rcases Nat.eq_or_lt_of_le h1 with rfl | h3
    · have hs := ha.sin
      have i4 : 2 * (32767 * a.s - quarter p * romScale + 32767 * a.e) ≤ romScale := by
        have := le_abs_self (32767 * a.s - quarter p * romScale); linarith [h.1]
      have i5 : 2 * (-(32767 * a.s - quarter p * romScale) + 32767 * a.e) ≤ romScale := by
        have := neg_le_abs (32767 * a.s - quarter p * romScale); linarith [h.1]
      have h4 : (2 : ℝ) * (32767 * a.s - quarter p * (romScale : Int) + 32767 * a.e) ≤ (romScale : Int) := by exact_mod_cast i4
      have h5 : (2 : ℝ) * (-(32767 * a.s - quarter p * (romScale : Int)) + 32767 * a.e) ≤ (romScale : Int) := by exact_mod_cast i5
      have hD : (0 : ℝ) < (romScale : Int) := by norm_num
      generalize ((romScale : Int) : ℝ) = D at *
      rw [abs_le] at hs
      rw [abs_le]
      constructor <;> by_contra hn <;> rw [not_le] at hn <;> nlinarith
    · refine ih (p + 1) (a.add romStep) ?_ h.2 q h3 (by omega)
      have := ha.add romStep_of
      rwa [show 2 * π / 1024 * (p : ℝ) + 2 * π / 1024 = 2 * π / 1024 * ((p + 1 : Nat) : ℝ) by push_cast; ring] at this

theorem romRounds_all : romRounds 257 0 ⟨0, romScale, 0⟩ = true := by decide +kernel

/-- The quarter wave is the sine, scaled and rounded to the nearest integer (R162). -/
theorem quarter_rounds {p : Nat} (h : p ≤ 256) : |(quarter p : ℝ) - 32767 * sin (2 * π / 1024 * p)| ≤ 1 / 2 :=
  romRounds_says 257 0 ⟨0, romScale, 0⟩ ⟨by simp, by simp⟩ romRounds_all p (Nat.zero_le _) (by omega)

/-- The whole ROM (R162). -/
theorem sinq_rounds {p : Nat} (h : p < 1024) : |(sinq p : ℝ) - 32767 * sin (2 * π * p / 1024)| ≤ 1 / 2 := by
  have key : ∀ (q : Nat) (σ : ℝ), q ≤ 256 → (σ = 1 ∨ σ = -1) → sin (2 * π * p / 1024) = σ * sin (2 * π / 1024 * q) →
      (sinq p : ℝ) = σ * quarter q → |(sinq p : ℝ) - 32767 * sin (2 * π * p / 1024)| ≤ 1 / 2 := by
    intro q σ hq hσ e1 e2
    rw [e1, e2, show σ * (quarter q : ℝ) - 32767 * (σ * sin (2 * π / 1024 * q)) =
      σ * ((quarter q : ℝ) - 32767 * sin (2 * π / 1024 * q)) by ring, abs_mul]
    have : |σ| = 1 := by rcases hσ with rfl | rfl <;> simp
    rw [this, one_mul]
    exact quarter_rounds hq
  rcases Nat.lt_or_ge 256 p with h1 | h1
  · rcases Nat.lt_or_ge 512 p with h2 | h2
    · rcases Nat.lt_or_ge 768 p with h3 | h3
      · refine key (1024 - p) (-1) (by omega) (.inr rfl) ?_ ?_
        · have : 2 * π / 1024 * ((1024 - p : Nat) : ℝ) = 2 * π - 2 * π * p / 1024 := by
            rw [Nat.cast_sub (by omega)]; push_cast; ring
          rw [this, sin_two_pi_sub]; ring
        · rw [sinq, if_neg (by omega), if_neg (by omega), if_neg (by omega)]; push_cast; ring
      · refine key (p - 512) (-1) (by omega) (.inr rfl) ?_ ?_
        · have : 2 * π / 1024 * ((p - 512 : Nat) : ℝ) = 2 * π * p / 1024 - π := by
            rw [Nat.cast_sub (by omega)]; push_cast; ring
          rw [this, sin_sub_pi]; ring
        · rw [sinq, if_neg (by omega), if_neg (by omega), if_pos h3]; push_cast; ring
    · refine key (512 - p) 1 (by omega) (.inl rfl) ?_ ?_
      · have : 2 * π / 1024 * ((512 - p : Nat) : ℝ) = π - 2 * π * p / 1024 := by
          rw [Nat.cast_sub (by omega)]; push_cast; ring
        rw [this, sin_pi_sub]; ring
      · rw [sinq, if_neg (by omega), if_pos h2]; push_cast; ring
  · refine key p 1 h1 (.inl rfl) ?_ ?_
    · rw [one_mul]; congr 1; ring
    · rw [sinq, if_pos h1]; push_cast; ring

/-- A template is within 1.0625 of its ideal sinusoid, whose amplitude is A x 32767 / 32768 (R163, R176). -/
theorem template_near_sine {A : Nat} (hA : A ≤ 4095) (b n : Nat) :
    |(template A b n : ℝ) - A * 32767 / 32768 * sin (2 * π * b * n / 1024)| < 1.0625 := by
  have hp := sinq_rounds (p := phase b n) (Nat.mod_lt _ (by norm_num))
  have e : sin (2 * π * b * n / 1024) = sin (2 * π * (phase b n : Nat) / 1024) := by
    have h1 : (b * n : ℝ) = phase b n + 1024 * ((b * n / 1024 : Nat) : ℝ) := by
      have := Nat.mod_add_div (b * n) 1024
      unfold phase
      exact_mod_cast this.symm
    have h2 : 2 * π * b * n / 1024 = 2 * π * (phase b n : Nat) / 1024 + ((b * n / 1024 : Nat) : ℝ) * (2 * π) := by
      rw [mul_assoc, h1]; ring
    rw [h2, sin_add_nat_mul_two_pi]
  rw [e]
  generalize sin (2 * π * (phase b n : Nat) / 1024) = y at *
  have hf : template A b n * 32768 ≤ A * sinq (phase b n) ∧ (A : Int) * sinq (phase b n) < template A b n * 32768 + 32768 := by
    unfold template asr; omega
  have f1 : (template A b n : ℝ) * 32768 ≤ A * sinq (phase b n) := by exact_mod_cast hf.1
  have f2 : (A : ℝ) * sinq (phase b n) < template A b n * 32768 + 32768 := by exact_mod_cast hf.2
  have hA' : (A : ℝ) ≤ 4095 := by exact_mod_cast hA
  have hA0 : (0 : ℝ) ≤ A := Nat.cast_nonneg _
  rw [abs_le] at hp
  rw [abs_lt]
  constructor <;> nlinarith

end Sys2Proof.Machine
end

