-- ==== Sys2Proof/Laws/Tone.lean ====
section
/-! SUPPORT. The tone generator's bounds, and what a rebuild leaves in the tone table (spec/41_tx.md R161 to R174). -/

namespace Sys2Proof.Machine

/-! ### The sine ROM -/

theorem quarter_rows_le : ∀ l ∈ quarterLow ++ quarterHigh, ∀ v ∈ l, v ≤ 32767 := by decide

theorem quarter_le (p : Nat) : quarter p ≤ 32767 := by
  have key : ∀ (l : List (List Nat)), (∀ r ∈ l, ∀ v ∈ r, v ≤ 32767) → ∀ i j, (l.getD i []).getD j 0 ≤ 32767 := by
    intro l hl i j
    simp only [List.getD_eq_getElem?_getD]
    cases hi : l[i]? with
    | none => simp
    | some r =>
      cases hj : r[j]? with
      | none => simp [hj]
      | some v => simpa [hj] using hl r (List.mem_of_getElem? hi) v (List.mem_of_getElem? hj)
  exact key _ quarter_rows_le _ _

theorem sinq_bounds (p : Nat) : -32767 ≤ sinq p ∧ sinq p ≤ 32767 := by
  have h := quarter_le
  have h1 := h p; have h2 := h (512 - p); have h3 := h (p - 512); have h4 := h (1024 - p)
  unfold sinq
  split
  · omega
  · split
    · omega
    · split <;> omega

/-! ### Products -/

/-- A gain in Q15 of at most 1 does not enlarge a value. -/
theorem asr_mul_bounds {v M g : Int} (hv : -M ≤ v ∧ v ≤ M) (hg : 0 ≤ g ∧ g ≤ 32768) :
    -M ≤ asr (v * g) 15 ∧ asr (v * g) 15 ≤ M := by
  have hM : 0 ≤ M := by omega
  have h1 : v * g ≤ M * 32768 :=
    (mul_le_mul_of_nonneg_right hv.2 hg.1).trans (mul_le_mul_of_nonneg_left hg.2 hM)
  have h2 : -M * 32768 ≤ v * g := by
    have h3 : -M * g ≤ v * g := mul_le_mul_of_nonneg_right hv.1 hg.1
    have h4 : M * g ≤ M * 32768 := mul_le_mul_of_nonneg_left hg.2 hM
    have h5 : -M * g = -(M * g) := by ring
    omega
  unfold asr
  norm_num only
  constructor
  · exact (Int.le_ediv_iff_mul_le (by norm_num)).2 h2
  · exact Int.ediv_le_of_le_mul (by norm_num) h1

theorem template_bounds (A b n : Nat) : -(A : Int) ≤ template A b n ∧ template A b n ≤ A := by
  have h := sinq_bounds (phase b n)
  have h0 : (0 : Int) ≤ A := by omega
  have h1 : (A : Int) * sinq (phase b n) ≤ A * 32768 := mul_le_mul_of_nonneg_left (by omega) h0
  have h2 : (A : Int) * (-32768) ≤ A * sinq (phase b n) := mul_le_mul_of_nonneg_left (by omega) h0
  unfold template asr
  norm_num only
  constructor
  · exact (Int.le_ediv_iff_mul_le (by norm_num)).2 (by omega)
  · exact Int.ediv_le_of_le_mul (by norm_num) h1

/-! ### Sums of templates -/

theorem sumOver_bounds (l : List Nat) (f : Nat → Int) {A : Int} (h : ∀ k ∈ l, -A ≤ f k ∧ f k ≤ A) :
    -(l.length * A) ≤ sumOver l f ∧ sumOver l f ≤ l.length * A := by
  unfold sumOver
  induction l with
  | nil => simp
  | cons a l ih =>
    have h1 := h a (List.mem_cons_self ..)
    have h2 := ih fun k hk => h k (List.mem_cons_of_mem _ hk)
    have h3 : ((a :: l).length : Int) * A = l.length * A + A := by
      simp only [List.length_cons]; push_cast; ring
    rw [h3]
    simp only [List.map_cons, List.sum_cons]
    omega

theorem bitAmplitude_bounds (c : Cfg) (k : Nat) (b : Bool) (n : Nat) :
    -(c.amp : Int) ≤ bitAmplitude c k b n ∧ bitAmplitude c k b n ≤ c.amp := by
  unfold bitAmplitude tone
  split
  · exact template_bounds ..
  · omega

theorem dataWave_bounds {c : Cfg} (h : c.Legal) (enc : ByteMem) (g n : Nat) :
    -32767 ≤ dataWave c enc g n ∧ dataWave c enc g n ≤ 32767 := by
  have h1 := sumOver_bounds (List.range c.ndb) (fun k => bitAmplitude c k (groupBit c enc g k) n) (A := c.amp)
    (fun k _ => bitAmplitude_bounds ..)
  have h2 := h.ndb_mul_amp_le
  rw [List.length_range] at h1
  unfold dataWave
  have h3 : (c.ndb : Int) * c.amp ≤ 32767 := by exact_mod_cast h2
  omega

theorem startMarker_bounds {c : Cfg} (h : c.Legal) (n : Nat) : -32767 ≤ startMarker c n ∧ startMarker c n ≤ 32767 := by
  have h1 := sumOver_bounds [0, 2, 4, 6, 8, 10, 12, 14] (fun j => tone c (c.mb j) n) (A := c.amp)
    (fun k _ => template_bounds ..)
  have h2 := h.eight_mul_amp_le
  simp only [List.length_cons, List.length_nil] at h1
  unfold startMarker
  push_cast at h1
  omega

theorem postMarker_bounds {c : Cfg} (h : c.Legal) (n : Nat) : -32767 ≤ postMarker c n ∧ postMarker c n ≤ 32767 := by
  have h1 := sumOver_bounds [1, 3, 5, 7, 9, 11, 13, 15] (fun j => tone c (c.mb j) n) (A := c.amp)
    (fun k _ => template_bounds ..)
  have h2 := h.eight_mul_amp_le
  simp only [List.length_cons, List.length_nil] at h1
  unfold postMarker
  push_cast at h1
  omega

/-! ### Gains -/

theorem rampGain_le {F j n : Nat} (hj : j < F) (hn : n < 1024) : rampGain F j n ≤ 32768 := by
  unfold rampGain
  apply Nat.div_le_of_le_mul
  have : (j + 1) * 1024 ≤ F * 1024 := Nat.mul_le_mul_right _ hj
  exact Nat.mul_le_mul_right _ (by omega)

theorem blend_bounds {c : Cfg} (h : c.Legal) (enc : ByteMem) (g i n : Nat) (hi : i < c.nbl) (hn : n < 1024) :
    -32767 ≤ blend c enc g i n ∧ blend c enc g i n ≤ 32767 := by
  have hg := rampGain_le hi hn
  have h1 := dataWave_bounds h enc (g - 1) n
  have h2 := dataWave_bounds h enc g n
  unfold blend asr
  generalize dataWave c enc (g - 1) n = a at *
  generalize dataWave c enc g n = b at *
  generalize (rampGain c.nbl i n) = w at *
  have hw : (0 : Int) ≤ w := by omega
  have hw' : (0 : Int) ≤ 32768 - w := by omega
  have a1 := mul_le_mul_of_nonneg_right h1.2 hw'
  have a2 := mul_le_mul_of_nonneg_right h1.1 hw'
  have b1 := mul_le_mul_of_nonneg_right h2.2 hw
  have b2 := mul_le_mul_of_nonneg_right h2.1 hw
  norm_num only
  constructor
  · exact (Int.le_ediv_iff_mul_le (by norm_num)).2 (by linarith)
  · exact Int.ediv_le_of_le_mul (by norm_num) (by linarith)

/-- What a segment can be, with the range of its index (R156). -/
theorem segment_cases (c : Cfg) (G f : Nat) :
    segment c G f = .marker ∨ (∃ j < 2, segment c G f = .rampUp j) ∨ (∃ g, segment c G f = .data g) ∨
    (∃ g i, 1 ≤ g ∧ i < c.nbl ∧ segment c G f = .blend g i) ∨ (∃ j < 2, segment c G f = .rampDown j) ∨
    segment c G f = .post := by
  unfold segment
  dsimp only
  split
  · simp
  · split
    · exact .inr (.inl ⟨f - 16, by omega, rfl⟩)
    · split
      · split
        · rename_i h
          exact .inr (.inr (.inr (.inl ⟨_, _, h.1, h.2, rfl⟩)))
        · exact .inr (.inr (.inl ⟨_, rfl⟩))
      · split
        · exact .inr (.inr (.inr (.inr (.inl ⟨f - 18 - G * c.fpt.toNat, by omega, rfl⟩))))
        · simp

/-- A gain of the ramp of two frames is at most 1. -/
theorem rampGain_two {j n : Nat} (hj : j < 2) (hn : n < 1024) : 0 ≤ (rampGain 2 j n : Int) ∧ (rampGain 2 j n : Int) ≤ 32768 := by
  have := rampGain_le hj hn; omega

theorem sat16_eq_self {v : Int} (h : -32768 ≤ v ∧ v ≤ 32767) : sat16 v = v := by unfold sat16; omega

theorem toInt_ofInt_sat16 (v : Int) : (BitVec.ofInt 16 (sat16 v)).toInt = sat16 v := by
  rw [BitVec.toInt_ofInt]
  have h : -32768 ≤ sat16 v ∧ sat16 v ≤ 32767 := by unfold sat16; omega
  norm_num [Int.bmod]
  omega

theorem toInt_txFrame (c : Cfg) (t : Tx) (n : Fin 1024) :
    ((txFrame c t).get n).toInt = frameSample c t.enc t.ngrp.toNat t.frameid.toNat n.val := by
  have : (txFrame c t).get n = BitVec.ofInt 16 (frameSample c t.enc t.ngrp.toNat t.frameid.toNat n.val) := by
    simp [txFrame, Vector.get_eq_getElem]
  rw [this]
  exact toInt_ofInt_sat16 _

/-! ### The tone table -/

/-- A template's samples fit in 16 bits (41_tx.md R163). -/
theorem toInt_ofInt_tone {c : Cfg} (h : c.Legal) (b n : Nat) : (BitVec.ofInt 16 (tone c b n)).toInt = tone c b n := by
  have h1 := template_bounds c.amp b n
  have h2 := h.amp_le
  have e : sat16 (tone c b n) = tone c b n := sat16_eq_self (by unfold tone; omega)
  rw [← e]
  exact toInt_ofInt_sat16 _

/-- Row s of the tone table is the template of slot s (41_tx.md R165). -/
theorem toInt_toneRow {c : Cfg} (h : c.Legal) (s : Nat) (n : Fin 1024) :
    ((toneRow c s).get n).toInt = tone c (c.slotBin s) n.val := by
  rw [toneRow, Vector.get_ofFn]
  exact toInt_ofInt_tone h _ _

theorem wf_rebuildTone (c : Cfg) {m : RowMem Frame} (h : Memory.wf Space.tone m) : Memory.wf Space.tone (rebuildTone c m) :=
  Memory.wf_writeN _ h _

theorem read_rebuildTone {c : Cfg} (hc : c.ndb ≤ 256) {m : RowMem Frame} (h : Memory.wf Space.tone m) (s : Nat) :
    Memory.read Space.tone (rebuildTone c m) s = if s < 16 + c.ndb then toneRow c s else Memory.read Space.tone m s := by
  have hsz : 0 + ((List.range (Config.markerBits + c.ndb)).map (toneRow c)).length ≤ Space.tone.size := by
    simp only [List.length_map, List.length_range, Space.tone, Config.markerBits]; omega
  rw [rebuildTone, Memory.read_writeN _ h _ _ hsz]
  by_cases hs : s < 16 + c.ndb <;> simp [hs]

end Sys2Proof.Machine
end

