-- ==== Sys2Proof/Laws/Transmit.lean ====
section
/-! SUPPORT. What the transmit operations can do: the size of a session, the cursor, the tone table, and that each keeps the Tx
part of the invariant (spec/41_tx.md R150 to R175). -/

namespace Sys2Proof.Machine

/-! ### The size of a session -/

theorem copiedLength_le (len : Nat) : copiedLength len ≤ 140 := by simp only [copiedLength, Config.maxLength]; omega

@[simp] theorem length_stagedText (t : Tx) (len : Nat) : (stagedText t len).length = copiedLength len := by
  simp [stagedText]

@[simp] theorem length_fixedPayload (text : List Byte) : (fixedPayload text).length = 32 := by
  simp only [fixedPayload, List.length_append, List.length_take, List.length_replicate, Config.fixedLength]; omega

theorem length_codeword {P : Params} (hP : P.Admitted) (c : Cfg) (text : List Byte) :
    (codeword P c text).length = match c.mode with
      | .variable => 3 + text.length + c.ecc.toNat
      | .fixed => 32 + c.ecc.toNat := by
  unfold codeword
  cases c.mode
  · simp only [List.length_append, hP.enc_length, Config.lenEcc, List.length_singleton]; omega
  · simp only [hP.enc_length, length_fixedPayload]

theorem length_codeword_le_encmax {P : Params} (hP : P.Admitted) (c : Cfg) {text : List Byte} (ht : text.length ≤ 140) :
    (codeword P c text).length ≤ c.encmax := by
  rw [length_codeword hP, Cfg.encmax]
  cases c.mode <;> simp only [Config.maxLength, Config.fixedLength] <;> omega

theorem length_codeword_pos {P : Params} (hP : P.Admitted) {c : Cfg} (hc : c.Legal) (text : List Byte) :
    1 ≤ (codeword P c text).length := by
  have := hc.2.2.2.2.2.2.2.1
  rw [length_codeword hP]
  cases c.mode <;> simp only <;> omega

/-- A session's groups and frames (41_tx.md R156; 10_state.md R54). -/
theorem session_size {c : Cfg} (hc : c.Legal) {n : Nat} (h1 : 1 ≤ n) (hn : n ≤ c.encmax) :
    1 ≤ ceilDiv n c.bpt.toNat ∧ ceilDiv n c.bpt.toNat ≤ 207 ∧
    sessionFrames c (ceilDiv n c.bpt.toNat) = 28 + ceilDiv n c.bpt.toNat * c.fpt.toNat ∧
    29 ≤ sessionFrames c (ceilDiv n c.bpt.toNat) ∧ sessionFrames c (ceilDiv n c.bpt.toNat) ≤ 3133 := by
  have e1 := ceilDiv_pos hc.bpt_pos h1
  have e2 := (ceilDiv_le_self n hc.bpt_pos).trans (hn.trans hc.encmax_le)
  have e3 := Nat.mul_le_mul e1 hc.fpt_pos
  have e4 := Nat.mul_le_mul e2 c.fpt_le
  simp only [sessionFrames, Config.markerFrames, Config.rampBegin, Config.rampEnd, Config.postFrames]
  omega

/-! ### INIT -/

/-- Everything INIT writes, with its values as numbers (R152). -/
structure Tx.InitSays (c : Cfg) (t : Tx) (text cw : List Byte) (t' : Tx) : Prop where
  txtext  : ∀ a, Memory.read Space.txtext t'.txtext a = text.getD a 0
  txlen   : t'.txlen.toNat = text.length
  sdl     : t'.sdl.toNat = sendLength c.mode text.length
  enclen  : t'.enclen.toNat = cw.length
  enc     : ∀ a, Memory.read Space.enc t'.enc a = cw.getD a 0
  ngrp    : t'.ngrp.toNat = ceilDiv cw.length c.bpt.toNat
  total   : t'.total.toNat = 28 + ceilDiv cw.length c.bpt.toNat * c.fpt.toNat
  frameid : t'.frameid = 0
  hasdata : t'.hasdata = true
  txstage : t'.txstage = t.txstage
  ttDirty : t'.ttDirty = t.ttDirty
  tone    : t'.tone = t.tone
  wfText  : Memory.wf Space.txtext t'.txtext
  wfEnc   : Memory.wf Space.enc t'.enc

theorem Tx.startSession_says {c : Cfg} (hc : c.Legal) (t : Tx) {text cw : List Byte} (ht : text.length ≤ 140)
    (h1 : 1 ≤ cw.length) (hcw : cw.length ≤ c.encmax) : Tx.InitSays c t text cw (t.startSession c text cw) := by
  have hs := session_size hc h1 hcw
  have hle := hcw.trans hc.encmax_le
  have hsdl : sendLength c.mode text.length ≤ 140 := by
    unfold sendLength; cases c.mode <;> simp only [Config.fixedLength] <;> omega
  constructor
  · exact fun a => Memory.read_fill _ (by simp only [Space.txtext]; omega) a
  · simp only [startSession, BitVec.toNat_ofNat]; omega
  · simp only [startSession, BitVec.toNat_ofNat]; omega
  · simp only [startSession, BitVec.toNat_ofNat]; omega
  · exact fun a => Memory.read_fill _ (by simp only [Space.enc]; omega) a
  · simp only [startSession, BitVec.toNat_ofNat]; omega
  · simp only [startSession, BitVec.toNat_ofNat]; omega
  · rfl
  · rfl
  · rfl
  · rfl
  · rfl
  · exact Memory.wf_fill _ _
  · exact Memory.wf_fill _ _

theorem Tx.init_says {P : Params} (hP : P.Admitted) {c : Cfg} (hc : c.Legal) (t : Tx) (len : Nat) :
    Tx.InitSays c t (stagedText t len) (codeword P c (stagedText t len)) (t.init P c len) :=
  have ht : (stagedText t len).length ≤ 140 := by simpa using copiedLength_le len
  Tx.startSession_says hc t ht (length_codeword_pos hP hc _) (length_codeword_le_encmax hP c ht)

/-! ### The Tx part of the invariant -/

theorem Tx.Wf.reset : Tx.Wf Cfg.reset Tx.reset where
  txstage := Memory.wf_nil _
  txtext := Memory.wf_nil _
  enc := Memory.wf_nil _
  tone := Memory.wf_nil _
  txlen := by decide
  sdl := by decide
  enclen := by decide
  ngrp := by decide
  total := by decide
  frameid := by decide
  session h := by cases h
  coherent h := by cases h

variable {c : Cfg} {t : Tx}

/-- AbortSessions keeps the invariant, whatever the new configuration, as long as the tone table is coherent with it (R134). -/
theorem Tx.Wf.abort {c' : Cfg} (h : t.Wf c) (hc : ToneCoherent c' t) : t.abort.Wf c' :=
  { h with
    frameid := Nat.zero_le _
    session := fun e => by cases e
    coherent := hc }

theorem Tx.Wf.setTtDirty (h : t.Wf c) : Tx.Wf c { t with ttDirty := true } :=
  { h with coherent := fun e => by cases e }

theorem Tx.Wf.setTxstage (h : t.Wf c) {m : ByteMem} (hm : Memory.wf Space.txstage m) : Tx.Wf c { t with txstage := m } :=
  { h with txstage := hm }

theorem Tx.Wf.init {P : Params} (hP : P.Admitted) (hc : c.Legal) (h : t.Wf c) (len : Nat) : (t.init P c len).Wf c := by
  have s := Tx.init_says hP hc t len
  have ht : (stagedText t len).length ≤ 140 := by simpa using copiedLength_le len
  have h1 := length_codeword_pos hP hc (stagedText t len)
  have h2 := length_codeword_le_encmax hP c ht
  have hs := session_size hc h1 h2
  have h3 := h2.trans hc.encmax_le
  constructor
  · exact h.txstage
  · exact s.wfText
  · exact s.wfEnc
  · exact h.tone
  · rw [s.txlen]; exact ht
  · rw [s.sdl]; unfold sendLength; cases c.mode <;> simp only [Config.fixedLength] <;> omega
  · rw [s.enclen]; exact h3
  · rw [s.ngrp]; exact hs.2.1
  · rw [s.total, ← hs.2.2.1]; exact hs.2.2.2.2
  · rw [s.frameid]; exact Nat.zero_le _
  · intro _
    have h29 := hs.2.2.2.1
    rw [hs.2.2.1] at h29
    rw [s.total, s.ngrp, s.frameid, s.enclen]
    exact ⟨Nat.lt_of_lt_of_le (by decide) h29, h29, rfl, rfl⟩
  · exact h.coherent

/-- The tone table after SEND's refresh: clean, with every row of the configuration, the other rows as before (R166). -/
theorem Tx.refreshTone_cases (c : Cfg) (t : Tx) :
    (t.ttDirty = false ∧ t.refreshTone c = t) ∨
    (t.ttDirty = true ∧ t.refreshTone c = { t with tone := rebuildTone c t.tone, ttDirty := false }) := by
  unfold refreshTone
  cases h : t.ttDirty <;> simp

theorem Tx.Wf.refreshTone (hc : c.Legal) (h : t.Wf c) : (t.refreshTone c).Wf c := by
  rcases t.refreshTone_cases c with ⟨-, e⟩ | ⟨-, e⟩ <;> rw [e]
  · exact h
  · exact { h with
      tone := wf_rebuildTone c h.tone
      coherent := fun _ s hs => by rw [read_rebuildTone hc.ndb_le h.tone, if_pos hs] }

/-- The cursor after a frame: the next frame, or the end of the session (R175). -/
theorem Tx.advance_cases (h : t.Wf c) (hd : t.hasdata = true) :
    (t.frameid.toNat + 1 = t.total.toNat ∧ t.advance = { t with hasdata := false, frameid := 0 }) ∨
    (t.frameid.toNat + 1 < t.total.toNat ∧ t.advance = { t with frameid := t.frameid + 1 } ∧
      t.advance.frameid.toNat = t.frameid.toNat + 1) := by
  have h1 := (h.session hd).1
  have h2 := h.total
  unfold advance
  split
  · exact .inl ⟨‹_›, rfl⟩
  · refine .inr ⟨by omega, rfl, ?_⟩
    have h1 : (1 : BitVec 16).toNat = 1 := rfl
    simp only [BitVec.toNat_add, h1]
    omega

theorem Tx.Wf.advance (h : t.Wf c) (hd : t.hasdata = true) : t.advance.Wf c := by
  rcases Tx.advance_cases h hd with ⟨-, e⟩ | ⟨hlt, e, hf⟩
  · rw [e]
    exact { h with frameid := Nat.zero_le _, session := fun e => (by cases e), coherent := h.coherent }
  · have hs := h.session hd
    rw [e] at hf ⊢
    exact { h with
      frameid := by rw [hf]; simp only; omega
      session := fun _ => ⟨by rw [hf]; exact hlt, hs.2⟩
      coherent := h.coherent }

end Sys2Proof.Machine
end

