-- ==== Sys2Proof/Tests/Slice0.lean ====
section
/-! SUPPORT. The tests of the model, one step or one definition each, with expected results worked out from the spec's encodings
and its vectors (spec/95_test_vectors.md, cited by their ids); and, for every obligation that has hypotheses, a state and operands
that meet them (theorems test_meets_...). -/

namespace Sys2Proof.Tests

open Sys2Proof.Machine

/-! ### Helpers -/

/-- The reset state with one command word at its port. -/
def issued (w : Nat) : State := State.reset.withFetchWord 64 w

/-- The state after a step. -/
def next (s : State) : State :=
  match step s with
  | .next t => t
  | .refused _ => s

/-- The state after issuing a list of words. -/
def script (s : State) : List Nat → State
  | [] => s
  | w :: ws => script (next (s.withFetchWord 64 w)) ws

/-- The newest response, with its status code and result as numbers. -/
def reply (s : State) : Option (Nat × Nat) := s.port.responses.head?.map fun r => (r.status.code.toNat, r.result.toNat)

/-- The test double CID of 95_test_vectors.md section 0: parity bytes 0, no errors seen. -/
def appendZeros (E : Nat) (m : List Byte) : List Byte := m ++ List.replicate E 0
def dropParity (E : Nat) (c : List Byte) : Option (List Byte) := some (c.take (c.length - E))

/-- CID with an FFT engine that hears nothing. -/
def cid : Params := ⟨{}, appendZeros, dropParity⟩

/-- "hello". -/
def hello : List Byte := [0x68, 0x65, 0x6C, 0x6C, 0x6F]

/-! ### Assembler lines that are ill formed (30_encoding.md R106, R107) -/

theorem test_setparam_fdelta_does_not_fit : (Line.setparam 256 40 6 3 50).wellFormed = false := by decide
theorem test_setparam_fstart_does_not_fit : (Line.setparam 1 1024 6 3 50).wellFormed = false := by decide
theorem test_setparam_fpt_does_not_fit : (Line.setparam 1 40 16 3 50).wellFormed = false := by decide
theorem test_setparam_bpt_does_not_fit : (Line.setparam 1 40 6 64 50).wellFormed = false := by decide
theorem test_setparam_vol_does_not_fit : (Line.setparam 1 40 6 3 128).wellFormed = false := by decide
theorem test_setecc_does_not_fit : (Line.setecc 128).wellFormed = false := by decide
theorem test_setrate_rin_does_not_fit : (Line.setrate 16777216 48000).wellFormed = false := by decide
theorem test_setrate_rout_does_not_fit : (Line.setrate 48000 16777216).wellFormed = false := by decide
theorem test_wtxb_idx_does_not_fit : (Line.wtxb 256 0).wellFormed = false := by decide
theorem test_wtxb_byte_does_not_fit : (Line.wtxb 0 256).wellFormed = false := by decide
theorem test_init_does_not_fit : (Line.init 256).wellFormed = false := by decide
theorem test_rdrx_does_not_fit : (Line.rdrx 256).wellFormed = false := by decide
theorem test_plain_needs_format_z : (Line.plain (.setecc 8)).wellFormed = false := by decide
theorem test_txload_too_long : (Line.txload (List.replicate 141 0)).wellFormed = false := by decide +kernel

/-- The greatest operands fit, and a field that fits may still be clamped or rejected by the block (R106). -/
theorem test_greatest_operands_fit :
    (Line.setparam 255 1023 15 63 127).wellFormed = true ∧ (Line.wtxb 255 255).wellFormed = true ∧
    (Line.txload (List.replicate 140 0)).wellFormed = true ∧ (Line.plain .send).wellFormed = true := by decide +kernel

/-! ### Decoding, from words written out from the formats (30_encoding.md R92, R100; vectors E1 to E13, C1 to C20) -/

theorem test_decode_configuration :
    decode 0x01010A1836400000#64 = .ok (.setparam 1 40 6 3 50) ∧
    decode 0x01FFFFFFFFE00000#64 = .ok (.setparam 255 1023 15 63 127) ∧
    decode 0x0103050C5C800000#64 = .ok (.setparam 3 20 3 5 100) ∧
    decode 0x0200000000000000#64 = .ok (.setmode 0) ∧ decode 0x0200000000000001#64 = .ok (.setmode 1) ∧
    decode 0x0300000000000008#64 = .ok (.setecc 8) ∧ decode 0x030000000000007F#64 = .ok (.setecc 127) ∧
    decode 0x04001F3F00BB8000#64 = .ok (.setrate 7999 48000) ∧
    decode 0x04FFFFFF00000100#64 = .ok (.setrate 16777215 1) := by decide

theorem test_decode_transmit :
    decode 0x0800000000008B41#64 = .ok (.wtxb 139 0x41) ∧ decode 0x0900000000000005#64 = .ok (.init 5) ∧
    decode 0x0A00000000000000#64 = .ok .send := by decide

theorem test_decode_receive :
    decode 0x1000000000000000#64 = .ok .receive ∧ decode 0x110000000000008C#64 = .ok (.rdrx 140) ∧
    decode 0x1200000000000000#64 = .ok .getrxlen := by decide

theorem test_decode_query :
    decode 0x2000000000000000#64 = .ok .gethasdata ∧ decode 0x2100000000000000#64 = .ok .getavgrxt ∧
    decode 0x2200000000000000#64 = .ok .getftr ∧ decode 0x2300000000000000#64 = .ok .getfltr ∧
    decode 0x2400000000000000#64 = .ok .getfta ∧ decode 0x2500000000000000#64 = .ok .getflta ∧
    decode 0x2600000000000000#64 = .ok .gettbc ∧ decode 0x2700000000000000#64 = .ok .getrxstate ∧
    decode 0x3000000000000000#64 = .ok .getratein ∧ decode 0x3100000000000000#64 = .ok .getrateout ∧
    decode 0x3200000000000000#64 = .ok .getspf ∧ decode 0x3300000000000000#64 = .ok .getssbin ∧
    decode 0x3400000000000000#64 = .ok .getssbout := by decide

theorem test_illegal_words :
    decode 0x01010A1836400001#64 = .error (.reservedBit 1) ∧ decode 0x0000000000000000#64 = .error (.undefinedOpcode 0) ∧
    decode 0x0500000000000000#64 = .error (.undefinedOpcode 5) ∧ decode 0xF000000000000000#64 = .error (.undefinedOpcode 0xF0) ∧
    decode 0x0A00000000000001#64 = .error (.reservedBit 0x0A) ∧ decode 0x0900000000000100#64 = .error (.reservedBit 9) ∧
    decode 0x0400BB8000BB8001#64 = .error (.reservedBit 4) ∧ decode 0x01010A1A86400001#64 = .error (.reservedBit 1) := by decide

/-- Each reserved field's ends, for the formats whose illegal words the vectors do not list (R92). -/
theorem test_reserved_field_ends :
    decode 0x01010A1836500000#64 = .error (.reservedBit 1) ∧ decode 0x0200000000000002#64 = .error (.reservedBit 2) ∧
    decode 0x0280000000000000#64 = .error (.reservedBit 2) ∧ decode 0x0300000000000080#64 = .error (.reservedBit 3) ∧
    decode 0x0400000000000080#64 = .error (.reservedBit 4) ∧ decode 0x0800000000010000#64 = .error (.reservedBit 8) ∧
    decode 0x0880000000000000#64 = .error (.reservedBit 8) ∧ decode 0x1180000000000000#64 = .error (.reservedBit 0x11) := by decide

/-- The bytes of E10 in address order (20_memory.md R65), and too few bytes. -/
theorem test_decode_bytes :
    decodeBytes [0x41, 0x8B, 0, 0, 0, 0, 0, 0x08, 0x77] = .ok (.wtxb 139 0x41, [0x77]) ∧
    decodeBytes [0x41, 0x8B, 0, 0, 0, 0, 0] = .error .truncated := by decide

theorem test_decode_table_word : decodeTableWord 64 0x0A00000000000000 = some .send ∧ decodeTableWord 64 0 = none := by decide

theorem test_no_two_rows_cover_a_word : opcodeMap.Pairwise fun r r' => r.pattern &&& r'.format.mask ≠ r'.pattern := by decide

/-! ### The assembler's text (30_encoding.md R106, R107; program P2) -/

theorem test_assemble_setparam : assembleText "SETPARAM 1, 40, 6, 3, 50   ; reset values" = some [0x01010A1836400000#64] := by
  decide +kernel

theorem test_assemble_txload : assembleText "TXLOAD \"hi\"" =
    some [0x0800000000000068#64, 0x0800000000000169#64, 0x0900000000000002#64] := by decide +kernel

theorem test_assemble_defaults : assembleText "DEFAULTS" =
    some [0x01010A1836400000#64, 0x0300000000000008#64, 0x0200000000000000#64, 0x0400BB8000BB8000#64] := by decide +kernel

theorem test_assemble_rejects : assembleText "WTXB 0, 0x100" = none ∧ assembleText "SEND 1" = none ∧
    assembleText "SETMODE FIXED" = some [0x0200000000000001#64] ∧ assembleText "WTXB 139, 0x41" = some [0x0800000000008B41#64] := by
  decide +kernel

/-! ### Configuration commands (vectors C1 to C20) -/

theorem test_setparam_clamps_bpt :
    let s := next (issued 0x01010A1A86400000)
    reply s = some (1, 0) ∧ s.cfg.bpt = 32 ∧ s.cfg.topBin = 311 ∧ s.cfg.vol = 50 := by decide +kernel

theorem test_setparam_nyquist :
    reply (next (issued 0x01013C1A06400000)) = some (0, 0) ∧ reply (next (issued 0x01013C5A06400000)) = some (2, 0) ∧
    reply (next (issued 0x0101FFDA86400000)) = some (2, 0) ∧ (next (issued 0x0101FFDA86400000)).cfg = Cfg.reset := by
  decide +kernel

theorem test_setparam_clamps_zero_fields :
    let s := next (issued 0x010000000FE00000)
    reply s = some (1, 0) ∧ s.cfg.fdelta = 1 ∧ s.cfg.fstart = 1 ∧ s.cfg.fpt = 1 ∧ s.cfg.bpt = 1 ∧ s.cfg.vol = 100 ∧
    s.cfg.amp = 4095 := by decide +kernel

theorem test_setmode_fixed :
    let s := next (issued 0x0200000000000001)
    reply s = some (0, 0) ∧ s.cfg.mode = .fixed ∧ s.cfg.ftr = 86 := by decide +kernel

theorem test_setecc_clamps :
    (next (issued 0x0300000000000001)).cfg.ecc = 2 ∧ (next (issued 0x0300000000000001)).cfg.ftr = 296 ∧
    reply (next (issued 0x0300000000000064)) = some (1, 0) ∧ (next (issued 0x0300000000000064)).cfg.ftr = 416 := by decide +kernel

theorem test_setrate :
    reply (next (issued 0x0400AC4400AC4400)) = some (0, 0) ∧ (next (issued 0x0400AC4400AC4400)).cfg.rateIn = 44100 ∧
    reply (next (issued 0x04001F3F00BB8000)) = some (2, 0) ∧ reply (next (issued 0x0402EE0100BB8000)) = some (2, 0) := by
  decide +kernel

/-- C18: HZPF = 43.06640625 Hz. -/
theorem test_hzpf : (next (issued 0x0400AC4400AC4400)).cfg.hzpf = 4306640625 / 100000000 := by decide +kernel

/-- P7's abort, from a receiver that records and a session in flight. -/
theorem test_setecc_aborts :
    let s : State := { State.reset with
      tx := { Tx.reset with hasdata := true, frameid := 20, total := 64 },
      rx := { Rx.reset with rxstate := .recording, run := 16, fltr := 304, rxt := 12, rxlen := 5 } }
    let t := next (s.withFetchWord 64 0x0300000000000008)
    t.tx.hasdata = false ∧ t.tx.frameid = 0 ∧ t.rx.rxstate = .listening ∧ t.rx.run = 0 ∧ t.rx.fltr = 0 ∧ t.rx.rxt = 0 ∧
    t.tx.total = 64 ∧ t.rx.rxlen = 5 := by decide +kernel

/-! ### Transmit commands (41_tx.md; section 2.3) -/

theorem test_wtxb :
    reply (next (issued 0x0800000000008B41)) = some (0, 0) ∧ (next (issued 0x0800000000008B41)).tx.txstage = [(139, 0x41)] ∧
    reply (next (issued 0x0800000000008C00)) = some (2, 0) ∧ (next (issued 0x0800000000008C00)).tx = Tx.reset := by decide +kernel

/-- T1 under CID: ENC, ENCLEN, NGRP, TOTAL. -/
theorem test_init_hello :
    let t := { Tx.reset with txstage := Memory.fill Space.txstage hello }.init cid Cfg.reset 5
    Memory.readN Space.enc t.enc 0 18 = [5, 0, 0, 104, 101, 108, 108, 111, 0, 0, 0, 0, 0, 0, 0, 0, 0, 0] ∧
    t.enclen = 16 ∧ t.ngrp = 6 ∧ t.total = 64 ∧ t.hasdata = true ∧ Memory.readN Space.txtext t.txtext 0 6 = hello ++ [0] := by
  decide +kernel

/-- T3, T2 and T5: INIT 200, INIT 0 and, in FixedLength mode, INIT 40. -/
theorem test_init_lengths :
    reply (State.reset.initSession cid 200) = some (1, 334) ∧ (State.reset.initSession cid 200).tx.enclen = 151 ∧
    reply (State.reset.initSession cid 0) = some (0, 52) ∧
    reply (State.initSession cid 40 { State.reset with cfg := { Cfg.reset with mode := .fixed } }) = some (1, 112) := by
  decide +kernel

/-- The tone generator's table, and A. -/
theorem test_tone_generator :
    [0, 1, 2, 128, 256, 384, 512, 640, 768, 896, 1023].map sinq =
      [0, 201, 402, 23170, 32767, 23170, 0, -23170, -32767, -23170, -201] ∧
    Cfg.reset.amp = 682 ∧ (List.range 8).map (tone Cfg.reset 40) = [0, 165, 321, 457, 567, 642, 678, 674] ∧
    tone Cfg.reset 40 32 = 681 ∧ (List.range 4).map (tone Cfg.reset 79) = [0, 317, 562, 677] := by decide +kernel

/-- The segments of the "hello" session (G = 6, FPT = 6). -/
theorem test_segments :
    [15, 16, 17, 18, 23, 24, 25, 53, 54, 55, 56, 63].map (segment Cfg.reset 6) =
      [.marker, .rampUp 0, .rampUp 1, .data 0, .data 0, .blend 1 0, .data 1, .data 5, .rampDown 0, .rampDown 1, .post, .post] := by
  decide

/-- The first samples of the MARKER, RAMPUP(1), BLEND(1, 0), DATA(1) and POST frames of T1. -/
theorem test_frame_samples :
    let enc := Memory.fill Space.enc [5, 0, 0, 104, 101, 108, 108, 111]
    (List.range 4).map (frameSample Cfg.reset enc 6 0) = [0, 1544, 2966, 4133] ∧
    (List.range 4).map (frameSample Cfg.reset enc 6 17) = [0, 233, 439, 592] ∧
    (List.range 4).map (frameSample Cfg.reset enc 6 24) = [0, 468, 886, 1198] ∧
    (List.range 4).map (frameSample Cfg.reset enc 6 25) = [0, 3059, 5574, 7095] ∧
    (List.range 4).map (fun n => frameSample Cfg.reset enc 6 63 (512 + n)) = [0, -1584, -3029, -4208] := by decide +kernel

/-- SEND's cursor at the last frame and before it, and SEND without a session. -/
theorem test_send :
    ({ Tx.reset with hasdata := true, frameid := 63, total := 64 } : Tx).advance.hasdata = false ∧
    ({ Tx.reset with hasdata := true, frameid := 62, total := 64 } : Tx).advance.frameid = 63 ∧
    reply (next (issued 0x0A00000000000000)) = some (0, 0) ∧ (next (issued 0x0A00000000000000)).port.sink = [] := by decide +kernel

/-! ### RECEIVE (42_rx.md; section 2.4) -/

/-- A frame of silence of k samples. -/
def quiet (k : Fin 1025) : Answer := ⟨k, Vector.replicate 1024 0⟩

/-- K2 and K1: a short pull and an empty one. -/
theorem test_receive_counts :
    let s := State.receiveFrame cid { State.reset with port := { Port.idle with source := [quiet 512, quiet 0] } }
    let t := s.receiveFrame cid
    reply s = some (0, 0x200) ∧ s.rx.tbc = 1024 ∧ s.rx.hcount = 1 ∧ reply t = some (0, 0) ∧ t.rx.tbc = 1024 ∧
    t.rx.hcount = 1 := by decide +kernel

/-- The result 0x00001400 as bytes, least-significant first (20_memory.md R65), and too few bytes. -/
theorem test_result_bytes :
    resultBytes 0x1400 = [0x00, 0x14, 0x00, 0x00] ∧ resultOfBytes [0x78, 0x56, 0x34, 0x12, 0x99] = some (0x12345678, [0x99]) ∧
    resultOfBytes [1, 2, 3] = none := by decide

/-- The transform of an impulse is flat: a frame that is v and then silent has magnitude |v| at every bin (42_rx.md R203). -/
theorem test_reference_of_an_impulse (b : Fin 513) :
    (refSpecMag (Vector.ofFn fun n => if n.val = 0 then 0xFFFB else 0) b : ℝ) = 5 := by
  have e : dft (Vector.ofFn fun n => if n.val = 0 then 0xFFFB else 0) b.val = -5 := by
    unfold dft
    rw [Finset.sum_eq_single 0]
    · simp
    · intro n _ hn
      simp [hn]
    · simp
  rw [refSpecMag, e]
  simp

/-- "hello" decodes; D1: a length of 200 does not. -/
theorem test_decode_stage :
    decodePayload cid Cfg.reset (Memory.fill Space.rxraw ([5, 0, 0] ++ hello)) = some (hello, 5) ∧
    decodePayload cid Cfg.reset (Memory.fill Space.rxraw ([200, 0, 0] ++ hello)) = none := by decide +kernel

/-- The decoding tick of P4 (#632): RESULT 0x00001400, RXT 624 into RXT_SUM, and GETAVGRXT 13312. -/
theorem test_receive_decodes :
    let s := State.receiveFrame cid { State.reset with
      rx := { Rx.reset with rxstate := .analyzing, flta := 1, rxt := 623, rxraw := Memory.fill Space.rxraw ([5, 0, 0] ++ hello) },
      port := { Port.idle with source := [quiet 1024] } }
    reply s = some (0, 0x1400) ∧ s.rx.rxlen = 5 ∧ Memory.readN Space.rxdata s.rx.rxdata 0 6 = hello ++ [0] ∧ s.rx.rxtSum = 624 ∧
    s.rx.rxcount = 1 ∧ s.rx.rxstate = .listening ∧ averageRxTime s.cfg s.rx = 13312 := by decide +kernel

/-- A locked receiver that hears no marker records row 0, FLTR = 307 (#17 of P4). -/
theorem test_locked_records :
    let r := (({ Rx.reset with rxstate := .markerLocked, run := 16, rxt := 8 } : Rx).tick cid Cfg.reset (quiet 1024)).1
    r.rxstate = .recording ∧ r.fltr = 307 ∧ r.rxt = 9 ∧ r.run = 16 := by decide +kernel

theorem test_rdrx :
    reply (next (issued 0x110000000000008B)) = some (0, 0) ∧ reply (next (issued 0x110000000000008C)) = some (2, 0) ∧
    reply (next (State.withFetchWord { State.reset with rx := { Rx.reset with rxdata := [(4, 0x6F)], rxlen := 5 } } 64
      0x1100000000000004)) = some (0, 0x6F) := by decide +kernel

/-! ### Queries (section 2.6) -/

theorem test_queries_at_reset :
    [0x12, 0x20, 0x21, 0x22, 0x23, 0x24, 0x25, 0x26, 0x27, 0x30, 0x31, 0x32, 0x33, 0x34].map
        (fun opc => reply (next (issued (opc * 2 ^ 56)))) =
      [some (0, 0), some (0, 0), some (0, 0), some (0, 308), some (0, 0), some (0, 308), some (0, 0), some (0, 0), some (0, 0),
       some (0, 48000), some (0, 48000), some (0, 1024), some (0, 2), some (0, 2)] := by decide +kernel

/-- Program P1: the statuses, and GETFTR = 44 at its end. -/
theorem test_program_p1 :
    (script State.reset [0x01010A1A86400000, 0x01017D1836400000, 0x0500000000000000, 0x0300000000000064, 0x04001F3F00BB8000,
      0x2200000000000000]).port.responses.map (fun r => (r.status.code.toNat, r.result.toNat)) =
      [(0, 44), (2, 0), (1, 0), (3, 0), (2, 0), (1, 0)] := by decide +kernel

/-! ### The memories' canonical form -/

/-- Writing what an unlisted element reads as removes the entry, so that equal memories are equal lists. -/
theorem test_memory_is_canonical :
    Memory.write Space.txstage [(3, 7)] 3 0 = [] ∧ Memory.write Space.txstage [(3, 7)] 1 9 = [(1, 9), (3, 7)] ∧
    Memory.write Space.txstage [] 140 1 = [] := by decide

/-! ### States and parameters that the obligations' hypotheses are met by -/

/-- An FFT engine that hears magnitude 1 or nothing at each bin. -/
noncomputable def hears (S : Frame → Nat → Bool) : Engine := Engine.ofSpecMag fun x b => if S x b.val then 1 else 0

/-- Collaborators that hear the pattern S; nothing above bin 272 is heard. -/
structure Hears (P : Params) (S : Frame → Nat → Bool) : Prop where
  engine : P.engine = hears S
  low : ∀ x b, 272 < b → S x b = false

/-- The start marker's pattern at FSTART = 1, FDELTA = 1: the even slots are the odd bins 1, 3, .. 15. -/
def markerBins (b : Nat) : Bool := b % 2 == 1 && b < 16

/-- The marker in every frame that does not begin with 0, and silence in every other. -/
def earsHear (x : Frame) (b : Nat) : Bool := x.get 0 != 0 && markerBins b

/-- Collaborators with those ears; the codec is CID. -/
noncomputable def ears : Params := ⟨hears earsHear, appendZeros, dropParity⟩

theorem ears_hears : Hears ears earsHear := ⟨rfl, fun x b hb => by simp [earsHear, markerBins]; omega⟩

theorem cid_codec {P : Params} (h1 : P.enc = appendZeros) (h2 : P.dec = dropParity) : P.Admitted where
  enc_length E m := by simp [h1, appendZeros]
  dec_length E c m _ h := by
    simp only [h2, dropParity, Option.some.injEq] at h
    rw [← h, List.length_take]
    omega

theorem ears_admitted : ears.Admitted := cid_codec rfl rfl

/-- What is heard of a frame at bin b. -/
theorem val_heard {P : Params} {S : Frame → Nat → Bool} (h : Hears P S) (x : Frame) (b : Nat) :
    P.val (elem (spectrum x) .zero b) = if S x b then 1 else 0 := by
  by_cases hb : b < 513
  · rw [elem_spectrum _ hb, Params.val_bin, h.engine]
    simp only [hears, Engine.ofSpecMag]
    split <;> simp
  · rw [elem_of_ge _ _ (by omega), h.low x b (by omega)]
    simp

/-- A receiver whose history holds only what such an engine hears. -/
def Heard (P : Params) (r : Rx) : Prop := ∀ i b, P.val (r.histAt i b) ≤ if b ≤ 272 then 1 else 0

/-- Its floor is below the detection threshold of magnitude 1. -/
theorem Heard.floor {P : Params} {r : Rx} (h : Heard P r) : 3 * P.val r.floor < 2 := by
  have h1 := Rx.floor_le P (B := fun b => if b ≤ 272 then 1 else 0) (fun b => by split <;> norm_num) h
  have h2 : ∑ i ∈ Finset.range 511, (if i + 1 ≤ 272 then (1 : ℝ) else 0) = 272 := by
    rw [Finset.sum_ite, Finset.sum_const_zero, Finset.sum_const, add_zero, nsmul_eq_mul, mul_one]
    have : (Finset.range 511).filter (fun i => i + 1 ≤ 272) = Finset.range 272 := by
      ext i; simp only [Finset.mem_filter, Finset.mem_range]; omega
    rw [this, Finset.card_range]; norm_num
  rw [h2] at h1
  linarith

theorem Heard.tick {P : Params} {S : Frame → Nat → Bool} (hP : Hears P S) {r : Rx} (h : Heard P r) (c : Cfg) (a : Answer) :
    Heard P (r.tick P c a).1 := by
  intro i b
  have hb : P.val (elem (spectrum (zeroPad a)) .zero b) ≤ if b ≤ 272 then 1 else 0 := by
    rw [val_heard hP]
    split
    · split
      · exact le_refl _
      · have := hP.low (zeroPad a) b (by omega); simp_all
    · split <;> norm_num
  have hr := h i b
  rw [Rx.histAt] at hr ⊢
  rw [Rx.tick_hist]
  split
  · by_cases hi : i < 4
    · rw [elem_of_lt (r.capture a).hist _ hi, Rx.capture_hist, ← Rx.historyPush_hist, get_historyPush_hist]
      split
      · exact hb
      · rwa [elem_of_lt r.hist _ hi] at hr
    · rw [elem_of_ge (r.capture a).hist _ (by omega)]
      rwa [elem_of_ge r.hist _ (by omega)] at hr
  · exact hr

theorem Heard.ticks {P : Params} {S : Frame → Nat → Bool} (hP : Hears P S) {r : Rx} (h : Heard P r) (c : Cfg) (as : List Answer) :
    Heard P (r.ticks P c as) := by
  induction as generalizing r with
  | nil => exact h
  | cons a as ih => exact ih (h.tick hP c a)

theorem heard_reset (P : Params) {r : Rx} (h : r.hist = Rx.reset.hist) : Heard P r := by
  intro i b
  have h1 : ∀ v : Spectrum, v = Vector.replicate 513 .zero → elem v Mag.zero b = .zero := by
    intro v hv
    rw [hv]; unfold elem; split <;> simp
  have h2 : elem Rx.reset.hist (Vector.replicate 513 .zero) i = Vector.replicate 513 .zero := by
    unfold elem; split <;> simp [Rx.reset]
  rw [Rx.histAt, h, h1 _ h2, Params.val_zero]
  split <;> norm_num

/-- A bin is ON exactly when it is heard. -/
theorem binOn_heard {P : Params} {S : Frame → Nat → Bool} (hP : Hears P S) {r : Rx} (h : Heard P r) (x : Frame) (b : Nat) :
    binOn P (spectrum x) r.floor b = S x b := by
  have h1 := h.floor
  have h2 := P.val_nonneg r.floor
  rw [Bool.eq_iff_iff, binOn_iff, val_heard hP]
  constructor
  · intro h3
    by_contra h4
    rw [if_neg h4] at h3
    linarith
  · intro h3
    rw [if_pos h3]
    linarith

/-- A frame that begins with n. -/
def call (n : Nat) : Answer := ⟨1024, Vector.ofFn fun i => if i.val = 0 then BitVec.ofNat 16 n else 0⟩

/-- A frame of the marker. -/
def loud : Answer := call 1

theorem get_loud : (zeroPad loud).get 0 = 1 := by
  rw [get_zeroPad]
  simp [loud, call]

theorem get_quiet (k : Fin 1025) : (zeroPad (quiet k)).get 0 = 0 := by
  rw [get_zeroPad]
  simp [quiet, Vector.get_eq_getElem]

/-- A codec that decodes exactly the text "hi" and its length, whatever the errors. -/
def decodeHi (E : Nat) (c : List Byte) : Option (List Byte) :=
  some (if c.length - E = 1 then [2] else if c.length - E = 2 then [0x68, 0x69]
    else if c.length - E = 32 then fixedPayload [0x68, 0x69] else c.take (c.length - E))

/-- Collaborators with that codec, that hear magnitude 1 up to bin 272 in every frame. -/
noncomputable def knowsHi : Params := ⟨hears fun _ b => b ≤ 272, appendZeros, decodeHi⟩

theorem knows_codec {P : Params} (h1 : P.enc = appendZeros) (h2 : P.dec = decodeHi) : P.Admitted where
  enc_length E m := by simp [h1, appendZeros]
  dec_length E c m _ h := by
    simp only [h2, decodeHi, Option.some.injEq] at h
    subst h
    split
    · simp; omega
    · split
      · simp; omega
      · split
        · rw [length_fixedPayload]; omega
        · rw [List.length_take]; omega

theorem knowsHi_admitted : knowsHi.Admitted := knows_codec rfl rfl

theorem knows_corrects {P : Params} (he1 : P.enc = appendZeros) (hd : P.dec = decodeHi) (E : Nat) (m : List Byte) (h1 : m.length = 1 → m = [2]) (h2 : m.length = 2 → m = [0x68, 0x69])
    (h3 : m.length = 32 → m = fixedPayload [0x68, 0x69]) (h4 : m.length = 1 ∨ m.length = 2 ∨ m.length = 32) :
    P.Corrects E m := by
  intro e he _
  have hl : (xorBytes (P.enc E m) e).length - E = m.length := by
    simp only [xorBytes, List.length_zipWith, (knows_codec he1 hd).enc_length, he]
    omega
  rw [hd]
  simp only [decodeHi, hl]
  rcases h4 with h | h | h
  · simp only [h, if_true]; rw [h1 h]
  · simp only [h, if_true]; rw [if_neg (by decide), h2 h]
  · simp only [h, if_true]; rw [if_neg (by decide), if_neg (by decide), h3 h]

/-- The marker from bin 1 on, and the smallest recording budget: FTR = 4 in FixedLength mode, 7 in VariableLength mode. -/
def small (m : Mode) : Cfg := { Cfg.reset with fstart := 1, fpt := 1, bpt := 32, ecc := 2, mode := m }

theorem small_legal (m : Mode) : (small m).Legal := by cases m <;> decide

theorem small_mb (m : Mode) (j : Nat) : (small m).mb j = 1 + j := by simp [Cfg.mb, Cfg.slotBin, small, Cfg.reset]

/-- Whether a frame matches, by what is heard at the marker bins. -/
theorem matches_heard {P : Params} {S : Frame → Nat → Bool} (hP : Hears P S) {r : Rx} (h : Heard P r) (m : Mode) (a : Answer) :
    r.matchesMarker P (small m) a = (List.range 16).all fun j => S (zeroPad a) (1 + j) == (j % 2 == 0) := by
  simp only [Rx.matchesMarker, markerMatch, binOn_heard hP h, small_mb, Config.markerBits]

/-- A silent frame does not match, a frame of the marker does. -/
theorem quiet_differs {r : Rx} (h : Heard ears r) (m : Mode) (k : Fin 1025) : r.matchesMarker ears (small m) (quiet k) = false := by
  rw [matches_heard ears_hears h]
  simp only [earsHear, get_quiet]
  decide

theorem loud_matches {r : Rx} (h : Heard ears r) (m : Mode) : r.matchesMarker ears (small m) loud = true := by
  rw [matches_heard ears_hears h]
  simp only [earsHear, get_loud]
  decide

/-- A receiver that has heard n marker frames in a row: it locks on the eighth. -/
structure Warm (P : Params) (n : Nat) (r : Rx) : Prop where
  heard : Heard P r
  listening : n < 8 → r.rxstate = .listening ∧ r.run.toNat = n
  locked : 8 ≤ n → r.rxstate = .markerLocked

theorem warm_reset (P : Params) : Warm P 0 Rx.reset := ⟨heard_reset P rfl, fun _ => ⟨rfl, rfl⟩, fun h => by omega⟩

theorem Warm.tick {P : Params} {S : Frame → Nat → Bool} (hP : Hears P S) {c : Cfg} {n : Nat} {r : Rx} (h : Warm P n r) {a : Answer}
    (hk : 0 < a.count.val) (hm : r.matchesMarker P c a = true) : Warm P (n + 1) (r.tick P c a).1 := by
  have hd := h.heard.tick hP c a
  rcases Nat.lt_or_ge n 8 with hn | hn
  · obtain ⟨h1, h2⟩ := h.listening hn
    have e1 := Rx.capture_run r a
    have e2 := Rx.capture_rxstate r a
    rw [Rx.tick_listening _ _ h1 hk, hm] at hd ⊢
    generalize r.capture a = q at *
    have hsat : (satInc q.run).toNat = n + 1 := by rw [toNat_satInc, e1, h2]; omega
    rcases q.listenStep_cases true with ⟨h3, e⟩ | ⟨h3, e⟩ <;> rw [e] at hd ⊢ <;> simp only [if_true, hsat] at h3 hd ⊢
    · exact ⟨hd, fun _ => by omega, fun _ => rfl⟩
    · exact ⟨hd, fun _ => ⟨e2.trans h1, hsat⟩, fun _ => by omega⟩
  · refine ⟨hd, fun _ => by omega, fun _ => ?_⟩
    rw [Rx.tick_locked _ _ (h.locked hn) hk, hm, Rx.lockedStep_match, Rx.capture_rxstate]
    exact h.locked hn

theorem warm_loud : ∀ n, Warm ears n (Rx.reset.ticks ears (small .fixed) (List.replicate n loud)) := by
  intro n
  induction n with
  | zero => exact warm_reset ears
  | succ n ih =>
    rw [List.replicate_succ', Rx.ticks_concat]
    exact ih.tick ears_hears (by decide) (loud_matches ih.heard .fixed)

/-- A receiver at a point of its state machine, with nothing recorded. -/
def rxAt (st : RxState) (run fltr flta : BitVec 16) : Rx := { Rx.reset with rxstate := st, run := run, fltr := fltr, flta := flta }

theorem rxAt_wf {c : Cfg} {st : RxState} {run fltr flta : BitVec 16} (h : (rxAt st run fltr flta).CursorsFit c) :
    (rxAt st run fltr flta).Wf c :=
  (Rx.Wf.reset.held.cursors st run fltr flta Rx.reset.rxt).wf h

theorem heard_rxAt (P : Params) (st : RxState) (run fltr flta : BitVec 16) : Heard P (rxAt st run fltr flta) :=
  heard_reset P (by simp only [rxAt])

/-- A session in flight: 64 frames, the next one f. -/
def txAt (f : BitVec 16) (dirty : Bool) : Tx :=
  { Tx.reset with enclen := 16, ngrp := 6, total := 64, frameid := f, hasdata := true, ttDirty := dirty }

theorem txAt_wf {f : BitVec 16} (h : f.toNat < 64) : (txAt f true).Wf Cfg.reset :=
  { Tx.Wf.reset with
    enclen := show (16 : BitVec 9).toNat ≤ 207 by decide
    ngrp := show (6 : BitVec 8).toNat ≤ 207 by decide
    total := show (64 : BitVec 16).toNat ≤ 3133 by decide
    frameid := Nat.le_of_lt h
    session := fun _ => ⟨h, show 29 ≤ (64 : BitVec 16).toNat by decide,
      show (64 : BitVec 16).toNat = 28 + (6 : BitVec 8).toNat * Cfg.reset.fpt.toNat by decide,
      show (6 : BitVec 8).toNat = ceilDiv (16 : BitVec 9).toNat Cfg.reset.bpt.toNat by decide⟩
    coherent := fun h => by cases h }

/-- The reset configuration with volume 0. -/
def mute : Cfg := { Cfg.reset with vol := 0 }

/-- The same session with volume 0 and a clean tone table, whose rows are then all zero. -/
theorem txAt_clean_wf {f : BitVec 16} (h : f.toNat < 64) : (txAt f false).Wf mute :=
  { txAt_wf h with
    session := (txAt_wf h).session
    coherent := fun _ s _ => by
      apply Vector.ext
      intro n hn
      have e : ∀ b : Nat, tone mute b n = 0 := fun b => by
        simp [tone, template, Cfg.amp, asr, mute]
      simp [toneRow, e, txAt, Tx.reset, Space.tone] }

/-- A state with the reset configuration, or another. -/
def withTx (t : Tx) : State := { State.reset with tx := t }
def withRx (c : Cfg) (r : Rx) (source : List Answer) : State :=
  { State.reset with cfg := c, rx := r, port := { Port.idle with source := source } }

theorem tx_wf_small (m : Mode) : Tx.reset.Wf (small m) :=
  { Tx.Wf.reset with
    session := fun h => by cases h
    coherent := fun h => by cases h }

theorem withTx_inv {f : BitVec 16} (h : f.toNat < 64) : (withTx (txAt f true)).Inv := ⟨show Cfg.reset.Legal by decide, txAt_wf h, Rx.Wf.reset⟩

theorem withRx_inv {m : Mode} {st : RxState} {run fltr flta : BitVec 16} (src : List Answer)
    (h : (rxAt st run fltr flta).CursorsFit (small m)) : (withRx (small m) (rxAt st run fltr flta) src).Inv :=
  ⟨small_legal m, tx_wf_small m, rxAt_wf h⟩

theorem reset_inv : State.reset.Inv := ⟨show Cfg.reset.Legal by decide, Tx.Wf.reset, Rx.Wf.reset⟩

/-- Events at the port. -/
def pending (s : State) (es : List HostEvent) : State := { s with port := { s.port with events := es } }

theorem pending_inv {s : State} (h : s.Inv) (es : List HostEvent) : (pending s es).Inv := ⟨h.cfg, h.tx, h.rx⟩

/-! ### Every obligation's hypotheses are met -/

theorem test_meets_LegalWordIsTheWordOfItsCommand : decode 0x0800000000008B41#64 = .ok (.wtxb 139 0x41) := by decide

theorem test_meets_LegalWordMatchesExactlyOneRow :
    (∃ i, decode 0x0A00000000000000#64 = .ok i) ∧ ∀ i, decode 0x0A00000000000001#64 ≠ .ok i := by
  constructor
  · exact ⟨.send, by decide⟩
  · intro i
    rw [show decode 0x0A00000000000001#64 = .error (.reservedBit 0x0A) by decide]
    exact fun h => by cases h

theorem test_meets_StepRunsTheDecodedCommand :
    (issued 0x0900000000000005).port.events = .command 0x0900000000000005#64 :: [] ∧
    decode 0x0900000000000005#64 = .ok (.init 5) := ⟨by decide +kernel, by decide⟩

/-- Both ways to be illegal: an opcode that is in no row, and a reserved bit, at each end of a field. -/
theorem test_meets_IllegalWordCompletesAndChangesNothing :
    (issued 0x0500000000000000).port.events = .command 0x0500000000000000#64 :: [] ∧
    (∀ r ∈ opcodeMap, r.opc ≠ opcodeOf 0x0500000000000000#64) ∧
    (∃ r ∈ opcodeMap, r.opc = opcodeOf 0x0A00000000000001#64 ∧
      0x0A00000000000001#64 &&& (r.format.mask &&& 0x00FFFFFFFFFFFFFF#64) ≠ 0) ∧
    (∃ r ∈ opcodeMap, r.opc = opcodeOf 0x0880000000000000#64 ∧
      0x0880000000000000#64 &&& (r.format.mask &&& 0x00FFFFFFFFFFFFFF#64) ≠ 0) := by decide +kernel

theorem test_meets_ResetInputRestoresTheResetValues :
    (pending (withTx (txAt 3 true)) [.resetInput]).port.events = .resetInput :: [] := rfl

theorem test_meets_EveryCommandAndEveryStepCompletes :
    State.reset.port.events = [] ∧ (pending (withTx (txAt 3 true)) [.resetInput]).port.events = .resetInput :: [] := ⟨rfl, rfl⟩

/-- A word that is rejected, one that is illegal and one that is neither. -/
theorem test_meets_TurnedAwayCommandChangesNothing :
    (issued 0x110000000000008C).port.events = .command 0x110000000000008C#64 :: [] ∧
    reply (next (issued 0x110000000000008C)) = some (2, 0) ∧ reply (next (issued 0x0500000000000000)) = some (3, 0) ∧
    reply (next (issued 0x110000000000008B)) = some (0, 0) := by decide +kernel

/-- The boundary operands of each clause of the status table. -/
theorem test_meets_StatusFollowsTheTable :
    (¬ rejectedWhen (.setparam 1 240 6 32 50) ∧ ¬ clampedWhen .variable (.setparam 1 240 6 32 100)) ∧
    rejectedWhen (.setparam 1 241 6 33 50) ∧ clampedWhen .variable (.setparam 1 240 6 33 50) ∧
    clampedWhen .variable (.setparam 1 240 6 3 101) ∧ ¬ clampedWhen .variable (.setecc 2) ∧ ¬ clampedWhen .variable (.setecc 64) ∧
    clampedWhen .variable (.setecc 1) ∧ clampedWhen .variable (.setecc 65) ∧ ¬ rejectedWhen (.setrate 8000 192000) ∧
    rejectedWhen (.setrate 7999 8000) ∧ rejectedWhen (.setrate 8000 192001) ∧ ¬ rejectedWhen (.wtxb 139 0) ∧
    rejectedWhen (.wtxb 140 0) ∧ rejectedWhen (.rdrx 140) ∧ ¬ clampedWhen .variable (.init 140) ∧
    clampedWhen .variable (.init 141) ∧ ¬ clampedWhen .fixed (.init 32) ∧ clampedWhen .fixed (.init 33) := by
  simp [rejectedWhen, clampedWhen]

theorem test_meets_OnlySendEmitsAndOnlyReceivePulls :
    (∃ t, exec .send (withTx (txAt 3 true)) = .next t) ∧ (∃ t, exec .receive (withRx Cfg.reset Rx.reset [quiet 7]) = .next t) ∧
    ∃ t, exec .gettbc State.reset = .next t := ⟨⟨_, rfl⟩, ⟨_, rfl⟩, ⟨_, rfl⟩⟩

theorem test_meets_EveryStepKeepsTheInvariant :
    (pending (withTx (txAt 63 true)) [.command 0x0A00000000000000#64]).Inv ∧
    ∃ t, step (pending (withTx (txAt 63 true)) [.command 0x0A00000000000000#64]) = .next t :=
  ⟨pending_inv (withTx_inv (by decide)) _, ⟨_, rfl⟩⟩

/-- The greatest budget, the highest slot and the reset configuration. -/
theorem test_meets_LegalConfigurationFitsEveryBuffer :
    Cfg.Legal { Cfg.reset with fpt := 15, bpt := 1, ecc := 64 } ∧ Cfg.Legal { Cfg.reset with fstart := 240, bpt := 32 } ∧
    Cfg.Legal Cfg.reset := by decide

theorem test_meets_EachFamilyWritesOnlyItsOwnState :
    (∃ t, exec (.wtxb 0 1) State.reset = .next t) ∧ (∃ t, exec .receive (withRx Cfg.reset Rx.reset [quiet 7]) = .next t) ∧
    ∃ t, exec .gettbc State.reset = .next t := ⟨⟨_, rfl⟩, ⟨_, rfl⟩, ⟨_, rfl⟩⟩

theorem test_meets_TxAndRxPathsDoNotReadEachOther :
    (∃ t, exec (.init 5) State.reset = .next t) ∧ (∃ t, exec .send (withTx (txAt 3 true)) = .next t) ∧
    (∃ t, exec .receive (withRx Cfg.reset Rx.reset [quiet 7]) = .next t) ∧ (∃ t, exec (.rdrx 139) State.reset = .next t) ∧
    ∃ t, exec .getrxlen State.reset = .next t := ⟨⟨_, rfl⟩, ⟨_, rfl⟩, ⟨_, rfl⟩, ⟨_, rfl⟩, ⟨_, rfl⟩⟩

theorem test_meets_PayloadChangesOnlyByAReceiveThatSaysSo :
    (∃ t, exec .send State.reset = .next t) ∧
    ∃ r : Response, (State.receiveFrame cid (withRx Cfg.reset Rx.reset [quiet 7])).port.responses = r :: [] ∧
      r.result.getLsbD 12 = false := ⟨⟨_, rfl⟩, _, rfl, by decide +kernel⟩

theorem test_meets_ToneTableCannotBeObserved :
    ∃ t, step (pending (withTx (txAt 3 false)) [.command 0x0A00000000000000#64]) = .next t := ⟨_, rfl⟩

/-- A recording row of junk, beyond the rows the candidate has written (none yet while listening, one of FTR = 4 here). -/
def junk : RowMem Mag := [(3, .bin (Vector.replicate 1024 0) 5)]

theorem test_meets_StaleRecordingCannotBeObserved :
    let r := rxAt .recording 8 3 0
    let s := pending (withRx (small .fixed) r [quiet 7]) [.command 0x1000000000000000#64]
    s.Inv ∧ r.rowsWritten s.cfg = 1 ∧ s.rx.SameButStale s.cfg { s.rx with recf := junk } ∧
    ∃ t, step s = .next t := by
  have hf : (small .fixed).ftr = 4 := by decide
  refine ⟨pending_inv (withRx_inv (m := .fixed) (st := .recording) (run := 8) (fltr := 3) (flta := 0) _
    ⟨by decide, by rw [hf]; decide, rfl⟩) _, by decide, ⟨?_, by decide +kernel, rfl, fun _ _ _ _ => rfl, ?_⟩,
    _, rfl⟩
  · exact Memory.wf_nil _
  · intro i hi
    have h1 : Rx.rowsWritten (small .fixed) (rxAt .recording 8 3 0) = 1 := by decide
    have h2 : i < 1 := by rw [← h1]; exact hi
    have h3 : i = 0 := by omega
    subst h3
    decide +kernel

theorem test_meets_CommittedConfigurationCommandAbortsBothSessions :
    Instr.isConfig (.setecc 8) = true ∧ ¬ rejectedWhen (.setecc 8) ∧ rejectedWhen (.setrate 7999 48000) ∧
    (∃ t, exec (.setecc 8) (withTx (txAt 3 true)) = .next t) ∧ ∃ t, exec (.setrate 7999 48000) (withTx (txAt 3 true)) = .next t := by
  refine ⟨rfl, by simp [rejectedWhen], by simp [rejectedWhen], ⟨_, rfl⟩, ⟨_, rfl⟩⟩

theorem test_meets_DefaultsRestoresTheConfiguration :
    let ws := [0x01010A1836400000#64, 0x0300000000000008#64, 0x0200000000000000#64, 0x0400BB8000BB8000#64]
    Line.defaults.words = some ws ∧
    (pending (withTx (txAt 3 true)) (ws.map .command)).port.events = ws.map .command ++ [] := ⟨by decide +kernel, rfl⟩

theorem test_meets_WtxbWritesOneStagingByteOrRejects :
    State.reset.Inv ∧ 140 ≤ (140 : BitVec 8).toNat ∧ (139 : BitVec 8).toNat < 140 := ⟨reset_inv, by decide, by decide⟩

theorem test_meets_InitStartsASessionOnTheStagedText : State.reset.Inv ∧ State.Inv { State.reset with cfg := small .fixed } :=
  ⟨reset_inv, small_legal _, tx_wf_small _, rxAt_wf (st := .listening) (run := 0) (fltr := 0) (flta := 0) ⟨rfl, rfl, by decide⟩⟩

theorem test_meets_SessionSizeFollowsFromModeAndLength :
    State.reset.Inv ∧ State.reset.cfg.mode = .variable ∧ State.Inv { State.reset with cfg := small .fixed } ∧
    (small .fixed).mode = .fixed :=
  ⟨reset_inv, rfl, ⟨small_legal _, tx_wf_small _, rxAt_wf (st := .listening) (run := 0) (fltr := 0) (flta := 0) ⟨rfl, rfl, by decide⟩⟩, rfl⟩

/-- No session; the last frame and the one before it with a dirty table; a clean table; the lowest and the highest slot. -/
theorem test_meets_SendEmitsTheNextFrameOrNothing :
    (State.reset.Inv ∧ State.reset.tx.hasdata = false) ∧
    ((withTx (txAt 63 true)).Inv ∧ (withTx (txAt 63 true)).tx.hasdata = true) ∧
    ((withTx (txAt 62 true)).Inv ∧ (withTx (txAt 62 true)).tx.ttDirty = true) ∧
    (State.Inv { withTx (txAt 62 false) with cfg := mute } ∧ (withTx (txAt 62 false)).tx.ttDirty = false) ∧
    (0 < 16 + 8 * Cfg.reset.bpt.toNat ∧ 39 < 16 + 8 * Cfg.reset.bpt.toNat ∧ 16 + Cfg.reset.ndb ≤ 40) :=
  ⟨⟨reset_inv, rfl⟩, ⟨withTx_inv (by decide), rfl⟩, ⟨withTx_inv (by decide), rfl⟩,
    ⟨⟨show Cfg.Legal mute by decide, txAt_clean_wf (by decide),
      rxAt_wf (st := .listening) (run := 0) (fltr := 0) (flta := 0) ⟨rfl, rfl, by decide⟩⟩, rfl⟩, by decide⟩

theorem test_meets_NoSampleEverClips : Cfg.Legal { Cfg.reset with vol := 100, bpt := 32 } ∧ 1023 < 1024 := by decide

/-- The first and the last frame of every segment of the "hello" session, six groups of six frames (41_tx.md R177). -/
theorem test_meets_SessionFramesFollowTheFramePlan :
    let F := Cfg.reset.fpt.toNat
    15 < 16 ∧ (16 = 16 + 0 ∧ 17 = 16 + 1) ∧ (18 = 18 + 0 * F + 0 ∧ 24 = 18 + 1 * F + 0 ∧ 2 ≤ F ∧ 53 = 18 + 5 * F + (F - 1)) ∧
    (54 = 18 + 6 * F + 0 ∧ 55 = 18 + 6 * F + 1) ∧ 20 + 6 * F ≤ 56 ∧ sessionFrames Cfg.reset 6 = 64 := by decide

theorem test_meets_SessionDrainsFrameByFrame :
    let s := pending (withTx (txAt 62 true)) [.command 0x0A00000000000000#64, .command 0x0A00000000000000#64]
    s.Inv ∧ s.tx.hasdata = true ∧
    s.port.events = List.replicate (s.tx.total.toNat - s.tx.frameid.toNat) (.command 0x0A00000000000000#64) ++ [] :=
  ⟨pending_inv (withTx_inv (by decide)) _, rfl, by decide +kernel⟩

/-- The empty string, a short one and the longest. -/
theorem test_meets_TxloadStagesAndStartsASession :
    State.reset.Inv ∧ (Line.txload []).words = some [0x0900000000000000#64] ∧
    (Line.txload [0x68, 0x69]).words = some [0x0800000000000068#64, 0x0800000000000169#64, 0x0900000000000002#64] ∧
    ((List.replicate 140 (7 : Byte)).length ≤ 140 ∧ ∃ ws, (Line.txload (List.replicate 140 7)).words = some ws) ∧
    (pending State.reset [.command 0x0900000000000000#64]).port.events = [0x0900000000000000#64].map .command ++ [] :=
  ⟨reset_inv, by decide +kernel, by decide +kernel,
    ⟨by decide +kernel, Option.isSome_iff_exists.1 (by decide +kernel)⟩, rfl⟩

theorem test_meets_ZeroLengthPullDoesOnlyTheAnalysis :
    (withRx (small .fixed) (rxAt .analyzing 8 0 4) [quiet 0]).port.answer.count.val = 0 ∧
    (withRx (small .fixed) (rxAt .recording 8 3 0) [quiet 0]).port.answer.count.val = 0 ∧
    (rxAt .recording 8 3 0).rxstate ≠ .analyzing ∧ (rxAt .analyzing 8 0 4).rxstate = .analyzing ∧
    (withRx (small .fixed) (rxAt .analyzing 8 0 4) [quiet 0]).Inv := by
  have hf : (small .fixed).fta = 4 := by decide
  exact ⟨by decide, by decide, by decide, rfl, withRx_inv _ ⟨rfl, by decide, by rw [hf]; decide⟩⟩

theorem test_meets_LiveFrameEntersCountSpectrumAndHistory :
    0 < (withRx Cfg.reset Rx.reset [quiet 1]).port.answer.count.val ∧
    0 < (withRx Cfg.reset Rx.reset [quiet 1024]).port.answer.count.val := by decide

/-- An empty history and a full one; another receiver that holds the same slots. -/
theorem test_meets_FloorIsTheMeanOfTheWrittenHistory :
    Rx.reset.hcount.toNat ≤ 4 ∧ ({ Rx.reset with hcount := 4 } : Rx).hcount.toNat ≤ 4 ∧
    ({ Rx.reset with run := 3, hcount := 4 } : Rx).hcount = ({ Rx.reset with hcount := 4 } : Rx).hcount ∧
    ∀ h < 4, ∀ b, 1 ≤ b → b ≤ 511 →
      cid.val (elem (elem ({ Rx.reset with run := 3, hcount := 4 } : Rx).hist (Vector.replicate 513 .zero) h) .zero b) =
        cid.val (elem (elem ({ Rx.reset with hcount := 4 } : Rx).hist (Vector.replicate 513 .zero) h) .zero b) :=
  ⟨by decide, by decide, rfl, fun _ _ _ _ _ => rfl⟩

/-- The eighth match, and a frame that does not match. -/
theorem test_meets_ListeningCountsMatchesAndLocks :
    let r := rxAt .listening 7 0 0
    ears.Admitted ∧ (withRx (small .fixed) r [loud]).Inv ∧ (withRx (small .fixed) r [quiet 1]).Inv ∧ r.rxstate = .listening ∧
    0 < loud.count.val ∧ 0 < (quiet 1).count.val ∧ r.matchesMarker ears (small .fixed) loud = true ∧
    r.matchesMarker ears (small .fixed) (quiet 1) = false :=
  ⟨ears_admitted, withRx_inv _ ⟨rfl, rfl, by decide⟩, withRx_inv _ ⟨rfl, rfl, by decide⟩, rfl, by decide, by decide,
    loud_matches (heard_rxAt _ _ _ _ _) .fixed, quiet_differs (heard_rxAt _ _ _ _ _) .fixed 1⟩

theorem test_meets_LockedTickRecordsTheFirstMismatch :
    let r := rxAt .markerLocked 65535 0 0
    ears.Admitted ∧ (withRx (small .fixed) r [loud]).Inv ∧ (withRx (small .fixed) r [quiet 1]).Inv ∧ r.rxstate = .markerLocked ∧
    0 < loud.count.val ∧ 0 < (quiet 1).count.val ∧ r.matchesMarker ears (small .fixed) loud = true ∧
    r.matchesMarker ears (small .fixed) (quiet 1) = false :=
  ⟨ears_admitted, withRx_inv _ ⟨rfl, rfl, by decide⟩, withRx_inv _ ⟨rfl, rfl, by decide⟩, rfl, by decide, by decide,
    loud_matches (heard_rxAt _ _ _ _ _) .fixed, quiet_differs (heard_rxAt _ _ _ _ _) .fixed 1⟩

/-- The last recording tick (FLTR = 1) and one before it, with FTR = 4. -/
theorem test_meets_RecordingTickStoresItsRowAndCountsDown :
    ears.Admitted ∧ (withRx (small .fixed) (rxAt .recording 8 1 0) [loud]).Inv ∧
    (withRx (small .fixed) (rxAt .recording 8 2 0) [loud]).Inv ∧ 0 < loud.count.val ∧
    (rxAt .recording 8 1 0).fltr.toNat = 1 ∧ 1 < (rxAt .recording 8 2 0).fltr.toNat := by
  have hf : (small .fixed).ftr = 4 := by decide
  exact ⟨ears_admitted, withRx_inv _ ⟨by decide, by rw [hf]; decide, rfl⟩, withRx_inv _ ⟨by decide, by rw [hf]; decide, rfl⟩,
    by decide, by decide, by decide⟩

/-- A ramp row (FLTA = FTA = 4), a row that decides its group (FLTA = 2, row 2, FPT = 1) and the last row (FLTA = 1), with and
without samples. -/
theorem test_meets_AnalyzingTickAccumulatesAndDecides :
    ears.Admitted ∧ (withRx (small .fixed) (rxAt .analyzing 8 0 4) [loud]).Inv ∧
    (withRx (small .fixed) (rxAt .analyzing 8 0 2) [quiet 0]).Inv ∧ (withRx (small .fixed) (rxAt .analyzing 8 0 1) [quiet 0]).Inv ∧
    (small .fixed).fta = 4 ∧ (4 - 2 - 2) % (small .fixed).fpt.toNat = (small .fixed).fpt.toNat - 1 ∧
    1 < (rxAt .analyzing 8 0 4).flta.toNat ∧ 1 < (rxAt .analyzing 8 0 2).flta.toNat := by
  have hf : (small .fixed).fta = 4 := by decide
  exact ⟨ears_admitted, withRx_inv _ ⟨rfl, by decide, by rw [hf]; decide⟩, withRx_inv _ ⟨rfl, by decide, by rw [hf]; decide⟩,
    withRx_inv _ ⟨rfl, by decide, by rw [hf]; decide⟩, hf, by decide, by decide, by decide⟩

/-- A length the codec gives as 0, which decodes; and one of 141, which does not (R227). -/
theorem test_meets_LastAnalysisTickDecodes :
    ears.Admitted ∧ (withRx (small .variable) (rxAt .analyzing 8 0 1) [quiet 0]).Inv ∧ (rxAt .analyzing 8 0 1).flta.toNat = 1 ∧
    decodePayload ears (small .variable) [] = some ([], 0) ∧ decodePayload ears (small .variable) [(0, 141)] = none ∧
    (decodePayload ears (small .variable) [(0, 140)]).isSome = true := by
  have hf : (small .variable).fta = 7 := by decide
  exact ⟨ears_admitted, withRx_inv _ ⟨rfl, by decide, by rw [hf]; decide⟩, by decide, by decide +kernel, by decide +kernel,
    by decide +kernel⟩

theorem test_meets_RunOfReceivesIsRunOfTicks :
    let s := pending (withRx Cfg.reset Rx.reset [loud, quiet 0, quiet 9])
      [.command 0x1000000000000000#64, .command 0x1000000000000000#64]
    s.port.source = [loud, quiet 0] ++ [quiet 9] ∧
    s.port.events = List.replicate [loud, quiet 0].length (.command 0x1000000000000000#64) ++ [] := ⟨rfl, rfl⟩

/-- Silence at the floor 0: exactly at the threshold. -/
theorem test_meets_SubthresholdFramesNeverLock :
    Rx.reset.rxstate = .listening ∧ Rx.reset.run = 0 ∧
    Rx.reset.AllTicks ears (small .fixed) (fun r a => 0 < a.count.val → r.belowThreshold ears (small .fixed) a) [quiet 1024] := by
  refine ⟨rfl, rfl, fun _ j _ _ => ?_, trivial⟩
  have := ears.val_nonneg Rx.reset.floor
  rw [val_heard ears_hears, earsHear, get_quiet]
  simp
  linarith

/-- Eight marker frames lock on the eighth. -/
theorem test_meets_LockNeedsEightMatchesInARow :
    Rx.reset.rxstate = .listening ∧ Rx.reset.run = 0 ∧
    (Rx.reset.ticks ears (small .fixed) (List.replicate 7 loud)).rxstate = .listening ∧
    (Rx.reset.ticks ears (small .fixed) (List.replicate 7 loud ++ [loud])).rxstate = .markerLocked := by
  refine ⟨rfl, rfl, ((warm_loud 7).listening (by omega)).1, ?_⟩
  rw [← List.replicate_succ']
  exact (warm_loud 8).locked (le_refl _)

/-- One more marker frame, the first frame that is none, and another. -/
theorem test_meets_RecordingHoldsTheFramesAfterTheMarker :
    let r := rxAt .markerLocked 8 0 0
    ears.Admitted ∧ (small .fixed).Legal ∧ r.Wf (small .fixed) ∧ r.rxstate = .markerLocked ∧
    (∀ a ∈ [loud] ++ quiet 1024 :: [quiet 3], 0 < a.count.val) ∧
    r.AllTicks ears (small .fixed) (fun r a => r.matchesMarker ears (small .fixed) a = true) [loud] ∧
    (r.ticks ears (small .fixed) [loud]).matchesMarker ears (small .fixed) (quiet 1024) = false ∧
    [quiet 3].length + 1 < (small .fixed).ftr := by
  have hw : (rxAt .markerLocked 8 0 0).Wf (small .fixed) := rxAt_wf ⟨rfl, rfl, by decide⟩
  refine ⟨ears_admitted, small_legal _, hw, rfl, by decide, ⟨?_, trivial⟩, ?_, by decide⟩
  · exact loud_matches (heard_rxAt _ _ _ _ _) .fixed
  · exact quiet_differs (Heard.ticks ears_hears (heard_rxAt _ _ _ _ _) _ [loud]) .fixed 1024

theorem test_meets_CandidateEndsAfterTwiceTheBudget :
    let r := rxAt .markerLocked 8 0 0
    ears.Admitted ∧ (small .fixed).Legal ∧ r.Wf (small .fixed) ∧ r.rxstate = .markerLocked ∧ 0 < (quiet 1024).count.val ∧
    r.matchesMarker ears (small .fixed) (quiet 1024) = false ∧ (∀ a ∈ [loud, quiet 1, loud], 0 < a.count.val) ∧
    [loud, quiet 1, loud].length + 1 = (small .fixed).ftr ∧ [quiet 0, quiet 0, loud, quiet 0].length = (small .fixed).fta :=
  ⟨ears_admitted, small_legal _, rxAt_wf ⟨rfl, rfl, by decide⟩, rfl, by decide,
    quiet_differs (heard_rxAt _ _ _ _ _) .fixed 1024, by decide, by decide, by decide⟩

theorem test_meets_AnalysisDecidesEveryGroupByItsWindow :
    let r := rxAt .analyzing 8 0 4
    ears.Admitted ∧ (small .fixed).Legal ∧ r.Wf (small .fixed) ∧ r.rxstate = .analyzing ∧ r.flta.toNat = (small .fixed).fta ∧
    (∀ k : Fin 256, ears.val (r.acc.get k) = 0) ∧ ears.val r.facc = 0 ∧ r.rxraw = [] ∧ [quiet 0, loud, quiet 0, quiet 1].length = (small .fixed).fta := by
  have hf : (small .fixed).fta = 4 := by decide
  exact ⟨ears_admitted, small_legal _, rxAt_wf ⟨rfl, by decide, by rw [hf]; decide⟩, rfl, by decide, fun k => by simp [rxAt, Rx.reset],
    rfl, rfl, by decide⟩

/-- Both modes, each with its greatest number of byte errors: one in the length codeword, ECC div 2 in the payload codeword. -/
theorem test_meets_CodewordWithFewErrorsDecodesToItsText :
    let text : List Byte := [0x68, 0x69]
    let e1 : List Byte := [9, 0, 0]
    let e2 : List Byte := [1, 0, 0, 0]
    let e3 : List Byte := List.replicate 33 0 ++ [1]
    knowsHi.Admitted ∧ (∀ m, (small m).Legal) ∧ text.length ≤ 140 ∧
    (knowsHi.Corrects 2 [BitVec.ofNat 8 text.length] ∧ knowsHi.Corrects (small .variable).ecc.toNat text ∧
      e1.length = 3 ∧ byteWeight e1 ≤ 1 ∧ e2.length = text.length + (small .variable).ecc.toNat ∧
      byteWeight e2 ≤ (small .variable).ecc.toNat / 2 ∧
      ∀ i < (codeword knowsHi (small .variable) text).length,
        Memory.read Space.rxraw (Memory.fill Space.rxraw [11, 0, 0, 0x69, 0x69]) i =
          (codeword knowsHi (small .variable) text).getD i 0 ^^^ (e1 ++ e2).getD i 0) ∧
    (knowsHi.Corrects (small .fixed).ecc.toNat (fixedPayload text) ∧ e3.length = 32 + (small .fixed).ecc.toNat ∧
      byteWeight e3 ≤ (small .fixed).ecc.toNat / 2 ∧
      ∀ i < (codeword knowsHi (small .fixed) text).length,
        Memory.read Space.rxraw (Memory.fill Space.rxraw ([0x68, 0x69] ++ List.replicate 31 0 ++ [1])) i =
          (codeword knowsHi (small .fixed) text).getD i 0 ^^^ e3.getD i 0) := by
  refine ⟨knowsHi_admitted, small_legal, by decide, ⟨?_, ?_, by decide, by decide, by decide, by decide, by decide +kernel⟩,
    ⟨?_, by decide, by decide, by decide +kernel⟩⟩
  · exact knows_corrects rfl rfl _ _ (fun _ => by decide) (fun h => by simp at h) (fun h => by simp at h) (by simp)
  · exact knows_corrects rfl rfl _ _ (fun h => by simp at h) (fun _ => rfl) (fun h => by simp at h) (by simp)
  · exact knows_corrects rfl rfl _ _ (fun h => by rw [length_fixedPayload] at h; omega) (fun h => by rw [length_fixedPayload] at h; omega)
      (fun _ => rfl) (by rw [length_fixedPayload]; omega)

def hiText : List Byte := [0x68, 0x69]

/-- What "hi" is encoded to at FPT = 1, BPT = 32, in each mode: group 0 and, in FixedLength mode, two parity bytes in group 1. -/
def hiBytes : Mode → List Byte
  | .variable => [2, 0, 0, 0x68, 0x69, 0, 0]
  | .fixed => fixedPayload hiText ++ [0, 0]

theorem hi_codeword (m : Mode) : codeword knowsHi (small m) hiText = hiBytes m := by cases m <;> decide +kernel

/-- Past the 32 bytes of the payload the codeword is zeros. -/
theorem hiBytes_tail {m : Mode} {i : Nat} (hi : 32 ≤ i) : (hiBytes m).getD i 0 = 0 := by
  cases m
  · exact List.getD_eq_default _ _ (by simp [hiBytes]; omega)
  · rw [hiBytes, List.getD_append_right _ _ _ _ (by rw [length_fixedPayload]; exact hi)]
    generalize i - (fixedPayload hiText).length = j
    rcases j with _ | _ | j <;> rfl

/-- Row 2 of its recording, which holds group 0: magnitude 1 at each 1 bit. -/
def hiRow (m : Mode) : RecRow := Vector.ofFn fun k =>
  if ((hiBytes m).getD (k.val / 8) 0).getLsbD (k.val % 8) then .bin (Vector.replicate 1024 0) 0 else .zero

/-- A receiver about to analyze that recording. -/
def hiRx (m : Mode) : Rx :=
  { rxAt .analyzing 8 0 (BitVec.ofNat 16 (small m).fta) with recMem := Memory.write Space.recMem [] 2 (hiRow m) }

theorem withRec_wf {c : Cfg} {q : Rx} (hq : q.Wf c) {m : RowMem RecRow} (h1 : Memory.wf Space.recMem m) :
    Rx.Wf c { q with recMem := m } := { hq with recMem := h1 }

theorem hiRx_wf (m : Mode) : (hiRx m).Wf (small m) := by
  have hc : (rxAt .analyzing 8 0 (BitVec.ofNat 16 (small m).fta)).CursorsFit (small m) := by
    cases m <;> exact ⟨rfl, by decide, by decide⟩
  exact withRec_wf (rxAt_wf hc) (Memory.wf_write _ (Memory.wf_nil _) _ _)

/-- A recording that holds only the window of the codeword of "hi" reads as that codeword. -/
theorem hiRow_bits (m : Mode) (r : Rx) (hm : r.recMem = Memory.write Space.recMem [] 2 (hiRow m)) (hl : r.recf = []) :
    ∀ g < (small m).gmax, ∀ k : Fin 256, k.val < (small m).ndb →
      g * (small m).bpt.toNat + k.val / 8 < (codeword knowsHi (small m) hiText).length →
      (r.WindowBit knowsHi (small m) g k ↔
        ((codeword knowsHi (small m) hiText).getD (g * (small m).bpt.toNat + k.val / 8) 0).getLsbD (k.val % 8) = true) := by
  have hw : (small m).window = 1 := by cases m <;> decide
  have hn : (small m).nbl = 0 := by cases m <;> decide
  have hb : (small m).bpt.toNat = 32 := by cases m <;> decide
  have hp : (small m).fpt.toNat = 1 := by cases m <;> decide
  have hz : ∀ i, 32 ≤ i → (hiBytes m).getD i 0 = 0 := fun _ => hiBytes_tail
  rw [hi_codeword]
  intro g _ k _ _
  have e1 : r.windowFloor knowsHi (small m) g 1 = 0 := by
    simp [Rx.windowFloor, hl, Space.recf]
  have e2 : r.windowSum knowsHi (small m) g 1 k = if g = 0 then knowsHi.val ((hiRow m).get k) else 0 := by
    simp only [Rx.windowSum, List.range_one, List.map_cons, List.map_nil, List.sum_cons, List.sum_nil, hn, hm, hp, add_zero]
    rw [Memory.read_write _ (Memory.wf_nil _)]
    split
    · rw [if_pos (by omega)]
    · rename_i h
      rw [if_neg (fun hg => h ⟨by omega, by decide⟩)]
      simp [Space.recMem]
  rw [Rx.windowBit_iff, hw, e1, e2, hb]
  split
  · rename_i hg
    subst hg
    simp only [hiRow, Vector.get_ofFn, Nat.zero_mul, Nat.zero_add]
    by_cases h : ((hiBytes m).getD (k.val / 8) 0).getLsbD (k.val % 8) = true
    · have e3 : knowsHi.val (.bin (Vector.replicate 1024 0) 0) = 1 := by simp [knowsHi, hears, Engine.ofSpecMag]
      rw [if_pos h, e3]
      exact iff_of_true (by norm_num) h
    · rw [if_neg h, Params.val_zero]
      exact iff_of_false (by norm_num) h
  · rw [hz _ (by omega)]
    simp

theorem hiRx_start (m : Mode) : (hiRx m).rxstate = .analyzing ∧ (hiRx m).flta.toNat = (small m).fta ∧
    (∀ k : Fin 256, knowsHi.val ((hiRx m).acc.get k) = 0) ∧ knowsHi.val (hiRx m).facc = 0 ∧ (hiRx m).rxraw = [] := by
  refine ⟨rfl, ?_, fun k => by simp [hiRx, rxAt, Rx.reset], rfl, rfl⟩
  show (BitVec.ofNat 16 (small m).fta).toNat = _
  cases m <;> decide

theorem hiText_corrects {P : Params} (he : P.enc = appendZeros) (hd : P.dec = decodeHi) :
    P.Corrects 2 [BitVec.ofNat 8 hiText.length] ∧ P.Corrects 2 hiText ∧ P.Corrects 2 (fixedPayload hiText) :=
  ⟨knows_corrects he hd _ _ (fun _ => by decide) (fun h => by simp [hiText] at h) (fun h => by simp [hiText] at h) (by simp),
    knows_corrects he hd _ _ (fun h => by simp [hiText] at h) (fun _ => rfl) (fun h => by simp [hiText] at h) (by simp [hiText]),
    knows_corrects he hd _ _ (fun h => by rw [length_fixedPayload] at h; omega) (fun h => by rw [length_fixedPayload] at h; omega)
      (fun _ => rfl) (by rw [length_fixedPayload]; omega)⟩

/-- Both modes. -/
theorem test_meets_CleanRecordingDeliversItsText :
    knowsHi.Admitted ∧ hiText.length ≤ 140 ∧
    knowsHi.Corrects 2 [BitVec.ofNat 8 hiText.length] ∧ knowsHi.Corrects (small .variable).ecc.toNat hiText ∧
    knowsHi.Corrects (small .fixed).ecc.toNat (hiText.take 32 ++ List.replicate (32 - hiText.length) 0) ∧
    ∀ m, (small m).mode = m ∧ (small m).Legal ∧ (hiRx m).Wf (small m) ∧
    ((hiRx m).rxstate = .analyzing ∧ (hiRx m).flta.toNat = (small m).fta ∧
      (∀ k : Fin 256, knowsHi.val ((hiRx m).acc.get k) = 0) ∧ knowsHi.val (hiRx m).facc = 0 ∧ (hiRx m).rxraw = []) ∧
    (List.replicate (small m).fta (quiet 0)).length = (small m).fta ∧
    ∀ g < (small m).gmax, ∀ k : Fin 256, k.val < (small m).ndb →
      g * (small m).bpt.toNat + k.val / 8 < (codeword knowsHi (small m) hiText).length →
      ((hiRx m).WindowBit knowsHi (small m) g k ↔
        ((codeword knowsHi (small m) hiText).getD (g * (small m).bpt.toNat + k.val / 8) 0).getLsbD (k.val % 8) = true) := by
  obtain ⟨h1, h2, h3⟩ := hiText_corrects (P := knowsHi) rfl rfl
  exact ⟨knowsHi_admitted, by decide, h1, h2, h3, fun m => ⟨rfl, small_legal m, hiRx_wf m, hiRx_start m, List.length_replicate,
    hiRow_bits m (hiRx m) (by simp only [hiRx]) (by simp only [hiRx, rxAt, Rx.reset])⟩⟩

/-! ### A loopback of the text "hi", in both modes -/

/-- The groups of a session of "hi" at the smallest configuration. -/
def hiGroups : Mode → Nat
  | .variable => 1
  | .fixed => 2

/-- The frames of that session, and one of silence. -/
def hiFrames (m : Mode) : List Answer :=
  sessionAnswers (small m) (Memory.fill Space.enc (hiBytes m)) (hiGroups m) ++ [quiet 1024]

/-- Sample n of frame f of that session. -/
def hiSample (m : Mode) (f n : Nat) : Int := frameSample (small m) (Memory.fill Space.enc (hiBytes m)) (hiGroups m) f n

theorem length_hiFrames (m : Mode) : (hiFrames m).length = 29 + hiGroups m := by
  have e : sessionFrames (small m) (hiGroups m) = 28 + hiGroups m := by cases m <;> decide
  simp [hiFrames, sessionAnswers, e]; omega

theorem get_hiFrames {m : Mode} {f : Nat} (hf : f < 28 + hiGroups m) : (hiFrames m).getD f default =
    ⟨1024, Vector.ofFn fun n => BitVec.ofInt 16 (hiSample m f n.val)⟩ := by
  have e : sessionFrames (small m) (hiGroups m) = 28 + hiGroups m := by cases m <;> decide
  rw [hiFrames, List.getD_append _ _ _ _ (by simpa [sessionAnswers, e] using hf)]
  simp [sessionAnswers, e, hf, hiSample]

/-- What the receiver is to hear: the marker in the MARKER frames, and the bits of the payload in the frame of group 0. -/
def loopHear (m : Mode) (x : Frame) (b : Nat) : Bool :=
  if x.get 1 = BitVec.ofInt 16 (hiSample m 0 1) then markerBins b
  else if x.get 1 = BitVec.ofInt 16 (hiSample m 18 1) then
    17 ≤ b && b ≤ 272 && ((hiBytes m).getD ((b - 17) / 8) 0).getLsbD ((b - 17) % 8)
  else false

/-- Collaborators that hear so. -/
noncomputable def loop (m : Mode) : Params := ⟨hears (loopHear m), appendZeros, decodeHi⟩

theorem loop_hears (m : Mode) : Hears (loop m) (loopHear m) := by
  refine ⟨rfl, fun x b hb => ?_⟩
  unfold loopHear
  split
  · simp [markerBins]; omega
  · split
    · simp; omega
    · rfl

theorem loopHear_frame {m : Mode} {f : Nat} (hf : f < 28 + hiGroups m) : loopHear m (zeroPad ((hiFrames m).getD f default)) = fun b =>
    if BitVec.ofInt 16 (hiSample m f 1) = BitVec.ofInt 16 (hiSample m 0 1) then markerBins b
    else if BitVec.ofInt 16 (hiSample m f 1) = BitVec.ofInt 16 (hiSample m 18 1) then
      17 ≤ b && b ≤ 272 && ((hiBytes m).getD ((b - 17) / 8) 0).getLsbD ((b - 17) % 8)
    else false := by
  have e : (zeroPad ((hiFrames m).getD f default)).get 1 = BitVec.ofInt 16 (hiSample m f 1) := by
    rw [get_zeroPad, get_hiFrames hf]
    simp [Vector.get_ofFn]
  unfold loopHear
  rw [e]

/-- Sample 1 tells the frames apart: MARKER, the ramp-up and group 0. -/
theorem hiSamples (m : Mode) : (List.range 16).all (fun f => hiSample m f 1 == hiSample m 0 1) = true ∧
    BitVec.ofInt 16 (hiSample m 16 1) ≠ BitVec.ofInt 16 (hiSample m 0 1) ∧
    BitVec.ofInt 16 (hiSample m 18 1) ≠ BitVec.ofInt 16 (hiSample m 0 1) := by cases m <;> decide +kernel

/-- And, in FixedLength mode, group 1, which is silent. -/
theorem hiSamples_fixed : BitVec.ofInt 16 (hiSample .fixed 19 1) ≠ BitVec.ofInt 16 (hiSample .fixed 0 1) ∧
    BitVec.ofInt 16 (hiSample .fixed 19 1) ≠ BitVec.ofInt 16 (hiSample .fixed 18 1) := by decide +kernel

theorem warm_loop (m : Mode) : ∀ n ≤ 16, Warm (loop m) n (Rx.reset.ticks (loop m) (small m) ((hiFrames m).take n)) := by
  intro n
  induction n with
  | zero => exact fun _ => warm_reset (loop m)
  | succ n ih =>
    intro hn
    have hlen := length_hiFrames m
    have hg := get_hiFrames (m := m) (f := n) (by omega)
    have e : (hiFrames m).take (n + 1) = (hiFrames m).take n ++ [(hiFrames m).getD n default] := by
      rw [List.take_add_one, List.getD_eq_getElem?_getD, List.getElem?_eq_getElem (by omega)]
      rfl
    have h := ih (by omega)
    rw [e, Rx.ticks_concat]
    refine h.tick (loop_hears m) (by rw [hg]; exact Nat.zero_lt_succ 1023) ?_
    have hs := List.all_eq_true.1 (hiSamples m).1 n (List.mem_range.2 (by omega))
    rw [matches_heard (loop_hears m) h.heard, loopHear_frame (by omega), beq_iff_eq.1 hs]
    simp only [if_true]
    decide

/-- The frame of group g carries the bits of the codeword. -/
theorem loopHear_group {m : Mode} {g k : Nat} (hg : g < hiGroups m) (hk : k < 256) :
    loopHear m (zeroPad ((hiFrames m).getD (18 + g) default)) (17 + k) = ((hiBytes m).getD (g * 32 + k / 8) 0).getLsbD (k % 8) := by
  rw [loopHear_frame (by omega)]
  have h3 : 17 + k ≤ 272 := by omega
  rcases Nat.eq_zero_or_pos g with rfl | hpos
  · simp only [add_zero, (hiSamples m).2.2, if_false, if_true, Nat.zero_mul, Nat.zero_add, Nat.add_sub_cancel_left]
    simp [h3]
  · cases m
    · simp only [hiGroups] at hg; omega
    · simp only [hiGroups] at hg
      have : g = 1 := by omega
      subst this
      beta_reduce
      rw [show 18 + 1 = 19 from rfl, if_neg hiSamples_fixed.1, if_neg hiSamples_fixed.2, hiBytes_tail (by omega)]
      simp

/-- The session of "hi" in each mode, from the reset receiver: locked after the 16 MARKER frames, frame 16 is no marker, and
the frames of its groups read as the codeword. In VariableLength mode the recording runs on into the silence. -/
theorem test_meets_LoopbackDeliversThePayload (m : Mode) :
    let P := loop m
    let c := small m
    let cw := codeword P c hiText
    let heard := sessionAnswers c (Memory.fill Space.enc cw) (ceilDiv cw.length c.bpt.toNat) ++ [quiet 1024]
    let at' := fun n => Rx.reset.ticks P c (heard.take n)
    let frame := fun f => heard.getD f default
    P.Admitted ∧ c.Legal ∧ Rx.reset.Wf c ∧ Rx.reset.rxstate = .listening ∧ hiText.length ≤ 140 ∧ c.mode = m ∧
    P.Corrects 2 [BitVec.ofNat 8 hiText.length] ∧
    P.Corrects c.ecc.toNat (match c.mode with
      | .variable => hiText
      | .fixed => hiText.take 32 ++ List.replicate (32 - hiText.length) 0) ∧
    (∀ a ∈ [quiet 1024], 0 < a.count.val) ∧
    16 + 2 * c.ftr ≤ heard.length ∧ (at' 16).rxstate = .markerLocked ∧ (at' 16).matchesMarker P c (frame 16) = false ∧
    ∀ g < c.gmax, ∀ k < c.ndb, g * c.bpt.toNat + k / 8 < cw.length →
      let window := (List.range c.window).map fun i => 18 + g * c.fpt.toNat + c.nbl + i
      ((cw.getD (g * c.bpt.toNat + k / 8) 0).getLsbD (k % 8) = true ↔
        3 * (window.map fun f => P.val (at' f).floor).sum <
          2 * (window.map fun f => P.val (elem (spectrum (zeroPad (frame f))) .zero (c.db k))).sum) := by
  have hcw : codeword (loop m) (small m) hiText = hiBytes m := by cases m <;> decide +kernel
  have hG : ceilDiv (hiBytes m).length (small m).bpt.toNat = hiGroups m := by cases m <;> decide
  have hs : sessionAnswers (small m) (Memory.fill Space.enc (hiBytes m)) (hiGroups m) ++ [quiet 1024] = hiFrames m := rfl
  have hw : Rx.reset.Wf (small m) := rxAt_wf (st := .listening) (run := 0) (fltr := 0) (flta := 0) ⟨rfl, rfl, by decide⟩
  have hheard : ∀ n, Heard (loop m) (Rx.reset.ticks (loop m) (small m) ((hiFrames m).take n)) := fun n =>
    Heard.ticks (loop_hears m) (heard_reset _ rfl) _ _
  obtain ⟨c1, c2, c3⟩ := hiText_corrects (P := loop m) rfl rfl
  dsimp only
  rw [hcw, hG, hs]
  refine ⟨knows_codec rfl rfl, small_legal _, hw, rfl, by decide, rfl, c1, ?_, by decide, ?_, (warm_loop m 16 (le_refl _)).locked (by omega),
    ?_, fun g hg k hk hlt => ?_⟩
  · cases m
    · exact c2
    · exact c3
  · rw [length_hiFrames]
    cases m <;> decide
  · rw [matches_heard (loop_hears m) (hheard 16), loopHear_frame (by omega)]
    simp only [(hiSamples m).2.1, if_false]
    split
    · simp
      exact ⟨0, by omega, by simp⟩
    · decide
  · have h1 := (hheard (18 + g)).floor
    have h2 := (loop m).val_nonneg (Rx.reset.ticks (loop m) (small m) ((hiFrames m).take (18 + g))).floor
    have e1 : (small m).window = 1 := by cases m <;> decide
    have e2 : (small m).nbl = 0 := by cases m <;> decide
    have e3 : (small m).fpt.toNat = 1 := by cases m <;> decide
    have e4 : (small m).bpt.toNat = 32 := by cases m <;> decide
    have e7 : (small m).ndb = 256 := by cases m <;> decide
    rw [e7] at hk
    rw [e4] at hlt
    have hgr : g < hiGroups m := by
      cases m
      · simp only [hiBytes, hiGroups, List.length_cons, List.length_nil] at hlt ⊢; omega
      · rw [hiBytes, List.length_append, length_fixedPayload] at hlt
        simp only [hiGroups, List.length_cons, List.length_nil] at hlt ⊢; omega
    have e5 : (small m).db k = 17 + k := by simp [Cfg.db, Cfg.slotBin, Config.markerBits, small, Cfg.reset]; omega
    simp only [e1, e2, e3, e4, e5, List.range_one, List.map_cons, List.map_nil, List.sum_cons, List.sum_nil, add_zero, mul_one]
    rw [val_heard (loop_hears m), ← loopHear_group hgr hk]
    generalize loopHear m (zeroPad ((hiFrames m).getD (18 + g) default)) (17 + k) = v
    cases v
    · exact iff_of_false (by decide) (by simp; linarith)
    · exact iff_of_true rfl (by simp; linarith)

/-- The lowest and the highest bin, at the greatest amplitude. -/
theorem test_meets_TemplatesAreNearlyPureTonesUnderTheReferenceEngine :
    Cfg.Legal { Cfg.reset with vol := 100, bpt := 1 } ∧ (1 ≤ 1 ∧ 1 ≤ 511) ∧ (1 ≤ 511 ∧ 511 ≤ 511) := by decide

/-- A floor of 0. -/
theorem test_meets_MarkerMatchIsTheExactPattern : cid.val Rx.reset.floor = 0 := by
  rw [Rx.val_floor]
  exact (mul_eq_zero.2 (.inr (Finset.sum_eq_zero fun i _ => rfl)))

theorem test_meets_RdrxBeyondTheLengthReadsZero :
    State.reset.Inv ∧ State.reset.rx.rxlen.toNat ≤ (139 : BitVec 8).toNat ∧ (139 : BitVec 8).toNat < 140 :=
  ⟨reset_inv, by decide, by decide⟩

theorem test_meets_BudgetQueriesAnswerTheRecordingBudget : State.reset.Inv := reset_inv

end Sys2Proof.Tests
end

section
/-! PROOFS. The statements about the state (spec/10_state.md): what one command can do to the block, the frame of each command
family, the invariant of the machine, the buffers a legal configuration fits, and the noise floor as a mean. -/

namespace Sys2Proof.Machine

/-! ### What one command can do -/

/-- What a completed command makes of the state, one constructor per way of writing the block. -/
inductive CommandEffect (s : State) : Instr → State → Prop
  /-- The command only answers: a query, a rejected command, SEND without a session. -/
  | answers (i : Instr) (st : Status) (r : Result) : CommandEffect s i (s.respond st r)
  /-- SETPARAM and SETRATE commit a legal configuration and make the tone table dirty (40_config.md R122, R132). -/
  | retunes {i : Instr} (hi : i.isConfig = true) {c : Cfg} (hc : s.cfg.Legal → c.Legal) (st : Status) (r : Result) :
      CommandEffect s i ((s.markToneDirty.commitConfig c).respond st r)
  /-- SETMODE and SETECC commit a legal configuration with the same tones (40_config.md R128, R130). -/
  | recodes {i : Instr} (hi : i.isConfig = true) {c : Cfg} (hc : s.cfg.Legal → c.Legal) (hndb : c.ndb = s.cfg.ndb)
      (hrow : toneRow c = toneRow s.cfg) (st : Status) (r : Result) : CommandEffect s i ((s.commitConfig c).respond st r)
  /-- WTXB writes the staging buffer (41_tx.md R150). -/
  | stages (idx data : BitVec 8) (hidx : idx.toNat < 140) : CommandEffect s (.wtxb idx data)
      (State.respond { s with tx := { s.tx with txstage := Memory.write Space.txstage s.tx.txstage idx.toNat data } } .ok 0)
  /-- INIT starts a session (41_tx.md R152). -/
  | starts (len : BitVec 8) : CommandEffect s (.init len) (s.initSession Config.params len.toNat)
  /-- SEND emits a frame of the session in flight (41_tx.md R175). -/
  | sends (hd : s.tx.hasdata = true) : CommandEffect s .send s.sendFrame
  /-- RECEIVE takes one tick (42_rx.md R200). -/
  | receives : CommandEffect s .receive (s.receiveFrame Config.params)

theorem Knobs.clamp_widths {k : Knobs} (hfd : k.fd < 2 ^ 8) (hfs : k.fs < 2 ^ 10) (hfpt : k.fpt < 2 ^ 4) :
    k.clamp.fd < 2 ^ 8 ∧ k.clamp.fs < 2 ^ 10 ∧ k.clamp.fpt < 2 ^ 4 :=
  ⟨raiseZero_lt hfd (by norm_num), raiseZero_lt hfs (by norm_num), raiseZero_lt hfpt (by norm_num)⟩

/-- Knobs that fit their fields, clamped and below the Nyquist limit, are legal configuration values (R122, R124). -/
theorem Cfg.Legal.withKnobs {c : Cfg} (h : c.Legal) {k : Knobs} (hfd : k.fd < 2 ^ 8) (hfs : k.fs < 2 ^ 10) (hfpt : k.fpt < 2 ^ 4)
    (hk : ¬ k.clamp.beyondNyquist = true) : (c.withKnobs k.clamp).Legal := by
  obtain ⟨wfd, wfs, wfpt⟩ := Knobs.clamp_widths hfd hfs hfpt
  obtain ⟨fd1, fs1, fpt1, bpt1, bpt32, vol100⟩ := k.clamp_bounds
  rw [Knobs.beyondNyquist_iff, not_lt] at hk
  obtain ⟨-, -, -, -, -, -, -, hcodecAndRates⟩ := h
  have efd : (c.withKnobs k.clamp).fdelta.toNat = k.clamp.fd := Nat.mod_eq_of_lt wfd
  have efs : (c.withKnobs k.clamp).fstart.toNat = k.clamp.fs := Nat.mod_eq_of_lt wfs
  have efpt : (c.withKnobs k.clamp).fpt.toNat = k.clamp.fpt := Nat.mod_eq_of_lt wfpt
  have ebpt : (c.withKnobs k.clamp).bpt.toNat = k.clamp.bpt := Nat.mod_eq_of_lt (by omega)
  have evol : (c.withKnobs k.clamp).vol.toNat = k.clamp.vol := Nat.mod_eq_of_lt (by omega)
  rw [Legal, topBin, efd, efs, efpt, ebpt, evol]
  exact ⟨fd1, fs1, hk, fpt1, bpt1, bpt32, vol100, hcodecAndRates⟩

/-- Rates in their range are legal (R132). -/
theorem Cfg.Legal.withRates {c : Cfg} (h : c.Legal) {rin rout : BitVec 24} (hin : rateInRange rin.toNat = true)
    (hout : rateInRange rout.toNat = true) : Cfg.Legal { c with rateIn := rin, rateOut := rout } := by
  rw [rateInRange_iff] at hin hout
  obtain ⟨fd1, fs1, htop, fpt1, bpt1, bpt32, vol100, ecc2, ecc64, -⟩ := h
  exact ⟨fd1, fs1, htop, fpt1, bpt1, bpt32, vol100, ecc2, ecc64, hin.1, hin.2, hout.1, hout.2⟩

/-- A clamped parity count is legal (R130). -/
theorem Cfg.Legal.withEcc {c : Cfg} (h : c.Legal) (e : Nat) : Cfg.Legal { c with ecc := BitVec.ofNat 7 (clampEcc e) } := by
  obtain ⟨ecc2, ecc64⟩ := clampEcc_bounds e
  have hv : (BitVec.ofNat 7 (clampEcc e)).toNat = clampEcc e := Nat.mod_eq_of_lt (by omega)
  rw [← hv] at ecc2 ecc64
  obtain ⟨fd1, fs1, htop, fpt1, bpt1, bpt32, vol100, -, -, hrates⟩ := h
  exact ⟨fd1, fs1, htop, fpt1, bpt1, bpt32, vol100, ecc2, ecc64, hrates⟩

/-- Every mode is legal (R128). -/
theorem Cfg.Legal.withMode {c : Cfg} (h : c.Legal) (m : Mode) : Cfg.Legal { c with mode := m } := h

section
variable {s t : State}

theorem execSetparam_effect {fd : BitVec 8} {fs : BitVec 10} {fpt : BitVec 4} {bpt : BitVec 6} {vol : BitVec 7}
    (h : execSetparam fd fs fpt bpt vol s = .next t) : CommandEffect s (.setparam fd fs fpt bpt vol) t := by
  obtain rfl := Host.Outcome.next.inj h
  split
  · exact .answers ..
  · next hk => exact .retunes rfl (fun hc => hc.withKnobs fd.isLt fs.isLt fpt.isLt hk) ..

theorem execSetrate_effect {rin rout : BitVec 24} (h : execSetrate rin rout s = .next t) :
    CommandEffect s (.setrate rin rout) t := by
  obtain rfl := Host.Outcome.next.inj h
  split
  · next hr =>
    rw [Bool.and_eq_true] at hr
    exact .retunes rfl (fun hc => hc.withRates hr.1 hr.2) ..
  · exact .answers ..

theorem execWtxb_effect {idx data : BitVec 8} (h : execWtxb idx data s = .next t) : CommandEffect s (.wtxb idx data) t := by
  obtain rfl := Host.Outcome.next.inj h
  split
  · next hidx => exact .stages idx data ((indexInRange_iff _).1 hidx)
  · exact .answers ..

theorem execSend_effect (h : execSend s = .next t) : CommandEffect s .send t := by
  obtain rfl := Host.Outcome.next.inj h
  split
  · next hd => exact .sends hd
  · exact .answers ..

theorem execRdrx_effect {idx : BitVec 8} (h : execRdrx idx s = .next t) : CommandEffect s (.rdrx idx) t := by
  obtain rfl := Host.Outcome.next.inj h
  split <;> exact .answers ..

/-- Every command that completes has one of the effects. -/
theorem exec_effect {i : Instr} (h : exec i s = .next t) : CommandEffect s i t := by
  cases i with
  | setparam => exact execSetparam_effect h
  | setmode m =>
    obtain rfl := Host.Outcome.next.inj h
    exact .recodes rfl (fun hc => hc.withMode (.ofBit m)) rfl rfl ..
  | setecc e =>
    obtain rfl := Host.Outcome.next.inj h
    exact .recodes rfl (fun hc => hc.withEcc e.toNat) rfl rfl ..
  | setrate => exact execSetrate_effect h
  | wtxb => exact execWtxb_effect h
  | init len =>
    obtain rfl := Host.Outcome.next.inj h
    exact .starts len
  | send => exact execSend_effect h
  | receive =>
    obtain rfl := Host.Outcome.next.inj h
    exact .receives
  | rdrx => exact execRdrx_effect h
  | getrxlen | gethasdata | getavgrxt | getftr | getfltr | getfta | getflta | gettbc | getrxstate | getratein | getrateout
  | getspf | getssbin | getssbout =>
    obtain rfl := Host.Outcome.next.inj h
    exact .answers ..

/-- Everything a step can do: hold the state, reset the block, turn an illegal word away, or run a command. -/
theorem step_cases (h : step s = .next t) :
    t = s ∨ t = s.takeEvent.applyReset ∨ t = s.takeEvent.illegal ∨ ∃ i, exec i s.takeEvent = .next t := by
  unfold step at h
  split at h
  · exact .inl (Host.Outcome.next.inj h).symm
  · exact .inr (.inl (Host.Outcome.next.inj h).symm)
  · split at h
    · exact .inr (.inr (.inr ⟨_, h⟩))
    · exact .inr (.inr (.inl (Host.Outcome.next.inj h).symm))

/-! ### The invariant -/

theorem State.Inv.reset : State.reset.Inv := ⟨by decide, Tx.Wf.reset, Rx.Wf.reset⟩

/-- The invariant speaks of the block only, not of its ports. -/
theorem State.Inv.of_block_eq (h : s.Inv) (hcfg : t.cfg = s.cfg) (htx : t.tx = s.tx) (hrx : t.rx = s.rx) : t.Inv :=
  ⟨hcfg ▸ h.cfg, by rw [hcfg, htx]; exact h.tx, by rw [hcfg, hrx]; exact h.rx⟩

theorem State.Inv.respond (h : s.Inv) (st : Status) (r : Result) : (s.respond st r).Inv := h.of_block_eq rfl rfl rfl

/-- Committing a legal configuration keeps the invariant if the tone table is dirty or agrees with it (R134). -/
theorem State.Inv.commitConfig (h : s.Inv) {c : Cfg} (hc : c.Legal) (ht : ToneCoherent c s.tx) : (s.commitConfig c).Inv :=
  ⟨hc, h.tx.abort ht, h.rx.abort⟩

theorem State.Inv.markToneDirty (h : s.Inv) : s.markToneDirty.Inv := ⟨h.cfg, h.tx.setTtDirty, h.rx⟩

theorem toneCoherent_markToneDirty (c : Cfg) (s : State) :
    ToneCoherent c s.markToneDirty.tx := fun hclean => nomatch hclean

/-- The tone table depends on the configuration only through the tones. -/
theorem ToneCoherent.of_sameTones {c c' : Cfg} {x : Tx} (h : ToneCoherent c x) (hndb : c'.ndb = c.ndb)
    (hrow : toneRow c' = toneRow c) : ToneCoherent c' x := by
  unfold ToneCoherent
  rw [hndb, hrow]
  exact h

theorem Tx.Wf.sendFrame {c : Cfg} (hc : c.Legal) {x : Tx} (h : x.Wf c) (hd : x.hasdata = true) :
    (x.refreshTone c).advance.Wf c := by
  refine (h.refreshTone hc).advance ?_
  rcases x.refreshTone_cases c with ⟨-, e⟩ | ⟨-, e⟩ <;> rw [e] <;> exact hd

theorem State.Inv.sendFrame (h : s.Inv) (hd : s.tx.hasdata = true) : s.sendFrame.Inv :=
  ⟨h.cfg, h.tx.sendFrame h.cfg hd, h.rx⟩

theorem State.Inv.initSession (h : s.Inv) {P : Params} (hP : P.Admitted) (len : Nat) : (s.initSession P len).Inv :=
  ⟨h.cfg, h.tx.init hP h.cfg len, h.rx⟩

theorem State.Inv.receiveFrame (h : s.Inv) {P : Params} (hP : P.Admitted) : (s.receiveFrame P).Inv :=
  ⟨h.cfg, h.tx, h.rx.tick hP h.cfg _⟩

/-- Every effect of a command keeps the invariant. -/
theorem CommandEffect.keeps_inv {i : Instr} (e : CommandEffect s i t) (h : s.Inv) : t.Inv := by
  cases e with
  | answers => exact h.respond ..
  | retunes _ hc => exact (h.markToneDirty.commitConfig (hc h.cfg) (toneCoherent_markToneDirty _ s)).respond ..
  | recodes _ hc hndb hrow => exact (h.commitConfig (hc h.cfg) (h.tx.coherent.of_sameTones hndb hrow)).respond ..
  | stages => exact ⟨h.cfg, h.tx.setTxstage (Memory.wf_write _ h.tx.txstage _ _), h.rx⟩
  | starts len => exact h.initSession Config.params_admitted _
  | sends hd => exact h.sendFrame hd
  | receives => exact h.receiveFrame Config.params_admitted

theorem step_keeps_inv (h : s.Inv) (hstep : step s = .next t) : t.Inv := by
  have htaken : s.takeEvent.Inv := h.of_block_eq rfl rfl rfl
  rcases step_cases hstep with rfl | rfl | rfl | ⟨i, hexec⟩
  · exact h
  · exact State.Inv.reset.of_block_eq rfl rfl rfl
  · exact htaken.respond ..
  · exact (exec_effect hexec).keeps_inv htaken

end

/-- Settles O15: a step holds the state, resets it, turns a word away or runs a command, and each effect of a command keeps the
invariant. -/
theorem everyStepKeepsTheInvariant : Obligations.EveryStepKeepsTheInvariant :=
  fun _ _ => step_keeps_inv

/-- Settles O14. -/
theorem resetStateMeetsTheInvariant : Obligations.ResetStateMeetsTheInvariant := State.Inv.reset

/-! ### Buffers and frames -/

/-- Settles O16: each bound is a law of the layout of a legal configuration. -/
theorem legalConfigurationFitsEveryBuffer : Obligations.LegalConfigurationFitsEveryBuffer := fun _ h =>
  ⟨h.ftr_le, h.encmax_le, h.gmax_mul_le, h.encmax_le_gmax_mul, h.window_pos, fun _ => h.mb_le, fun _ => h.db_le,
    fun _ hj k _ => h.mb_lt_db hj k⟩

/-- Settles O17: each effect of a command shows which parts of the state it leaves alone. -/
theorem eachFamilyWritesOnlyItsOwnState : Obligations.EachFamilyWritesOnlyItsOwnState := by
  intro i s t h
  cases exec_effect h with
  | answers => exact ⟨fun _ => rfl, fun _ => rfl, fun _ _ _ _ => rfl, fun _ _ => rfl⟩
  | retunes hi | recodes hi =>
    have notConfig : i.isConfig ≠ false := by simp [hi]
    refine ⟨fun hn => absurd hn notConfig, ?_, fun hn => absurd hn notConfig, fun hn => absurd hn notConfig⟩
    rintro (⟨_, _, rfl⟩ | ⟨_, rfl⟩ | rfl) <;> cases hi
  | stages idx data => exact ⟨fun _ => rfl, fun _ => rfl, fun _ hw => absurd rfl (hw idx data), fun _ _ => rfl⟩
  | starts len => exact ⟨fun _ => rfl, fun _ => rfl, fun _ _ hl => absurd rfl (hl len), fun _ _ => rfl⟩
  | sends => exact ⟨fun _ => rfl, fun _ => rfl, fun _ _ _ hs => absurd rfl hs, fun _ _ => rfl⟩
  | receives =>
    refine ⟨fun _ => rfl, ?_, fun _ _ _ _ => rfl, fun _ hr => absurd rfl hr⟩
    rintro (⟨_, _, hi⟩ | ⟨_, hi⟩ | hi) <;> cases hi

/-! ### The noise floor -/

/-- The floor as the mean of AVG over bins 1..511, by value (42_rx.md R206). -/
theorem Rx.val_floor_Icc (P : Params) (r : Rx) : P.val r.floor = (∑ b ∈ Finset.Icc 1 511, P.val (r.avg b)) / 511 := by
  rw [Rx.val_floor, Finset.range_eq_Ico, Finset.sum_Ico_add' (fun b => P.val (r.avg b)) 0 511 1, one_div, inv_mul_eq_div]
  rfl

/-- The floor over the written history, by value (R53, R206). -/
theorem Rx.val_floor_hist (P : Params) {r : Rx} (h : r.hcount.toNat ≤ 4) :
    P.val r.floor = if r.hcount = 0 then 0 else
      (∑ b ∈ Finset.Icc 1 511, (∑ i ∈ Finset.range r.hcount.toNat, P.val (r.histAt i b)) / (r.hcount.toNat : ℝ)) / 511 := by
  rw [Rx.val_floor_Icc]
  simp only [Rx.val_avg P h]
  split
  · simp
  · simp only [one_div, inv_mul_eq_div]

/-- Settles O39: AVG and the floor by value, and the floor's congruence in the history it reads. -/
theorem floorIsTheMeanOfTheWrittenHistory : Obligations.FloorIsTheMeanOfTheWrittenHistory := fun P _ h4 =>
  ⟨fun b _ => Rx.val_avg P h4 b, Rx.val_floor_hist P h4, fun _ hc hsame => Rx.floor_congr P h4 hc hsame⟩

end Sys2Proof.Machine
end

section
/-! PROOFS. The statements about memory and the ports (spec/20_memory.md): words and results carried as bytes, what a step runs,
what a command does at the ports, and the codec between the encode and the decode stage. -/

namespace Sys2Proof

/-! ### Byte order (20_memory.md R65) -/

/-- The decoder reads every encoded command back (30_encoding.md R92): one round trip per command. -/
theorem decode_encode : ∀ i : Instr, decode (encode i) = .ok i
  | .setparam fd fs fpt bpt vol => Laws.RoundTrip.setparam fd fs fpt bpt vol
  | .setmode m => Laws.RoundTrip.setmode m
  | .setecc e => Laws.RoundTrip.setecc e
  | .setrate rin rout => Laws.RoundTrip.setrate rin rout
  | .wtxb idx data => Laws.RoundTrip.wtxb idx data
  | .init len => Laws.RoundTrip.init len
  | .send => Laws.RoundTrip.send
  | .receive => Laws.RoundTrip.receive
  | .rdrx idx => Laws.RoundTrip.rdrx idx
  | .getrxlen => Laws.RoundTrip.getrxlen
  | .gethasdata => Laws.RoundTrip.gethasdata
  | .getavgrxt => Laws.RoundTrip.getavgrxt
  | .getftr => Laws.RoundTrip.getftr
  | .getfltr => Laws.RoundTrip.getfltr
  | .getfta => Laws.RoundTrip.getfta
  | .getflta => Laws.RoundTrip.getflta
  | .gettbc => Laws.RoundTrip.gettbc
  | .getrxstate => Laws.RoundTrip.getrxstate
  | .getratein => Laws.RoundTrip.getratein
  | .getrateout => Laws.RoundTrip.getrateout
  | .getspf => Laws.RoundTrip.getspf
  | .getssbin => Laws.RoundTrip.getssbin
  | .getssbout => Laws.RoundTrip.getssbout

/-- Byte j of a word is its digit j to the base 256. -/
theorem toNat_byte {n : Nat} (w : BitVec n) (j : Nat) : (w.extractLsb' (8 * j) 8).toNat = w.toNat / 256 ^ j % 256 := by
  rw [BitVec.extractLsb'_toNat, Nat.shiftRight_eq_div_pow, Nat.pow_mul]

theorem map_toNat_wordBytes (w : CmdWord) :
    (wordBytes w).map BitVec.toNat = (List.range 8).map fun j => w.toNat / 256 ^ j % 256 := by
  rw [wordBytes, List.map_map]
  exact List.map_congr_left fun j _ => toNat_byte w j

/-- Eight bytes laid out from a word are read as that word. -/
theorem wordOfBytes_wordBytes_append (w : CmdWord) (rest : List Byte) : wordOfBytes (wordBytes w ++ rest) = some (w, rest) := by
  have hcat : w.extractLsb' (8 * 7) 8 ++ w.extractLsb' (8 * 6) 8 ++ w.extractLsb' (8 * 5) 8 ++ w.extractLsb' (8 * 4) 8 ++
      w.extractLsb' (8 * 3) 8 ++ w.extractLsb' (8 * 2) 8 ++ w.extractLsb' (8 * 1) 8 ++ w.extractLsb' (8 * 0) 8 = w := by
    apply BitVec.eq_of_toNat_eq
    simp only [toNat_append_eq, toNat_byte]
    have := w.isLt
    omega
  exact congrArg (fun v : CmdWord => some (v, rest)) hcat

/-- The decoder over bytes agrees with the decoder over words. -/
theorem decodeBytes_wordBytes_append {w : CmdWord} {i : Instr} (h : decode w = .ok i) (rest : List Byte) :
    decodeBytes (wordBytes w ++ rest) = .ok (i, rest) := by
  simp only [decodeBytes, wordOfBytes_wordBytes_append, h, Except.map]

end Sys2Proof

namespace Sys2Proof.Machine

theorem map_toNat_resultBytes (r : Result) :
    (resultBytes r).map BitVec.toNat = (List.range 4).map fun j => r.toNat / 256 ^ j % 256 := by
  rw [resultBytes, List.map_map]
  exact List.map_congr_left fun j _ => toNat_byte r j

/-- Four bytes laid out from a result are read as that result. -/
theorem resultOfBytes_resultBytes_append (r : Result) (rest : List Byte) :
    resultOfBytes (resultBytes r ++ rest) = some (r, rest) := by
  have hcat : r.extractLsb' (8 * 3) 8 ++ r.extractLsb' (8 * 2) 8 ++ r.extractLsb' (8 * 1) 8 ++ r.extractLsb' (8 * 0) 8 = r := by
    apply BitVec.eq_of_toNat_eq
    simp only [toNat_append_eq, toNat_byte]
    have := r.isLt
    omega
  exact congrArg (fun v : Result => some (v, rest)) hcat

/-- Settles O4: laying out and reading back are inverse, and the decoder reads back every encoded command. -/
theorem bytesOfAWordDecodeToItsCommand : Obligations.BytesOfAWordDecodeToItsCommand := fun i r rest =>
  ⟨decodeBytes_wordBytes_append (decode_encode i) rest, map_toNat_wordBytes _, resultOfBytes_resultBytes_append r rest,
    map_toNat_resultBytes r⟩

/-! ### The step (20_memory.md R76) -/

/-- A step with a legal command word at the port runs the command, once the event is taken. -/
theorem step_command {s : State} {w : CmdWord} {rest : List HostEvent} {i : Instr} (hev : s.port.events = .command w :: rest)
    (hdec : decode w = .ok i) : step s = exec i s.takeEvent := by
  simp only [step, hev, hdec]

theorem State.takeEvent_eq {s : State} {e : HostEvent} {rest : List HostEvent} (hev : s.port.events = e :: rest) :
    s.takeEvent = { s with port := { s.port with events := rest } } := by
  rw [State.takeEvent, hev, List.tail_cons]

/-- Settles O7. -/
theorem stepRunsTheDecodedCommand : Obligations.StepRunsTheDecodedCommand := fun _ _ _ _ hev hdec => by
  rw [step_command hev hdec, State.takeEvent_eq hev]

/-! ### The ports (20_memory.md R66, R67) -/

/-- Settles O13: each effect of a command shows what it hands to the sink, takes from the source and leaves to the host. RECEIVE
is taken from its own arm of exec, because the effect `answers` is open to every command and pulls nothing. -/
theorem onlySendEmitsAndOnlyReceivePulls : Obligations.OnlySendEmitsAndOnlyReceivePulls := by
  intro i s t h
  by_cases hi : i = .receive
  · subst hi
    obtain rfl := Host.Outcome.next.inj h
    exact ⟨.inl rfl, ⟨rfl, rfl⟩, rfl⟩
  · rw [if_neg hi]
    cases exec_effect h with
    | answers | retunes | recodes | stages | starts => exact ⟨.inl rfl, ⟨rfl, rfl⟩, rfl⟩
    | sends => exact ⟨.inr ⟨rfl, _, rfl⟩, ⟨rfl, rfl⟩, rfl⟩
    | receives => exact absurd rfl hi

/-! ### The codec between the two stages (20_memory.md R71) -/

/-- A memory that holds a byte string with an error pattern on it is read as their exclusive or. -/
theorem Memory.readN_eq_xorBytes {sp : Space Byte} {m : ByteMem} {a : Nat} {b e : List Byte} (he : e.length = b.length)
    (h : ∀ i < b.length, Memory.read sp m (a + i) = b.getD i 0 ^^^ e.getD i 0) :
    Memory.readN sp m a b.length = xorBytes b e := by
  refine List.ext_getElem (by simp [xorBytes, he]) fun i hi _ => ?_
  have hib : i < b.length := by simpa using hi
  rw [Memory.getElem_readN, h i hib, List.getD_eq_getElem _ _ hib, List.getD_eq_getElem _ _ (he ▸ hib)]
  simp only [xorBytes, List.getElem_zipWith]

/-- Law L1 at a codeword in memory: with at most E div 2 byte errors it decodes to its message. -/
theorem dec_readN_of_corrects {P : Params} (hP : P.Admitted) {E : Nat} {m e : List Byte} (hL1 : P.Corrects E m)
    (he : e.length = m.length + E) (hw : byteWeight e ≤ E / 2) {sp : Space Byte} {raw : ByteMem} {a : Nat}
    (h : ∀ i < m.length + E, Memory.read sp raw (a + i) = (P.enc E m).getD i 0 ^^^ e.getD i 0) :
    P.dec E (Memory.readN sp raw a (m.length + E)) = some m := by
  rw [← hP.enc_length E m] at h ⊢
  rw [Memory.readN_eq_xorBytes (he.trans (hP.enc_length E m).symm) h]
  exact hL1 e he hw

theorem codeword_variable (P : Params) {c : Cfg} (hc : c.mode = .variable) (text : List Byte) :
    codeword P c text = P.enc 2 [BitVec.ofNat 8 text.length] ++ P.enc c.ecc.toNat text := by
  simp only [codeword, hc, Config.lenEcc]

theorem codeword_fixed (P : Params) {c : Cfg} (hc : c.mode = .fixed) (text : List Byte) :
    codeword P c text = P.enc c.ecc.toNat (fixedPayload text) := by
  simp only [codeword, hc]

/-- Decode() in VariableLength mode: first the length, then the payload of that length (42_rx.md R226, R227). -/
theorem decodePayload_variable {P : Params} {c : Cfg} (hc : c.mode = .variable) {raw : ByteMem} {l : Nat} (hl : l ≤ 140)
    (hlen : P.dec 2 (Memory.readN Space.rxraw raw 0 3) = some [BitVec.ofNat 8 l]) :
    decodePayload P c raw = (P.dec c.ecc.toNat (Memory.readN Space.rxraw raw 3 (l + c.ecc.toNat))).map fun p => (p, l) := by
  have hval : (BitVec.ofNat 8 l).toNat = l := Nat.mod_eq_of_lt (by omega)
  simp only [decodePayload, hc, Config.lenEcc, hlen, List.getD_cons_zero, hval, Config.maxLength, if_neg (not_lt.2 hl)]

/-- Decode() in FixedLength mode: the payload of 32 bytes (42_rx.md R226). -/
theorem decodePayload_fixed {P : Params} {c : Cfg} (hc : c.mode = .fixed) (raw : ByteMem) :
    decodePayload P c raw = (P.dec c.ecc.toNat (Memory.readN Space.rxraw raw 0 (32 + c.ecc.toNat))).map fun p => (p, 32) := by
  simp only [decodePayload, hc, Config.fixedLength]

section
variable {P : Params} {c : Cfg} {text : List Byte} {raw : ByteMem} {e1 e2 : List Byte}

/-- In VariableLength mode RXRAW holds the length codeword at 0..2 and the payload codeword from 3 on, each with its errors. -/
theorem read_codeword_variable (hP : P.Admitted) (hc : c.mode = .variable) (he1 : e1.length = 3)
    (h : ∀ i < (codeword P c text).length,
      Memory.read Space.rxraw raw i = (codeword P c text).getD i 0 ^^^ (e1 ++ e2).getD i 0) :
    (∀ i < 1 + 2, Memory.read Space.rxraw raw (0 + i) = (P.enc 2 [BitVec.ofNat 8 text.length]).getD i 0 ^^^ e1.getD i 0) ∧
    ∀ i < text.length + c.ecc.toNat,
      Memory.read Space.rxraw raw (3 + i) = (P.enc c.ecc.toNat text).getD i 0 ^^^ e2.getD i 0 := by
  have hlen : (P.enc 2 [BitVec.ofNat 8 text.length]).length = 3 := hP.enc_length 2 _
  rw [codeword_variable P hc, List.length_append, hlen, hP.enc_length] at h
  constructor
  · intro i hi
    rw [Nat.zero_add, h i (by omega), List.getD_append _ _ _ _ (by omega), List.getD_append _ _ _ _ (by omega)]
  · intro i hi
    rw [h (3 + i) (by omega), List.getD_append_right _ _ _ _ (by omega), List.getD_append_right _ _ _ _ (by omega), hlen, he1,
      Nat.add_sub_cancel_left]

/-- VariableLength mode: both codewords are corrected, the length first. -/
theorem decodePayload_codeword_variable (hP : P.Admitted) (hc : c.mode = .variable) (ht : text.length ≤ 140)
    (hL1len : P.Corrects 2 [BitVec.ofNat 8 text.length]) (hL1 : P.Corrects c.ecc.toNat text)
    (he1 : e1.length = 3) (hw1 : byteWeight e1 ≤ 1) (he2 : e2.length = text.length + c.ecc.toNat)
    (hw2 : byteWeight e2 ≤ c.ecc.toNat / 2)
    (h : ∀ i < (codeword P c text).length,
      Memory.read Space.rxraw raw i = (codeword P c text).getD i 0 ^^^ (e1 ++ e2).getD i 0) :
    decodePayload P c raw = some (text, text.length) := by
  obtain ⟨hlen, hpay⟩ := read_codeword_variable hP hc he1 h
  rw [decodePayload_variable hc ht (dec_readN_of_corrects hP hL1len he1 hw1 hlen),
    dec_readN_of_corrects hP hL1 he2 hw2 hpay, Option.map_some]

/-- FixedLength mode: the payload codeword alone is corrected. -/
theorem decodePayload_codeword_fixed (hP : P.Admitted) (hc : c.mode = .fixed) (hL1 : P.Corrects c.ecc.toNat (fixedPayload text))
    (he2 : e2.length = 32 + c.ecc.toNat) (hw2 : byteWeight e2 ≤ c.ecc.toNat / 2)
    (h : ∀ i < (codeword P c text).length,
      Memory.read Space.rxraw raw i = (codeword P c text).getD i 0 ^^^ e2.getD i 0) :
    decodePayload P c raw = some (fixedPayload text, 32) := by
  have hn := length_fixedPayload text
  rw [codeword_fixed P hc, hP.enc_length] at h
  have hdec := dec_readN_of_corrects hP hL1 (by rw [hn, he2]) hw2 (a := 0) (by simpa only [Nat.zero_add] using h)
  rw [hn] at hdec
  rw [decodePayload_fixed hc, hdec, Option.map_some]

end

/-- Settles O52: law L1 at each codeword that RXRAW holds. -/
theorem codewordWithFewErrorsDecodesToItsText : Obligations.CodewordWithFewErrorsDecodesToItsText :=
  fun _ _ _ _ _ _ hP _ ht =>
    ⟨fun hc hL1len hL1 he1 hw1 he2 hw2 h => decodePayload_codeword_variable hP hc ht hL1len hL1 he1 hw1 he2 hw2 h,
      fun hc hL1 he2 hw2 h => decodePayload_codeword_fixed hP hc hL1 he2 hw2 h⟩

end Sys2Proof.Machine
end

section
/-! PROOFS. The statements about the encoding (spec/30_encoding.md): the decoder and the rows of the opcode map, illegal words,
the assembler and its two pseudo-instructions. -/

namespace Sys2Proof

/-! ### Reserved bits and the rows of the opcode map (30_encoding.md R101, R103) -/

/-- The reserved bits of a format: its mask without OPC. -/
def Format.reserved (f : Format) : CmdWord := f.mask &&& 0x00FFFFFFFFFFFFFF#64

/-- The word with ones in a field and zeros elsewhere tests whether the field is zero. -/
theorem and_fieldOnes_eq_zero_iff (w : CmdWord) {lo n : Nat} (h : lo + n ≤ 64) :
    w &&& (BitVec.allOnes n).setWidth 64 <<< lo = 0 ↔ w.extractLsb' lo n = 0#n := by
  have hbits : ∀ k < 64, (w &&& (BitVec.allOnes n).setWidth 64 <<< lo).getLsbD k =
      (decide (lo ≤ k ∧ k < lo + n) && w.getLsbD k) := by
    intro k hk
    rw [BitVec.getLsbD_and, Bool.and_comm, BitVec.getLsbD_shiftLeft, BitVec.getLsbD_setWidth, BitVec.getLsbD_allOnes]
    congr 1
    simp only [← decide_not, ← Bool.decide_and, decide_eq_decide]
    omega
  simp only [BitVec.eq_of_getLsbD_eq_iff, BitVec.getLsbD_extractLsb']
  constructor
  · intro hw k hk
    simpa [hk, hbits (lo + k) (by omega)] using hw (lo + k) (by omega)
  · intro hw k hk
    rw [hbits k hk]
    by_cases hin : lo ≤ k ∧ k < lo + n
    · simpa [hin, show k - lo < n by omega] using hw (k - lo) (by omega)
    · simp [hin]

theorem toNat_extract {n : Nat} (w : BitVec n) (s l : Nat) : (w.extractLsb' s l).toNat = w.toNat / 2 ^ s % 2 ^ l :=
  ((extract_eq_iff w s l _).1 rfl).symm

/-- A word is its OPC and its other 56 bits. -/
theorem word_eq_iff (v w : CmdWord) : v = w ↔ opcodeOf v = opcodeOf w ∧ v.extractLsb' 0 56 = w.extractLsb' 0 56 := by
  refine ⟨fun h => h ▸ ⟨rfl, rfl⟩, fun ⟨ho, hl⟩ => BitVec.eq_of_toNat_eq ?_⟩
  simp only [opcodeOf, extract_eq_iff, toNat_extract] at ho hl
  omega

theorem Format.opcodeOf_and_mask (f : Format) (w : CmdWord) : opcodeOf (w &&& f.mask) = opcodeOf w := by
  have hmask : opcodeOf f.mask = BitVec.allOnes 8 := by cases f <;> decide
  rw [opcodeOf, BitVec.extractLsb'_and, ← opcodeOf, ← opcodeOf, hmask, BitVec.and_allOnes]

theorem Format.opcodeOf_and_reserved (f : Format) (w : CmdWord) : opcodeOf (w &&& f.reserved) = 0#8 := by
  have hreserved : opcodeOf f.reserved = 0#8 := by cases f <;> decide
  rw [opcodeOf, BitVec.extractLsb'_and, ← opcodeOf, ← opcodeOf, hreserved, BitVec.and_zero]

/-- Below OPC a format's mask and its reserved bits agree. -/
theorem Format.extract_and_reserved (f : Format) (w : CmdWord) :
    (w &&& f.reserved).extractLsb' 0 56 = (w &&& f.mask).extractLsb' 0 56 := by
  have hlow : f.reserved.extractLsb' 0 56 = f.mask.extractLsb' 0 56 := by cases f <;> decide
  rw [BitVec.extractLsb'_and, BitVec.extractLsb'_and, hlow]

/-- A row covers the words with its OPC in which every reserved bit of its format is 0. -/
theorem OpRow.covers_iff (r : OpRow) (w : CmdWord) :
    r.covers w = true ↔ r.opc = opcodeOf w ∧ w &&& r.format.reserved = 0 := by
  have hopc : opcodeOf r.pattern = r.opc := opcodeOf_encodeZ r.opc
  have hlow : r.pattern.extractLsb' 0 56 = 0#56 := BitVec.extractLsb'_append_eq_right
  have hzero : opcodeOf 0 = 0#8 ∧ (0 : CmdWord).extractLsb' 0 56 = 0#56 := by decide
  rw [covers, decide_eq_true_iff, word_eq_iff, word_eq_iff (w &&& _) 0, hzero.1, hzero.2, hopc, hlow, Format.opcodeOf_and_mask,
    Format.opcodeOf_and_reserved, Format.extract_and_reserved, eq_comm, eq_self, true_and]

/-! ### The decoder by rows (30_encoding.md R92, R100, R101) -/

/-- What the decoder makes of a word whose OPC has a row of format f: the command, if the reserved bits are 0, and then the
word is that command's. -/
def ReadsFormat (w : CmdWord) (f : Format) : Prop :=
  ∃ i, decode w = (if w &&& f.reserved = 0 then .ok i else .error (.reservedBit (opcodeOf w))) ∧
    (w &&& f.reserved = 0 → encode i = w)

section
variable {w : CmdWord}

/-- The decoder's check of a reserved field is the check of the format's reserved bits. -/
theorem ReadsFormat.of_field {f : Format} {i : Instr} {opc : Nat} (ho : opcodeOf w = BitVec.ofNat 8 opc) {lo n : Nat}
    (h : lo + n ≤ 64) (hf : f.reserved = (BitVec.allOnes n).setWidth 64 <<< lo)
    (hd : decode w = ifReservedZero (w.extractLsb' lo n) (opcodeOf w) i)
    (he : w.toNat / 2 ^ 56 = opc % 2 ^ 8 → w.toNat / 2 ^ lo % 2 ^ n = 0 → (encode i).toNat = w.toNat) : ReadsFormat w f := by
  have hz := and_fieldOnes_eq_zero_iff w h
  rw [← hf] at hz
  rw [opcodeOf_eq_iff, BitVec.toNat_ofNat] at ho
  refine ⟨i, ?_, fun hw => BitVec.eq_of_toNat_eq (he ho ((extract_eq_iff ..).1 (hz.1 hw)))⟩
  simp only [hd, ifReservedZero, hz]

/-- A format-Z row. -/
theorem ReadsFormat.of_z {i : Instr} {opc : Nat} (ho : opcodeOf w = BitVec.ofNat 8 opc) (hd : decode w = decodeZ w i)
    (he : encode i = encodeZ (BitVec.ofNat 8 opc)) : ReadsFormat w .z := by
  refine .of_field ho (lo := 0) (n := 56) (by decide) (by decide) hd fun ho hz => ?_
  rw [he, toNat_encodeZ, BitVec.toNat_ofNat]
  omega

theorem readsFormat_setparam (ho : opcodeOf w = 0x01#8) : ReadsFormat w .p := by
  refine .of_field ho (lo := 0) (n := 21) (by decide) (by decide) (by simp [decode, ho]; rfl) fun hopc hz => ?_
  simp only [toNat_encode_setparam, toNat_extract]
  omega

theorem readsFormat_setmode (ho : opcodeOf w = 0x02#8) : ReadsFormat w .m := by
  refine .of_field ho (lo := 1) (n := 55) (by decide) (by decide) (by simp [decode, ho]; rfl) fun hopc hz => ?_
  simp only [toNat_encode_setmode, toNat_extract]
  omega

theorem readsFormat_setecc (ho : opcodeOf w = 0x03#8) : ReadsFormat w .e := by
  refine .of_field ho (lo := 7) (n := 49) (by decide) (by decide) (by simp [decode, ho]; rfl) fun hopc hz => ?_
  simp only [toNat_encode_setecc, toNat_extract]
  omega

theorem readsFormat_setrate (ho : opcodeOf w = 0x04#8) : ReadsFormat w .r := by
  refine .of_field ho (lo := 0) (n := 8) (by decide) (by decide) (by simp [decode, ho]; rfl) fun hopc hz => ?_
  simp only [toNat_encode_setrate, toNat_extract]
  omega

theorem readsFormat_wtxb (ho : opcodeOf w = 0x08#8) : ReadsFormat w .w := by
  refine .of_field ho (lo := 16) (n := 40) (by decide) (by decide) (by simp [decode, ho]; rfl) fun hopc hz => ?_
  simp only [toNat_encode_wtxb, toNat_extract]
  omega

theorem readsFormat_init (ho : opcodeOf w = 0x09#8) : ReadsFormat w .l := by
  refine .of_field ho (lo := 8) (n := 48) (by decide) (by decide) (by simp [decode, ho]; rfl) fun hopc hz => ?_
  simp only [toNat_encode_init, toNat_extract]
  omega

theorem readsFormat_rdrx (ho : opcodeOf w = 0x11#8) : ReadsFormat w .x := by
  refine .of_field ho (lo := 8) (n := 48) (by decide) (by decide) (by simp [decode, ho]; rfl) fun hopc hz => ?_
  simp only [toNat_encode_rdrx, toNat_extract]
  omega

/-- The decoder reads every word whose OPC has a row by that row's format. -/
theorem readsFormat_of_row {r : OpRow} (hr : r ∈ opcodeMap) (ho : opcodeOf w = r.opc) : ReadsFormat w r.format := by
  simp only [opcodeMap, List.mem_cons, List.not_mem_nil, or_false] at hr
  rcases hr with rfl | rfl | rfl | rfl | rfl | rfl | rfl | rfl | rfl | rfl | rfl | rfl | rfl | rfl | rfl | rfl | rfl | rfl | rfl |
    rfl | rfl | rfl | rfl
  · exact readsFormat_setparam ho
  · exact readsFormat_setmode ho
  · exact readsFormat_setecc ho
  · exact readsFormat_setrate ho
  · exact readsFormat_wtxb ho
  · exact readsFormat_init ho
  · exact .of_z ho (i := .send) (by simp [decode, ho]) rfl
  · exact .of_z ho (i := .receive) (by simp [decode, ho]) rfl
  · exact readsFormat_rdrx ho
  · exact .of_z ho (i := .getrxlen) (by simp [decode, ho]) rfl
  · exact .of_z ho (i := .gethasdata) (by simp [decode, ho]) rfl
  · exact .of_z ho (i := .getavgrxt) (by simp [decode, ho]) rfl
  · exact .of_z ho (i := .getftr) (by simp [decode, ho]) rfl
  · exact .of_z ho (i := .getfltr) (by simp [decode, ho]) rfl
  · exact .of_z ho (i := .getfta) (by simp [decode, ho]) rfl
  · exact .of_z ho (i := .getflta) (by simp [decode, ho]) rfl
  · exact .of_z ho (i := .gettbc) (by simp [decode, ho]) rfl
  · exact .of_z ho (i := .getrxstate) (by simp [decode, ho]) rfl
  · exact .of_z ho (i := .getratein) (by simp [decode, ho]) rfl
  · exact .of_z ho (i := .getrateout) (by simp [decode, ho]) rfl
  · exact .of_z ho (i := .getspf) (by simp [decode, ho]) rfl
  · exact .of_z ho (i := .getssbin) (by simp [decode, ho]) rfl
  · exact .of_z ho (i := .getssbout) (by simp [decode, ho]) rfl

/-- A word whose OPC has no row is turned away (R101). -/
theorem decode_of_no_row (h : ∀ r ∈ opcodeMap, r.opc ≠ opcodeOf w) : decode w = .error (.undefinedOpcode (opcodeOf w)) := by
  have hne : ∀ r ∈ opcodeMap, opcodeOf w ≠ r.opc := fun r hr => (h r hr).symm
  simp only [opcodeMap, List.forall_mem_cons] at hne
  simp only [decode, hne, if_false]

/-- A word that a row covers decodes to the command whose word it is. -/
theorem decode_of_covers {r : OpRow} (hr : r ∈ opcodeMap) (hw : r.covers w = true) :
    ∃ i, decode w = .ok i ∧ encode i = w := by
  obtain ⟨ho, hz⟩ := (r.covers_iff w).1 hw
  obtain ⟨i, hd, he⟩ := readsFormat_of_row hr ho.symm
  exact ⟨i, by rw [hd, if_pos hz], he hz⟩

/-- A word with a reserved bit of its row's format at 1 is turned away (R101). -/
theorem decode_of_reserved {r : OpRow} (hr : r ∈ opcodeMap) (ho : r.opc = opcodeOf w) (hw : w &&& r.format.reserved ≠ 0) :
    decode w = .error (.reservedBit (opcodeOf w)) := by
  obtain ⟨i, hd, -⟩ := readsFormat_of_row hr ho.symm
  rw [hd, if_neg hw]

/-- A legal word is covered by a row. -/
theorem exists_covers_of_decode {i : Instr} (h : decode w = .ok i) : ∃ r ∈ opcodeMap, r.covers w = true := by
  by_cases hrow : ∃ r ∈ opcodeMap, r.opc = opcodeOf w
  · obtain ⟨r, hr, ho⟩ := hrow
    refine ⟨r, hr, (r.covers_iff w).2 ⟨ho, ?_⟩⟩
    by_contra hw
    rw [decode_of_reserved hr ho hw] at h
    cases h
  · push Not at hrow
    rw [decode_of_no_row hrow] at h
    cases h

end

/-- The decoder and the encoder are inverse: a word decodes to the command whose word it is, and to no other. -/
theorem decode_eq_ok_iff (w : CmdWord) (i : Instr) : decode w = .ok i ↔ encode i = w := by
  refine ⟨fun h => ?_, fun h => h ▸ decode_encode i⟩
  obtain ⟨r, hr, hw⟩ := exists_covers_of_decode h
  obtain ⟨j, hd, he⟩ := decode_of_covers hr hw
  rw [h] at hd
  cases hd
  exact he

/-- An opcode has one row (R100). -/
theorem opcodeMap_opc_injective : ∀ r ∈ opcodeMap, ∀ r' ∈ opcodeMap, r.opc = r'.opc → r = r' := by decide

/-- At most one row covers a word. -/
theorem covers_unique {w : CmdWord} {r r' : OpRow} (hr : r ∈ opcodeMap) (hr' : r' ∈ opcodeMap) (hw : r.covers w = true)
    (hw' : r'.covers w = true) : r' = r :=
  opcodeMap_opc_injective r' hr' r hr (((r'.covers_iff w).1 hw').1.trans ((r.covers_iff w).1 hw).1.symm)

/-- Settles O1: one round trip per command. -/
theorem decodeReadsBackEveryEncodedCommand : Obligations.DecodeReadsBackEveryEncodedCommand := decode_encode

/-- Settles O2: a legal word is covered by a row, and the row's format leaves no bit unread. -/
theorem legalWordIsTheWordOfItsCommand : Obligations.LegalWordIsTheWordOfItsCommand := fun w i => (decode_eq_ok_iff w i).1

/-- Settles O3: a legal word is covered by a row, no word by two, and a covered word is legal. -/
theorem legalWordMatchesExactlyOneRow : Obligations.LegalWordMatchesExactlyOneRow := by
  refine fun w => ⟨fun ⟨i, hi⟩ => ?_, fun hill r hr => ?_⟩
  · obtain ⟨r, hr, hw⟩ := exists_covers_of_decode hi
    exact ⟨r, hr, hw, fun r' hr' => covers_unique hr hr' hw⟩
  · by_contra hw
    obtain ⟨i, hi, -⟩ := decode_of_covers hr (eq_true_of_ne_false hw)
    exact hill i hi

/-- Settles O5: each word is the word of its command. -/
theorem wordsWrittenFromTheFormatsDecode : Obligations.WordsWrittenFromTheFormatsDecode := by
  simp only [Obligations.WordsWrittenFromTheFormatsDecode, decode_eq_ok_iff]
  decide

/-! ### The assembler (30_encoding.md R106) -/

theorem fits_eq_false_iff (bits v : Nat) : fits bits v = false ↔ 2 ^ bits ≤ v := by
  rw [fits, decide_eq_false_iff_not, not_lt]

theorem Line.assemble_eq_none_iff (l : Line) : l.assemble = none ↔ l.wellFormed = false := by
  rw [assemble, ite_eq_right_iff, Bool.eq_false_iff]
  simp only [reduceCtorEq, imp_false]

/-- Settles O6: a line is rejected when it is not well formed, and that is when an operand does not fit. -/
theorem assemblerRejectsOperandsThatDoNotFit : Obligations.AssemblerRejectsOperandsThatDoNotFit := by
  intro fd fs fpt bpt vol e rin rout idx b len
  simp only [Line.assemble_eq_none_iff, Line.wellFormed, Bool.and_eq_false_iff, fits_eq_false_iff, or_assoc, and_self]

end Sys2Proof

namespace Sys2Proof.Machine

/-! ### Illegal words (30_encoding.md R101) -/

/-- A step with an illegal word at the port takes the event and answers ILLEGAL. -/
theorem step_illegal {s : State} {w : CmdWord} {rest : List HostEvent} {e : Reject} (hev : s.port.events = .command w :: rest)
    (hdec : decode w = .error e) : step s = .next s.takeEvent.illegal := by
  simp only [step, hev, hdec]

/-- Settles O8: both causes turn the word away in the decoder. -/
theorem illegalWordCompletesAndChangesNothing : Obligations.IllegalWordCompletesAndChangesNothing := by
  intro s w rest hev hill
  have hdec : ∃ e, decode w = .error e := by
    rcases hill with hno | ⟨r, hr, ho, hw⟩
    · exact ⟨_, decode_of_no_row hno⟩
    · exact ⟨_, decode_of_reserved hr ho hw⟩
  obtain ⟨e, he⟩ := hdec
  rw [step_illegal hev he, State.takeEvent_eq hev]
  rfl

/-! ### Runs of command words -/

theorem run_of_step {s t : State} (h : step s = .next t) (k : Nat) : core.run (k + 1) s = core.run k t := by
  simp only [Host.Core.run, show core.step s = .next t from h]

/-- A run continues where a shorter one ended. -/
theorem run_add {s t : State} {m : Nat} (h : core.run m s = .next t) (k : Nat) : core.run (m + k) s = core.run k t := by
  induction m generalizing s with
  | zero =>
    obtain rfl := Host.Outcome.next.inj h
    rw [Nat.zero_add]
  | succ m ih =>
    rw [Nat.add_right_comm]
    cases hs : step s with
    | next u =>
      rw [run_of_step hs] at h ⊢
      exact ih h
    | fault r => cases r
    | refused r => simp [Host.Core.run, show core.step s = .refused r from hs] at h

/-- A run with an encoded command at the port runs that command first. -/
theorem run_command {s t : State} {i : Instr} {rest : List HostEvent} (hev : s.port.events = .command (encode i) :: rest)
    (hexec : exec i s.takeEvent = .next t) (k : Nat) : core.run (k + 1) s = core.run k t :=
  run_of_step ((step_command hev (decode_encode i)).trans hexec) k

/-! ### DEFAULTS (30_encoding.md R107) -/

theorem words_defaults : Line.defaults.words = some (expandDefaults.map encode) := rfl

/-- SETPARAM with the reset values of the knobs: no clamp, no rejection (40_config.md R122, R124). -/
theorem exec_setparam_reset (s : State) : exec (.setparam 1 40 6 3 50) s =
    .next ((s.markToneDirty.commitConfig
      { s.cfg with fdelta := 1, fstart := 40, fpt := 6, bpt := 3, vol := 50 }).respond .ok 0) := rfl

theorem exec_setecc_reset (s : State) : exec (.setecc 8) s = .next ((s.commitConfig { s.cfg with ecc := 8 }).respond .ok 0) := rfl

theorem exec_setmode_reset (s : State) :
    exec (.setmode 0) s = .next ((s.commitConfig { s.cfg with mode := .variable }).respond .ok 0) := rfl

theorem exec_setrate_reset (s : State) : exec (.setrate 48000 48000) s =
    .next ((s.markToneDirty.commitConfig { s.cfg with rateIn := 48000, rateOut := 48000 }).respond .ok 0) := rfl

/-- Settles O26: the four commands commit every configuration register, and each of them aborts both sessions. -/
theorem defaultsRestoresTheConfiguration : Obligations.DefaultsRestoresTheConfiguration := by
  intro s ws rest hws hev
  obtain rfl := Option.some_inj.1 (words_defaults.symm.trans hws)
  have hev1 : s.port.events = .command (encode (.setparam 1 40 6 3 50)) :: .command (encode (.setecc 8)) ::
      .command (encode (.setmode 0)) :: .command (encode (.setrate 48000 48000)) :: rest := hev
  have hev2 := congrArg List.tail hev1
  have hev3 := congrArg List.tail hev2
  have hev4 := congrArg List.tail hev3
  refine ⟨_, (run_command hev1 (exec_setparam_reset _) 3).trans <| (run_command hev2 (exec_setecc_reset _) 2).trans <|
    (run_command hev3 (exec_setmode_reset _) 1).trans <| run_command hev4 (exec_setrate_reset _) 0, ?_⟩
  exact ⟨rfl, congrArg List.tail hev4, rfl, rfl, rfl⟩

/-! ### TXLOAD (30_encoding.md R107) -/

/-- The WTXB commands that stage a string from index n on. -/
def stagingCommands (n : Nat) : List Byte → List Instr
  | [] => []
  | b :: bs => .wtxb (BitVec.ofNat 8 n) b :: stagingCommands (n + 1) bs

theorem stagingCommands_eq_map (bs : List Byte) (n : Nat) :
    stagingCommands n bs = (List.range bs.length).map fun i => .wtxb (BitVec.ofNat 8 (n + i)) (bs.getD i 0) := by
  induction bs generalizing n with
  | nil => rfl
  | cons b bs ih =>
    simp only [stagingCommands, ih, List.length_cons, List.range_succ_eq_map, List.map_cons, List.map_map, Nat.add_zero,
      List.getD_cons_zero, Function.comp_def, List.getD_cons_succ, Nat.add_assoc, Nat.add_comm 1]

theorem words_txload {bs : List Byte} (hlen : bs.length ≤ 140) :
    (Line.txload bs).words = some ((stagingCommands 0 bs ++ [Instr.init (BitVec.ofNat 8 bs.length)]).map encode) := by
  simp only [Line.words, Line.assemble, Line.wellFormed, Line.expand, expandTxload, stagingCommands_eq_map, Nat.zero_add,
    decide_eq_true hlen, if_true, Option.map_some]

theorem exec_wtxb_of_lt {idx : BitVec 8} (hidx : idx.toNat < 140) (data : Byte) (s : State) :
    ∃ t, exec (.wtxb idx data) s = .next t ∧ t.port.events = s.port.events ∧ t.cfg = s.cfg ∧ t.rx = s.rx ∧
      t.tx = { s.tx with txstage := Memory.write Space.txstage s.tx.txstage idx.toNat data } := by
  refine ⟨State.respond { s with tx := { s.tx with txstage := Memory.write Space.txstage s.tx.txstage idx.toNat data } } .ok 0,
    ?_, rfl, rfl, rfl, rfl⟩
  simp only [exec, execWtxb, (indexInRange_iff _).2 hidx, if_true]

theorem exec_init (len : BitVec 8) (s : State) : exec (.init len) s = .next (s.initSession Config.params len.toNat) := rfl

/-- The staging commands write the string into TXSTAGE and nothing else into the block (41_tx.md R150). -/
theorem run_stagingCommands {bs : List Byte} {n : Nat} {s : State} {rest : List HostEvent} (hn : n + bs.length ≤ 140)
    (hev : s.port.events = ((stagingCommands n bs).map encode).map .command ++ rest) :
    ∃ t : State, core.run bs.length s = .next t ∧ t.port.events = rest ∧ t.cfg = s.cfg ∧ t.rx = s.rx ∧
      t.tx = { s.tx with txstage := Memory.writeN Space.txstage s.tx.txstage n bs } := by
  induction bs generalizing n s with
  | nil => exact ⟨s, rfl, hev, rfl, rfl, rfl⟩
  | cons b bs ih =>
    rw [List.length_cons] at hn
    have hval : (BitVec.ofNat 8 n).toNat = n := Nat.mod_eq_of_lt (by omega)
    obtain ⟨u, hexec, huev, hucfg, hurx, hutx⟩ := exec_wtxb_of_lt (idx := BitVec.ofNat 8 n) (by omega) b s.takeEvent
    obtain ⟨t, hrun, hrest, hcfg, hrx, htx⟩ := ih (n := n + 1) (by omega) (huev.trans (congrArg List.tail hev))
    refine ⟨t, (run_command hev hexec bs.length).trans hrun, hrest, hcfg.trans hucfg, hrx.trans hurx, ?_⟩
    rw [htx, hutx, hval]
    rfl

/-- TXSTAGE after a string is written at its start. -/
theorem read_txstage_writeN {m : ByteMem} (hm : Memory.wf Space.txstage m) {bs : List Byte} (hlen : bs.length ≤ 140) (a : Nat) :
    Memory.read Space.txstage (Memory.writeN Space.txstage m 0 bs) a =
      if a < bs.length then bs.getD a 0 else Memory.read Space.txstage m a := by
  have hfits : 0 + bs.length ≤ Space.txstage.size := (Nat.zero_add _).trans_le hlen
  rw [Memory.read_writeN _ hm 0 a hfits]
  by_cases ha : a < bs.length <;> simp [ha]

/-- INIT of as many bytes as were just staged copies those bytes (41_tx.md R152). -/
theorem stagedText_writeN {x : Tx} (hx : Memory.wf Space.txstage x.txstage) {bs : List Byte} (hlen : bs.length ≤ 140) :
    stagedText { x with txstage := Memory.writeN Space.txstage x.txstage 0 bs } bs.length = bs := by
  have hcopied : copiedLength bs.length = bs.length := min_eq_left hlen
  refine List.ext_getElem (by rw [length_stagedText, hcopied]) fun i hi hib => ?_
  simp only [stagedText, Memory.getElem_readN]
  rw [Nat.zero_add, read_txstage_writeN hx hlen, if_pos hib, List.getD_eq_getElem _ _ hib]

/-- Settles O35: the staging commands write the string, and INIT copies as many bytes as they wrote. -/
theorem txloadStagesAndStartsASession : Obligations.TxloadStagesAndStartsASession := by
  intro s bs ws rest hinv hlen hws hev
  obtain rfl := Option.some_inj.1 ((words_txload hlen).symm.trans hws)
  simp only [List.map_append, List.append_assoc] at hev
  obtain ⟨t, hrun, hrest, hcfg, hrx, htx⟩ := run_stagingCommands (n := 0) (by omega) hev
  have hstage := hinv.tx.txstage
  have htxstage : t.tx.txstage = Memory.writeN Space.txstage s.tx.txstage 0 bs := by rw [htx]
  have htext : stagedText t.tx bs.length = bs := by rw [htx, stagedText_writeN hstage hlen]
  have hsays := Tx.init_says Config.params_admitted (hcfg ▸ hinv.cfg) t.tx bs.length
  have hinit := exec_init (BitVec.ofNat 8 bs.length) t.takeEvent
  have hval : (BitVec.ofNat 8 bs.length).toNat = bs.length := Nat.mod_eq_of_lt (by omega)
  rw [htext] at hsays
  rw [hval] at hinit
  refine ⟨_, (run_add hrun 1).trans (run_command hrest hinit 0), congrArg List.tail hrest, hsays.hasdata, hsays.frameid,
    hsays.txlen, hsays.txtext, fun a => ?_, hrx, hcfg⟩
  rw [← read_txstage_writeN hstage hlen, ← htxstage]
  rfl

end Sys2Proof.Machine
end

section
/-! PROOFS. The statements about the configuration commands (spec/40_config.md): the clamps of SETPARAM and SETECC, when SETPARAM
and SETRATE are rejected, what each command commits, and the sessions it aborts. -/

namespace Sys2Proof.Machine

/-! ### Operands (40_config.md R122, R123, R130, R132) -/

theorem raiseZero_toNat {w : Nat} (v : BitVec w) : raiseZero v.toNat = if v = 0 then 1 else v.toNat := by
  simp only [raiseZero, ← BitVec.toNat_inj, BitVec.ofNat_eq_ofNat, BitVec.toNat_ofNat, Nat.zero_mod]

/-- A clamp decided by `p` gives the status as the rules write it (60_exceptions.md R291). -/
theorem Status.ofClamp_eq_ite {c : Bool} {p : Prop} [Decidable p] (h : c = true ↔ p) :
    Status.ofClamp c = if p then .clamped else .ok := by
  simp only [Status.ofClamp, h]

theorem toNat_clampEcc (e : Nat) :
    (BitVec.ofNat 7 (clampEcc e)).toNat = if e < 2 then 2 else if 64 < e then 64 else e := by
  have hv : (BitVec.ofNat 7 (clampEcc e)).toNat = clampEcc e := by
    have := clampEcc_bounds e
    exact Nat.mod_eq_of_lt (by omega)
  rw [hv]
  simp only [clampEcc, Config.minEcc, Config.maxEcc]
  split
  · omega
  · split <;> omega

theorem rejectedWhen_setrate_iff (rin rout : BitVec 24) :
    rejectedWhen (.setrate rin rout) ↔ ¬ (rateInRange rin.toNat && rateInRange rout.toNat) = true := by
  rw [Bool.and_eq_true, rateInRange_iff, rateInRange_iff, rejectedWhen]
  omega

section
variable (fd : BitVec 8) (fs : BitVec 10) (fpt : BitVec 4) (bpt : BitVec 6) (vol : BitVec 7) (s : State)

/-- SETPARAM's operand fields as numbers (30_encoding.md R93). -/
def setparamKnobs : Knobs := ⟨fd.toNat, fs.toNat, fpt.toNat, bpt.toNat, vol.toNat⟩

theorem clamp_setparamKnobs : (setparamKnobs fd fs fpt bpt vol).clamp =
    { fd := if fd = 0 then 1 else fd.toNat
      fs := if fs = 0 then 1 else fs.toNat
      fpt := if fpt = 0 then 1 else fpt.toNat
      bpt := if bpt = 0 then 1 else if 32 < bpt.toNat then 32 else bpt.toNat
      vol := if 100 < vol.toNat then 100 else vol.toNat } := by
  have hbpt : min (if bpt = 0 then 1 else bpt.toNat) 32 = if bpt = 0 then 1 else if 32 < bpt.toNat then 32 else bpt.toNat := by
    split
    · rfl
    · split <;> omega
  have hvol : min vol.toNat 100 = if 100 < vol.toNat then 100 else vol.toNat := by split <;> omega
  simp only [setparamKnobs, Knobs.clamp, raiseZero_toNat, hbpt, hvol]

theorem clamps_setparamKnobs_iff : (setparamKnobs fd fs fpt bpt vol).clamps = true ↔
    fd = 0 ∨ fs = 0 ∨ fpt = 0 ∨ bpt = 0 ∨ 32 < bpt.toNat ∨ 100 < vol.toNat := by
  rw [Knobs.clamps_iff]
  simp only [setparamKnobs, ← BitVec.toNat_inj, BitVec.ofNat_eq_ofNat, BitVec.toNat_ofNat, Nat.zero_mod]

theorem rejectedWhen_setparam_iff :
    rejectedWhen (.setparam fd fs fpt bpt vol) ↔ (setparamKnobs fd fs fpt bpt vol).clamp.beyondNyquist = true := by
  rw [Knobs.beyondNyquist_iff]
  simp only [rejectedWhen, setparamKnobs, Knobs.clamp, raiseZero_eq_max]

/-- The clamped knobs fit their registers: what SETPARAM writes is what the registers hold (R122). -/
theorem toNat_withKnobs_setparamKnobs (c : Cfg) :
    let k := (setparamKnobs fd fs fpt bpt vol).clamp
    (c.withKnobs k).fdelta.toNat = k.fd ∧ (c.withKnobs k).fstart.toNat = k.fs ∧ (c.withKnobs k).fpt.toNat = k.fpt ∧
      (c.withKnobs k).bpt.toNat = k.bpt ∧ (c.withKnobs k).vol.toNat = k.vol := by
  obtain ⟨wfd, wfs, wfpt⟩ := (setparamKnobs fd fs fpt bpt vol).clamp_widths fd.isLt fs.isLt fpt.isLt
  obtain ⟨-, -, -, -, bpt32, vol100⟩ := (setparamKnobs fd fs fpt bpt vol).clamp_bounds
  exact ⟨Nat.mod_eq_of_lt wfd, Nat.mod_eq_of_lt wfs, Nat.mod_eq_of_lt wfpt, Nat.mod_eq_of_lt (by omega),
    Nat.mod_eq_of_lt (by omega)⟩

/-! ### What each command makes of the state -/

variable {fd fs fpt bpt vol}

theorem exec_setparam_of_rejected (h : rejectedWhen (.setparam fd fs fpt bpt vol)) :
    exec (.setparam fd fs fpt bpt vol) s = .next s.reject :=
  congrArg Host.Outcome.next (if_pos ((rejectedWhen_setparam_iff ..).1 h))

theorem exec_setparam_of_not_rejected (h : ¬ rejectedWhen (.setparam fd fs fpt bpt vol)) :
    exec (.setparam fd fs fpt bpt vol) s =
      .next ((s.markToneDirty.commitConfig (s.cfg.withKnobs (setparamKnobs fd fs fpt bpt vol).clamp)).respond
        (.ofClamp (setparamKnobs fd fs fpt bpt vol).clamps) 0) :=
  congrArg Host.Outcome.next (if_neg (mt (rejectedWhen_setparam_iff ..).2 h))

end

section
variable {rin rout : BitVec 24} (s : State)

theorem exec_setrate_of_rejected (h : rejectedWhen (.setrate rin rout)) : exec (.setrate rin rout) s = .next s.reject :=
  congrArg Host.Outcome.next (if_neg ((rejectedWhen_setrate_iff ..).1 h))

theorem exec_setrate_of_not_rejected (h : ¬ rejectedWhen (.setrate rin rout)) : exec (.setrate rin rout) s =
    .next ((s.markToneDirty.commitConfig { s.cfg with rateIn := rin, rateOut := rout }).respond .ok 0) :=
  congrArg Host.Outcome.next (if_pos (not_not.1 (mt (rejectedWhen_setrate_iff ..).2 h)))

end

theorem exec_setmode (m : BitVec 1) (s : State) :
    exec (.setmode m) s = .next ((s.commitConfig { s.cfg with mode := .ofBit m }).respond .ok 0) := rfl

theorem exec_setecc (e : BitVec 7) (s : State) : exec (.setecc e) s =
    .next ((s.commitConfig { s.cfg with ecc := BitVec.ofNat 7 (clampEcc e.toNat) }).respond (.ofClamp (eccClamps e.toNat)) 0) := rfl

/-- A configuration command is rejected and only answers, or commits and aborts both sessions (R134, R135); what it commits can
make the tone table dirty. -/
theorem exec_config_rejects_or_aborts {i : Instr} {s t : State} (hi : i.isConfig = true) (h : exec i s = .next t) :
    rejectedWhen i ∧ t = s.reject ∨
    ¬ rejectedWhen i ∧ ∃ dirty, t.tx = { s.tx.abort with ttDirty := dirty } ∧ t.rx = s.rx.abort := by
  cases i with
  | setparam fd fs fpt bpt vol =>
    by_cases hr : rejectedWhen (.setparam fd fs fpt bpt vol)
    · rw [exec_setparam_of_rejected s hr] at h
      exact .inl ⟨hr, (Host.Outcome.next.inj h).symm⟩
    · rw [exec_setparam_of_not_rejected s hr] at h
      obtain rfl := Host.Outcome.next.inj h
      exact .inr ⟨hr, true, rfl, rfl⟩
  | setmode m =>
    obtain rfl := Host.Outcome.next.inj h
    exact .inr ⟨id, s.tx.ttDirty, rfl, rfl⟩
  | setecc e =>
    obtain rfl := Host.Outcome.next.inj h
    exact .inr ⟨id, s.tx.ttDirty, rfl, rfl⟩
  | setrate rin rout =>
    by_cases hr : rejectedWhen (.setrate rin rout)
    · rw [exec_setrate_of_rejected s hr] at h
      exact .inl ⟨hr, (Host.Outcome.next.inj h).symm⟩
    · rw [exec_setrate_of_not_rejected s hr] at h
      obtain rfl := Host.Outcome.next.inj h
      exact .inr ⟨hr, true, rfl, rfl⟩
  | _ => cases hi

/-! ### The statements -/

/-- Settles O22: the clamped knobs are the rule's, so the Nyquist check is the rejection, and the knobs written fit. -/
theorem setparamWritesTheClampedKnobsOrRejects : Obligations.SetparamWritesTheClampedKnobsOrRejects := by
  intro fd fs fpt bpt vol s fd' fs' fpt' bpt' vol'
  have hclamp : (setparamKnobs fd fs fpt bpt vol).clamp = ⟨fd', fs', fpt', bpt', vol'⟩ := clamp_setparamKnobs ..
  have hrejected : rejectedWhen (.setparam fd fs fpt bpt vol) ↔ 511 < fs' + (15 + 8 * bpt') * fd' := by
    rw [rejectedWhen_setparam_iff, Knobs.beyondNyquist_iff, hclamp]
  split
  · next hr => exact exec_setparam_of_rejected s (hrejected.2 hr)
  · next hr =>
    have hknobs := toNat_withKnobs_setparamKnobs fd fs fpt bpt vol s.cfg
    rw [hclamp] at hknobs
    obtain ⟨hfd, hfs, hfpt, hbpt, hvol⟩ := hknobs
    have hexec := exec_setparam_of_not_rejected s (mt hrejected.1 hr)
    rw [hclamp, Status.ofClamp_eq_ite (clamps_setparamKnobs_iff ..)] at hexec
    exact ⟨_, hexec, hfd, hfs, hfpt, hbpt, hvol, rfl, rfl, rfl, rfl⟩

/-- Settles O25: a rejected command only answers, and a committed one leaves both sessions aborted. -/
theorem committedConfigurationCommandAbortsBothSessions : Obligations.CommittedConfigurationCommandAbortsBothSessions := by
  intro i s t hi h
  rcases exec_config_rejects_or_aborts hi h with ⟨hr, rfl⟩ | ⟨hr, dirty, htx, hrx⟩
  · exact ⟨fun _ => ⟨rfl, rfl, rfl⟩, fun hn => absurd hr hn⟩
  · exact ⟨fun hn => absurd hn hr, fun _ => by simp [htx, hrx]⟩

/-- Settles O23: SETMODE by its equation, SETECC by its equation and the value of the clamp. -/
theorem setmodeAndSeteccWriteTheirRegister : Obligations.SetmodeAndSeteccWriteTheirRegister := by
  refine fun s => ⟨fun m => exec_setmode m s, fun e => ?_⟩
  have hexec := exec_setecc e s
  rw [Status.ofClamp_eq_ite (eccClamps_iff _)] at hexec
  exact ⟨_, hexec, toNat_clampEcc _, rfl, rfl, rfl, rfl⟩

/-- Settles O24: the range check is the rejection. -/
theorem setrateWritesRatesInRangeOrRejects : Obligations.SetrateWritesRatesInRangeOrRejects := by
  intro rin rout s
  split
  · next hr => exact exec_setrate_of_rejected s hr
  · next hr => exact exec_setrate_of_not_rejected s hr

end Sys2Proof.Machine
end

section
/-! PROOFS. The statements about the transmit commands (spec/41_tx.md): what WTXB, INIT and SEND make of the state, that the Tx
and Rx paths do not read each other, and that the tone table is not observed. -/

namespace Sys2Proof.Machine

/-! ### What each transmit command makes of the state (R150, R175) -/

section
variable {s : State}

theorem exec_wtxb_of_accepted {idx : BitVec 8} (hidx : idx.toNat < 140) (data : Byte) (s : State) : exec (.wtxb idx data) s =
    .next (State.respond { s with tx := { s.tx with txstage := Memory.write Space.txstage s.tx.txstage idx.toNat data } } .ok 0) :=
  congrArg Host.Outcome.next (if_pos ((indexInRange_iff _).2 hidx))

theorem exec_wtxb_of_rejected {idx : BitVec 8} (hidx : 140 ≤ idx.toNat) (data : Byte) (s : State) :
    exec (.wtxb idx data) s = .next s.reject :=
  congrArg Host.Outcome.next (if_neg (mt (indexInRange_iff _).1 (not_lt.2 hidx)))

theorem exec_send_of_session (hd : s.tx.hasdata = true) : exec .send s = .next s.sendFrame :=
  congrArg Host.Outcome.next (if_pos hd)

theorem exec_send_of_no_session (hd : s.tx.hasdata = false) : exec .send s = .next (s.respond .ok 0) :=
  congrArg Host.Outcome.next (if_neg (Bool.not_eq_true _ ▸ hd))

end

/-- Settles O27: the index check is the rejection, and an accepted write is a write of the staging memory. -/
theorem wtxbWritesOneStagingByteOrRejects : Obligations.WtxbWritesOneStagingByteOrRejects := by
  refine fun idx data s hinv => ⟨fun hidx => exec_wtxb_of_rejected hidx data s, fun hidx =>
    ⟨_, exec_wtxb_of_accepted hidx data s, rfl, fun a => ?_⟩⟩
  have hsize : idx.toNat < Space.txstage.size := hidx
  simp only [State.respond_tx, Memory.read_write _ hinv.tx.txstage, hsize, and_true]

/-! ### INIT (R152, R154, R159) -/

theorem stagedText_eq_map (t : Tx) (len : Nat) :
    stagedText t len = (List.range (min len 140)).map fun i => Memory.read Space.txstage t.txstage i := by
  simp only [stagedText, Memory.readN, copiedLength, Config.maxLength, Nat.zero_add]

/-- What INIT makes of the Tx session, on the hardware's codec. -/
theorem init_says_of_inv {s : State} (hinv : s.Inv) (len : Nat) : Tx.InitSays s.cfg s.tx (stagedText s.tx len)
    (codeword Config.params s.cfg (stagedText s.tx len)) (s.initSession Config.params len).tx :=
  Tx.init_says Config.params_admitted hinv.cfg s.tx len

/-- Settles O28: each field is what `Tx.InitSays` says of it, on the staged text and its codeword. -/
theorem initStartsASessionOnTheStagedText : Obligations.InitStartsASessionOnTheStagedText := by
  intro len s hinv L text cw G
  have htext : stagedText s.tx len.toNat = text := stagedText_eq_map ..
  have hlen : text.length = L := by simp [text]
  have hcw : codeword Config.params s.cfg text = cw := by
    unfold codeword fixedPayload cw
    rw [hlen]
    cases s.cfg.mode <;> rfl
  have hsays := init_says_of_inv hinv len.toNat
  rw [htext, hcw] at hsays
  refine ⟨_, exec_init len s, rfl, rfl, hsays.txtext, hsays.txlen.trans hlen, ?_, hsays.enclen, hsays.enc, hsays.ngrp, ?_,
    hsays.frameid, hsays.hasdata, hsays.txstage, hsays.ttDirty, hsays.tone, ?_⟩
  · rw [hsays.sdl, hlen]
    cases s.cfg.mode <;> rfl
  · have htotal : (s.initSession Config.params len.toNat).tx.total.toNat = 28 + G * s.cfg.fpt.toNat := hsays.total
    omega
  · rw [BitVec.ofNat_toNat, ← Status.ofClamp_eq_ite (lengthClamps_iff s.cfg.mode len.toNat)]
    rfl

/-- Settles O29: the length of the codeword fixes ENCLEN and the number of groups. -/
theorem sessionSizeFollowsFromModeAndLength : Obligations.SessionSizeFollowsFromModeAndLength := by
  intro len s hinv
  have hsays := init_says_of_inv hinv len.toNat
  have hlength := length_codeword Config.params_admitted s.cfg (stagedText s.tx len.toNat)
  refine ⟨_, exec_init len s, fun hmode => ?_, fun hmode => ?_⟩
  · simp only [hmode] at hlength
    rw [hsays.enclen, hsays.total, hlength]
    exact ⟨rfl, rfl⟩
  · simp only [hmode, length_stagedText] at hlength
    exact hsays.enclen.trans hlength

/-! ### Noninterference (R158, R167) -/

/-- RDRX only answers, from the Rx state (42_rx.md R240). -/
theorem exec_rdrx_eq (idx : BitVec 8) (s : State) : exec (.rdrx idx) s =
    .next (s.respond (if indexInRange idx.toNat then .ok else .rejected)
      (if indexInRange idx.toNat then (Memory.read Space.rxdata s.rx.rxdata idx.toNat).setWidth 32 else 0)) := by
  cases hidx : indexInRange idx.toNat <;> simp only [exec, execRdrx, hidx] <;> rfl

/-- Settles O18: each command's state is built from the parts its path owns. -/
theorem txAndRxPathsDoNotReadEachOther : Obligations.TxAndRxPathsDoNotReadEachOther := by
  intro s r x len
  refine ⟨fun t h => ?_, fun t h => ?_, ?_⟩
  · obtain rfl := Host.Outcome.next.inj h
    rfl
  · cases hd : s.tx.hasdata with
    | true =>
      obtain rfl := Host.Outcome.next.inj ((exec_send_of_session hd).symm.trans h)
      exact exec_send_of_session (s := { s with rx := r }) hd
    | false =>
      obtain rfl := Host.Outcome.next.inj ((exec_send_of_no_session hd).symm.trans h)
      exact exec_send_of_no_session (s := { s with rx := r }) hd
  · rintro i (rfl | ⟨idx, rfl⟩ | rfl) t h
    · obtain rfl := Host.Outcome.next.inj h
      rfl
    · obtain rfl := Host.Outcome.next.inj ((exec_rdrx_eq idx s).symm.trans h)
      exact exec_rdrx_eq idx { s with tx := x }
    · obtain rfl := Host.Outcome.next.inj h
      rfl

/-! ### SEND (R166, R175) -/

/-- The Tx session with another tone table and dirty flag. -/
def Tx.withTones (t : Tx) (m : RowMem Frame) (b : Bool) : Tx := { t with tone := m, ttDirty := b }

/-- The refresh writes the tone table and leaves it clean, and touches nothing else (R166). -/
theorem Tx.refreshTone_eq (c : Cfg) (t : Tx) : t.refreshTone c = t.withTones (t.refreshTone c).tone false := by
  rcases t.refreshTone_cases c with ⟨hclean, e⟩ | ⟨-, e⟩ <;> rw [e]
  · rw [← hclean]
    rfl
  · rfl

/-- The cursor moves on without the tone table (R175). -/
theorem Tx.advance_withTones (t : Tx) (m : RowMem Frame) (b : Bool) : (t.withTones m b).advance = t.advance.withTones m b := by
  by_cases hlast : t.frameid.toNat + 1 = t.total.toNat <;> simp only [advance, withTones, hlast, if_true, if_false]

/-- The cursor is FRAMEID and HASDATA, and nothing else moves (R175). -/
theorem Tx.advance_frame (t : Tx) : t.advance = { t with hasdata := t.advance.hasdata, frameid := t.advance.frameid } := by
  unfold advance
  split <;> rfl

/-- SEND with a session: the frame is that of the session as it stands, whatever the tone table (R167, R175). -/
theorem State.sendFrame_eq (s : State) : s.sendFrame =
    (({ s with tx := s.tx.advance.withTones (s.tx.refreshTone s.cfg).tone false } : State).emit (txFrame s.cfg s.tx)).respond
      .ok 1024 := by
  have hcursor : (s.tx.refreshTone s.cfg).advance = s.tx.advance.withTones (s.tx.refreshTone s.cfg).tone false := by
    rw [Tx.refreshTone_eq, Tx.advance_withTones]
    rfl
  have hframe : txFrame s.cfg (s.tx.refreshTone s.cfg) = txFrame s.cfg s.tx := by
    rw [Tx.refreshTone_eq]
    rfl
  simp only [sendFrame, hcursor, hframe]

/-- The cursor after one SEND: the session has ended, or it stands at the next frame. -/
theorem sendFrame_cursor {s : State} (hinv : s.Inv) (hd : s.tx.hasdata = true) :
    (s.tx.frameid.toNat + 1 = s.tx.total.toNat ∧ s.sendFrame.tx.hasdata = false ∧ s.sendFrame.tx.frameid = 0) ∨
    (s.tx.frameid.toNat + 1 < s.tx.total.toNat ∧ s.sendFrame.tx.hasdata = true ∧
      s.sendFrame.tx.frameid.toNat = s.tx.frameid.toNat + 1) := by
  have hcursor : s.sendFrame.tx.hasdata = s.tx.advance.hasdata ∧ s.sendFrame.tx.frameid = s.tx.advance.frameid := by
    rw [State.sendFrame_eq]
    exact ⟨rfl, rfl⟩
  rw [hcursor.1, hcursor.2]
  rcases Tx.advance_cases hinv.tx hd with ⟨hlast, e⟩ | ⟨hlt, e, hnext⟩
  · exact .inl ⟨hlast, by rw [e], by rw [e]⟩
  · exact .inr ⟨hlt, by rw [e]; exact hd, hnext⟩

/-- T(b)[n] as the rules write it (R161, R163). -/
theorem tone_eq (c : Cfg) (b n : Nat) :
    tone c b n = ((c.vol.toNat * (32767 / (8 * c.bpt.toNat)) / 100 : Nat) : Int) * sinq (b * n % 1024) / 32768 := rfl

/-- Settles O30: the frame is `txFrame`, the cursor is that of `sendFrame_cursor`, and the tone table is coherent after the
refresh. -/
theorem sendEmitsTheNextFrameOrNothing : Obligations.SendEmitsTheNextFrameOrNothing := by
  intro s hinv
  refine ⟨exec_send_of_no_session, fun hd => ?_⟩
  have hcoherent : ∀ r < 16 + s.cfg.ndb, Memory.read Space.tone (s.tx.refreshTone s.cfg).tone r = toneRow s.cfg r :=
    (hinv.tx.refreshTone hinv.cfg).coherent (by rw [Tx.refreshTone_eq]; rfl)
  have hexec := exec_send_of_session hd
  have hcursor := sendFrame_cursor hinv hd
  rw [State.sendFrame_eq] at hexec hcursor
  refine ⟨_, txFrame s.cfg s.tx, hexec, rfl, rfl, rfl, toInt_txFrame s.cfg s.tx, ?_, ?_, ?_, ?_, ?_⟩
  · exact congrArg (Tx.withTones · (s.tx.refreshTone s.cfg).tone false) s.tx.advance_frame
  · rcases hcursor with ⟨hlast, hended⟩ | ⟨hlt, hnext⟩
    · rw [if_pos hlast]
      exact hended
    · rw [if_neg hlt.ne]
      exact hnext
  · intro hclean
    rcases s.tx.refreshTone_cases s.cfg with ⟨-, e⟩ | ⟨hdirty, -⟩
    · have htone : (s.tx.refreshTone s.cfg).tone = s.tx.tone := by rw [e]
      exact htone
    · cases hclean.symm.trans hdirty
  · intro hdirty r hr
    rcases s.tx.refreshTone_cases s.cfg with ⟨hclean, -⟩ | ⟨-, e⟩
    · cases hclean.symm.trans hdirty
    · simp only [State.respond_tx, State.emit_tx, Tx.withTones, e, read_rebuildTone hinv.cfg.ndb_le hinv.tx.tone, not_lt.2 hr,
        if_false]
  · intro A r hr n
    have hrow : Memory.read Space.tone (s.tx.refreshTone s.cfg).tone r = toneRow s.cfg r := hcoherent r hr
    simp only [State.respond_tx, State.emit_tx, Tx.withTones, hrow, toInt_toneRow hinv.cfg, tone_eq]
    rfl

/-! ### The tone table is not observed (R167) -/

/-- The state with another tone table and dirty flag. -/
def State.withTones (s : State) (m : RowMem Frame) (b : Bool) : State := { s with tx := s.tx.withTones m b }

/-- A command run on another tone table does the same but for the tone table. -/
theorem exec_withTones {i : Instr} {s t : State} (h : exec i s = .next t) (m : RowMem Frame) (b : Bool) :
    ∃ m' b', exec i (s.withTones m b) = .next (t.withTones m' b') := by
  cases i with
  | setparam fd fs fpt bpt vol =>
    by_cases hr : rejectedWhen (.setparam fd fs fpt bpt vol)
    · obtain rfl := Host.Outcome.next.inj ((exec_setparam_of_rejected s hr).symm.trans h)
      exact ⟨m, b, exec_setparam_of_rejected _ hr⟩
    · obtain rfl := Host.Outcome.next.inj ((exec_setparam_of_not_rejected s hr).symm.trans h)
      exact ⟨m, true, exec_setparam_of_not_rejected _ hr⟩
  | setrate rin rout =>
    by_cases hr : rejectedWhen (.setrate rin rout)
    · obtain rfl := Host.Outcome.next.inj ((exec_setrate_of_rejected s hr).symm.trans h)
      exact ⟨m, b, exec_setrate_of_rejected _ hr⟩
    · obtain rfl := Host.Outcome.next.inj ((exec_setrate_of_not_rejected s hr).symm.trans h)
      exact ⟨m, true, exec_setrate_of_not_rejected _ hr⟩
  | wtxb idx data =>
    rcases Nat.lt_or_ge idx.toNat 140 with hidx | hidx
    · obtain rfl := Host.Outcome.next.inj ((exec_wtxb_of_accepted hidx data s).symm.trans h)
      exact ⟨m, b, exec_wtxb_of_accepted hidx data _⟩
    · obtain rfl := Host.Outcome.next.inj ((exec_wtxb_of_rejected hidx data s).symm.trans h)
      exact ⟨m, b, exec_wtxb_of_rejected hidx data _⟩
  | send =>
    cases hd : s.tx.hasdata with
    | true =>
      obtain rfl := Host.Outcome.next.inj ((exec_send_of_session hd).symm.trans h)
      refine ⟨((s.withTones m b).tx.refreshTone s.cfg).tone, false, (exec_send_of_session (s := s.withTones m b) hd).trans ?_⟩
      rw [State.sendFrame_eq, State.sendFrame_eq, State.withTones, Tx.advance_withTones]
      rfl
    | false =>
      obtain rfl := Host.Outcome.next.inj ((exec_send_of_no_session hd).symm.trans h)
      exact ⟨m, b, exec_send_of_no_session (s := s.withTones m b) hd⟩
  | rdrx idx =>
    obtain rfl := Host.Outcome.next.inj ((exec_rdrx_eq idx s).symm.trans h)
    exact ⟨m, b, exec_rdrx_eq idx _⟩
  | setmode | setecc | init | receive | getrxlen | gethasdata | getavgrxt | getftr | getfltr | getfta | getflta | gettbc
  | getrxstate | getratein | getrateout | getspf | getssbin | getssbout =>
    obtain rfl := Host.Outcome.next.inj h
    exact ⟨m, b, rfl⟩

/-- Settles O20: a step that runs no command reads no tone table, and `exec_withTones` is the step that runs one. -/
theorem toneTableCannotBeObserved : Obligations.ToneTableCannotBeObserved := by
  intro s t m b h
  suffices key : ∃ m' b', step (s.withTones m b) = .next (t.withTones m' b') from key
  cases hev : s.port.events with
  | nil =>
    simp only [step, hev] at h
    obtain rfl := Host.Outcome.next.inj h
    exact ⟨m, b, by simp only [step, State.withTones, hev]; rfl⟩
  | cons e rest =>
    have hev' : (s.withTones m b).port.events = e :: rest := hev
    cases e with
    | resetInput =>
      simp only [step, hev] at h
      obtain rfl := Host.Outcome.next.inj h
      exact ⟨[], true, by simp only [step, hev']; rfl⟩
    | command w =>
      cases hdec : decode w with
      | ok i =>
        rw [step_command hev hdec] at h
        rw [step_command hev' hdec]
        exact exec_withTones h m b
      | error e =>
        obtain rfl := Host.Outcome.next.inj ((step_illegal hev hdec).symm.trans h)
        exact ⟨m, b, step_illegal hev' hdec⟩

end Sys2Proof.Machine
end

section
/-! PROOFS. The statements about the samples of a session (spec/41_tx.md): the waveforms, their range, the frame plan, how a
session drains frame by frame, and the templates under the reference FFT engine. -/

namespace Sys2Proof.Machine

/-! ### Waveforms (R161 to R169) -/

theorem sumOver_map (l : List Nat) (g : Nat → Nat) (f : Nat → Int) : sumOver (l.map g) f = sumOver l fun k => f (g k) := by
  simp only [sumOver, List.map_map, Function.comp_def]

/-- A sum over the slots whose bit is 1: a 0 bit is silence (R165). -/
theorem sumOver_ite_zero (l : List Nat) (p : Nat → Bool) (f : Nat → Int) :
    sumOver l (fun k => if p k then f k else 0) = sumOver (l.filter p) f := by
  simp [sumOver, List.sum_map_ite]

theorem startMarker_eq_sum (c : Cfg) (n : Nat) : startMarker c n = sumOver (List.range 8) fun j => tone c (c.mb (2 * j)) n :=
  sumOver_map (List.range 8) (2 * ·) fun j => tone c (c.mb j) n

theorem postMarker_eq_sum (c : Cfg) (n : Nat) : postMarker c n = sumOver (List.range 8) fun j => tone c (c.mb (2 * j + 1)) n :=
  sumOver_map (List.range 8) (2 * · + 1) fun j => tone c (c.mb j) n

theorem dataWave_eq_sum (c : Cfg) (enc : ByteMem) (g n : Nat) :
    dataWave c enc g n = sumOver ((List.range c.ndb).filter (groupBit c enc g)) fun k => tone c (c.db k) n :=
  sumOver_ite_zero ..

/-- Settles O33: the template is `tone` written out, and each waveform is its sum of templates. -/
theorem waveformsSumTheTemplatesOfTheirSlots : Obligations.WaveformsSumTheTemplatesOfTheirSlots := by
  intro c enc g n A T
  have htone : ∀ b, tone c b n = T b := fun b => tone_eq c b n
  refine ⟨?_, ?_, ?_⟩
  · simp only [startMarker_eq_sum, htone]
    rfl
  · simp only [postMarker_eq_sum, htone]
    rfl
  · simp only [dataWave_eq_sum, htone]
    rfl

/-! ### No sample clips (R174) -/

theorem segmentValue_bounds {c : Cfg} (hc : c.Legal) (enc : ByteMem) (G f : Nat) {n : Nat} (hn : n < 1024) :
    -32767 ≤ segmentValue c enc G (segment c G f) n ∧ segmentValue c enc G (segment c G f) n ≤ 32767 := by
  rcases segment_cases c G f with e | ⟨j, hj, e⟩ | ⟨g, e⟩ | ⟨g, i, -, hi, e⟩ | ⟨j, hj, e⟩ | e <;> rw [e]
  · exact startMarker_bounds hc n
  · exact asr_mul_bounds (dataWave_bounds hc enc 0 n) (rampGain_two hj hn)
  · exact dataWave_bounds hc enc g n
  · exact blend_bounds hc enc g i n hi hn
  · have hgain := rampGain_two hj hn
    exact asr_mul_bounds (dataWave_bounds hc enc (G - 1) n) (by simp only [Config.rampEnd]; omega)
  · exact postMarker_bounds hc n

/-- Settles O31: every bound is one of the tone generator's, so the saturation is the identity. -/
theorem noSampleEverClips : Obligations.NoSampleEverClips := by
  intro c enc G f n hc hn
  have hvalue := segmentValue_bounds hc enc G f hn
  refine ⟨fun b => template_bounds c.amp b n, hc.ndb_mul_amp_le, fun g => ?_, hvalue.1, hvalue.2,
    sat16_eq_self ⟨by omega, hvalue.2⟩⟩
  have hwave := dataWave_bounds hc enc g n
  omega

/-! ### The frame plan (R156, R170 to R173) -/

/-- A ramp of two frames (R170, R172). -/
theorem rampGain_two_eq (j n : Nat) : rampGain 2 j n = 16 * (1024 * j + n) := by
  unfold rampGain
  omega

/-- The cross-fade is one frame long (R171). -/
theorem rampGain_one_eq (n : Nat) : rampGain 1 0 n = 32 * n := by
  unfold rampGain
  omega

theorem asr_fifteen (v : Int) : asr v 15 = v / 32768 := rfl

section
variable (c : Cfg)

theorem lt_nbl_iff (i : Nat) : i < c.nbl ↔ 2 ≤ c.fpt.toNat ∧ i = 0 := by
  unfold Cfg.nbl
  split <;> omega

theorem blend_zero (enc : ByteMem) (g n : Nat) (hF : 2 ≤ c.fpt.toNat) : blend c enc g 0 n =
    (dataWave c enc (g - 1) n * (32768 - (32 * n : Nat)) + dataWave c enc g n * (32 * n : Nat)) / 32768 := by
  have hnbl : c.nbl = 1 := if_pos hF
  rw [blend, hnbl, rampGain_one_eq, asr_fifteen]

theorem segment_of_marker (G : Nat) {f : Nat} (hf : f < 16) : segment c G f = .marker := if_pos hf

theorem segment_of_rampUp (G : Nat) {j : Nat} (hj : j < 2) : segment c G (16 + j) = .rampUp j := by
  have h16 : ¬ 16 + j < 16 := by omega
  have h18 : 16 + j < 18 := by omega
  simp only [segment, h16, h18, if_true, if_false, Nat.add_sub_cancel_left]

/-- Frame i of group g is data, but for the cross-fade frame of a group after the first. -/
theorem segment_of_group {G g i : Nat} (hg : g < G) (hi : i < c.fpt.toNat) :
    segment c G (18 + g * c.fpt.toNat + i) = if 1 ≤ g ∧ 2 ≤ c.fpt.toNat ∧ i = 0 then .blend g i else .data g := by
  have hgroups : (g + 1) * c.fpt.toNat ≤ G * c.fpt.toNat := Nat.mul_le_mul_right _ hg
  rw [Nat.add_mul, Nat.one_mul] at hgroups
  have h16 : ¬ 18 + g * c.fpt.toNat + i < 16 := by omega
  have h18 : ¬ 18 + g * c.fpt.toNat + i < 18 := by omega
  have hdata : 18 + g * c.fpt.toNat + i < 18 + G * c.fpt.toNat := by omega
  have hoffset : 18 + g * c.fpt.toNat + i - 18 = g * c.fpt.toNat + i := by omega
  have hdiv : (g * c.fpt.toNat + i) / c.fpt.toNat = g := by
    rw [Nat.mul_comm, Nat.mul_add_div (by omega), Nat.div_eq_of_lt hi, Nat.add_zero]
  have hmod : (g * c.fpt.toNat + i) % c.fpt.toNat = i := by
    rw [Nat.mul_add_mod_self_right, Nat.mod_eq_of_lt hi]
  simp only [segment, h16, h18, hdata, hoffset, hdiv, hmod, lt_nbl_iff, if_true, if_false]

theorem segment_of_rampDown (G : Nat) {j : Nat} (hj : j < 2) : segment c G (18 + G * c.fpt.toNat + j) = .rampDown j := by
  have h16 : ¬ 18 + G * c.fpt.toNat + j < 16 := by omega
  have h18 : ¬ 18 + G * c.fpt.toNat + j < 18 := by omega
  have hdata : ¬ 18 + G * c.fpt.toNat + j < 18 + G * c.fpt.toNat := by omega
  have hdown : 18 + G * c.fpt.toNat + j < 20 + G * c.fpt.toNat := by omega
  have hoffset : 18 + G * c.fpt.toNat + j - 18 - G * c.fpt.toNat = j := by omega
  simp only [segment, h16, h18, hdata, hdown, hoffset, if_true, if_false]

theorem segment_of_post {G f : Nat} (hf : 20 + G * c.fpt.toNat ≤ f) : segment c G f = .post := by
  have h16 : ¬ f < 16 := by omega
  have h18 : ¬ f < 18 := by omega
  have hdata : ¬ f < 18 + G * c.fpt.toNat := by omega
  simp only [segment, h16, h18, hdata, not_lt.2 hf, if_false]

end

/-- Settles O32: each range of frames is one segment, and its envelope is the gain written out. -/
theorem sessionFramesFollowTheFramePlan : Obligations.SessionFramesFollowTheFramePlan := by
  intro c enc G f n F D v
  refine ⟨rfl, fun hf => ?_, ?_, ?_, ?_, fun hf => ?_⟩
  · simp only [v, frameSample, segment_of_marker c G hf, segmentValue]
  · rintro j hj rfl
    simp only [v, frameSample, segment_of_rampUp c G hj, segmentValue, rampUp, Config.rampBegin, rampGain_two_eq, asr_fifteen, D]
  · rintro g hg i hi rfl
    simp only [v, frameSample, segment_of_group c hg hi, F]
    split
    · next hblend =>
      obtain ⟨-, hF, rfl⟩ := hblend
      simp only [segmentValue, blend_zero c enc g n hF, D]
    · rfl
  · rintro j hj rfl
    simp only [v, frameSample, F, segment_of_rampDown c G hj, segmentValue, rampDown, Config.rampEnd, rampGain_two_eq,
      asr_fifteen, D]
  · simp only [v, frameSample, segment_of_post c hf, segmentValue]

/-! ### How a session drains (R175) -/

/-- Frame f of a session of G groups, as SEND emits it. -/
def sessionFrame (c : Cfg) (enc : ByteMem) (G f : Nat) : Frame :=
  Vector.ofFn fun n => BitVec.ofInt 16 (frameSample c enc G f n.val)

theorem txFrame_eq_sessionFrame (c : Cfg) (t : Tx) : txFrame c t = sessionFrame c t.enc t.ngrp.toNat t.frameid.toNat := rfl

theorem toInt_sessionFrame (c : Cfg) (enc : ByteMem) (G f : Nat) (n : Fin 1024) :
    ((sessionFrame c enc G f).get n).toInt = frameSample c enc G f n.val := by
  rw [sessionFrame, Vector.get_ofFn]
  exact toInt_ofInt_sat16 _

/-- The k frames of a session from frame f on, in the order they are emitted. -/
def framesFrom (c : Cfg) (enc : ByteMem) (G f k : Nat) : List Frame := (List.range k).map fun j => sessionFrame c enc G (f + j)

theorem framesFrom_succ (c : Cfg) (enc : ByteMem) (G f k : Nat) :
    framesFrom c enc G f (k + 1) = sessionFrame c enc G f :: framesFrom c enc G (f + 1) k := by
  simp only [framesFrom, List.range_succ_eq_map, List.map_cons, List.map_map, Function.comp_def, Nat.add_zero, Nat.add_assoc,
    Nat.add_comm 1]

/-- What k SENDs from a session in flight leave, when they drain it. -/
structure Drained (s : State) (k : Nat) (rest : List HostEvent) (t : State) : Prop where
  hasdata   : t.tx.hasdata = false
  frameid   : t.tx.frameid = 0
  events    : t.port.events = rest
  rx        : t.rx = s.rx
  cfg       : t.cfg = s.cfg
  responses : t.port.responses = List.replicate k ⟨.ok, 1024⟩ ++ s.port.responses
  sink      : t.port.sink = (framesFrom s.cfg s.tx.enc s.tx.ngrp.toNat s.tx.frameid.toNat k).reverse ++ s.port.sink

/-- What one SEND from a session in flight leaves: the port traffic, the cursor, and what the next frame is made of. -/
structure SentFrame (s u : State) : Prop where
  cfg       : u.cfg = s.cfg
  rx        : u.rx = s.rx
  responses : u.port.responses = ⟨.ok, 1024⟩ :: s.port.responses
  sink      : u.port.sink = sessionFrame s.cfg s.tx.enc s.tx.ngrp.toNat s.tx.frameid.toNat :: s.port.sink
  enc       : u.tx.enc = s.tx.enc
  ngrp      : u.tx.ngrp = s.tx.ngrp
  total     : u.tx.total = s.tx.total
  cursor    : (s.tx.frameid.toNat + 1 = s.tx.total.toNat ∧ u.tx.hasdata = false ∧ u.tx.frameid = 0) ∨
    (s.tx.frameid.toNat + 1 < s.tx.total.toNat ∧ u.tx.hasdata = true ∧ u.tx.frameid.toNat = s.tx.frameid.toNat + 1)

theorem sendFrame_says {s : State} (hinv : s.Inv) (hd : s.tx.hasdata = true) : SentFrame s s.sendFrame := by
  have hcursor := sendFrame_cursor hinv hd
  rw [State.sendFrame_eq, Tx.advance_frame, txFrame_eq_sessionFrame] at hcursor ⊢
  exact ⟨rfl, rfl, rfl, rfl, rfl, rfl, rfl, hcursor⟩

/-- A run with SEND at the port and a session in flight emits one frame first. -/
theorem run_send {s : State} {rest : List HostEvent} (hinv : s.Inv) (hd : s.tx.hasdata = true)
    (hev : s.port.events = .command (encode .send) :: rest) :
    ∃ u, (∀ k, core.run (k + 1) s = core.run k u) ∧ u.Inv ∧ u.port.events = rest ∧ SentFrame s u := by
  have htaken : s.takeEvent.Inv := hinv.of_block_eq rfl rfl rfl
  have hsent := sendFrame_says htaken hd
  exact ⟨_, run_command hev (exec_send_of_session (s := s.takeEvent) hd), htaken.sendFrame hd, congrArg List.tail hev,
    hsent.cfg, hsent.rx, hsent.responses, hsent.sink, hsent.enc, hsent.ngrp, hsent.total, hsent.cursor⟩

/-- As many SENDs as the session has frames left drain it, by induction on that number. -/
theorem run_sends {k : Nat} {s : State} {rest : List HostEvent} (hinv : s.Inv) (hd : s.tx.hasdata = true)
    (hk : s.tx.total.toNat = s.tx.frameid.toNat + (k + 1))
    (hev : s.port.events = List.replicate (k + 1) (.command (encode .send)) ++ rest) :
    ∃ t, core.run (k + 1) s = .next t ∧ Drained s (k + 1) rest t := by
  induction k generalizing s with
  | zero =>
    obtain ⟨u, hrun, -, hevents, hsent⟩ := run_send hinv hd hev
    rcases hsent.cursor with ⟨-, hended, hrewound⟩ | ⟨hlt, -⟩
    · exact ⟨u, hrun 0, hended, hrewound, hevents, hsent.rx, hsent.cfg, hsent.responses, hsent.sink⟩
    · omega
  | succ k ih =>
    obtain ⟨u, hrun, hinvu, hevents, hsent⟩ := run_send hinv hd hev
    rcases hsent.cursor with ⟨hlast, -⟩ | ⟨-, hud, hnext⟩
    · omega
    · obtain ⟨t, htrun, h⟩ := ih hinvu hud (by rw [hsent.total, hnext]; omega) hevents
      refine ⟨t, (hrun _).trans htrun, h.hasdata, h.frameid, h.events, h.rx.trans hsent.rx, h.cfg.trans hsent.cfg, ?_, ?_⟩
      · rw [h.responses, hsent.responses, List.replicate_succ' (n := k + 1), List.append_assoc, List.singleton_append]
      · rw [h.sink, hsent.sink, hsent.cfg, hsent.enc, hsent.ngrp, hnext, framesFrom_succ _ _ _ _ (k + 1), List.reverse_cons,
          List.append_assoc, List.singleton_append]

/-- Settles O34: the session is drained by `run_sends`, and its frames are those of the session from FRAMEID on. -/
theorem sessionDrainsFrameByFrame : Obligations.SessionDrainsFrameByFrame := by
  intro s rest hinv hd hev
  have hleft := (hinv.tx.session hd).1
  obtain ⟨k, hk⟩ : ∃ k, s.tx.total.toNat - s.tx.frameid.toNat = k + 1 := ⟨_, (Nat.succ_pred (by omega)).symm⟩
  rw [hk] at hev ⊢
  obtain ⟨t, hrun, h⟩ := run_sends hinv hd (by omega) hev
  refine ⟨t, hrun, h.hasdata, h.frameid, h.events, h.rx, h.cfg, h.responses, _, h.sink, by simp [framesFrom], ?_⟩
  intro j x hx n
  simp only [framesFrom, List.getElem?_map, Option.map_eq_some_iff] at hx
  obtain ⟨i, hi, rfl⟩ := hx
  obtain ⟨hj, hi⟩ := List.getElem?_eq_some_iff.1 hi
  obtain rfl : j = i := (List.getElem_range hj).symm.trans hi
  exact toInt_sessionFrame ..

/-! ### The templates under the reference FFT engine (R176, R203) -/

/-- Settles O59: each sample is near the ideal sinusoid, so each bin of the transform is near the sinusoid's. -/
theorem templatesAreNearlyPureTonesUnderTheReferenceEngine :
    Obligations.TemplatesAreNearlyPureTonesUnderTheReferenceEngine := by
  intro c b enc dec hc hb1 hb2 P a T
  have hsample : ∀ n : Fin 1024, ((T.get n).toInt : ℝ) = tone c b n.val := by
    intro n
    rw [Vector.get_ofFn, toInt_ofInt_tone hc]
  have hnear : ∀ n : Nat, |(tone c b n : ℝ) - a * Real.sin (2 * Real.pi * b * n / 1024)| < 1.0625 :=
    fun n => template_near_sine hc.amp_le b n
  refine ⟨fun n => by rw [hsample]; exact hnear n.val, fun b' => ?_⟩
  have ha : 0 ≤ a := by positivity
  have hb' : b'.val ≤ 512 := by omega
  have hdft := dft_eq_dftOf T (g := fun n => (tone c b n : ℝ)) hsample b'.val
  have hpure := norm_dftOf_sine ha hb1 hb2 hb'
  have hclose := dftOf_near (fun n _ => hnear n) b'.val
  rw [val_reference, hdft]
  have hdiff := (abs_norm_sub_norm_le _ _).trans_lt hclose
  have hbound : (1024 : ℝ) * 1.0625 = 1088 := by norm_num
  rw [hpure, hbound] at hdiff
  split
  · next e => rwa [if_pos e] at hdiff
  · next e =>
    rw [if_neg e, sub_zero] at hdiff
    exact (le_abs_self _).trans_lt hdiff

end Sys2Proof.Machine
end

section
/-! PROOFS. The statements about one tick of RECEIVE (spec/42_rx.md R200 to R229): its response, what a live frame enters, and
what each state of the receiver makes of it. -/

namespace Sys2Proof.Machine

/-! ### The marker detector (R208, R209) -/

/-- The start marker by value: exactly the even marker bins exceed the floor (R209). -/
theorem markerMatch_iff (P : Params) (c : Cfg) (S : Spectrum) (fl : Mag) : markerMatch P c S fl = true ↔
    ∀ j < 16, (3 * P.val fl < 2 * P.val (elem S .zero (c.mb j)) ↔ j % 2 = 0) := by
  simp only [markerMatch, Config.markerBits, List.all_eq_true, List.mem_range, beq_iff_eq]
  refine forall₂_congr fun j _ => ?_
  rw [Bool.eq_iff_iff, binOn_iff, beq_iff_eq]

/-- Settles O40: the comparison is exact, and over a floor of 0 it asks for a magnitude above 0. -/
theorem markerMatchIsTheExactPattern : Obligations.MarkerMatchIsTheExactPattern := by
  refine fun P c S fl => ⟨binOn_iff P S fl, fun hfl b => ?_, markerMatch_iff P c S fl⟩
  have hnonneg := P.val_nonneg (elem S .zero b)
  rw [binOn_iff, hfl, hnonneg.lt_iff_ne'.symm]
  constructor <;> intro h <;> linarith

/-! ### What every tick keeps (R200, R230) -/

/-- A tick that reports a decode counts it, and one that does not leaves the payload and the averages alone. -/
structure Rx.ReportSays (r : Rx) (t : Rx × Bool) : Prop where
  decoded : t.2 = true → t.1.rxcount = r.rxcount + 1
  kept : t.2 = false → t.1.rxcount = r.rxcount ∧ t.1.rxtSum = r.rxtSum ∧ t.1.rxdata = r.rxdata ∧ t.1.rxlen = r.rxlen

section
variable {P : Params} {c : Cfg} {r : Rx}

/-- A step that decodes nothing and writes none of the payload registers. -/
theorem Rx.ReportSays.of_kept {t : Rx}
    (h : t.rxcount = r.rxcount ∧ t.rxtSum = r.rxtSum ∧ t.rxdata = r.rxdata ∧ t.rxlen = r.rxlen) : r.ReportSays (t, false) :=
  ⟨nofun, fun _ => h⟩

theorem Rx.analyzeStep_report (P : Params) (c : Cfg) (r : Rx) : r.ReportSays (r.analyzeStep P c) := by
  have hrest := r.analyzed_rest P c
  have hkept : (r.analyzed P c).rxcount = r.rxcount ∧ (r.analyzed P c).rxtSum = r.rxtSum ∧
      (r.analyzed P c).rxdata = r.rxdata ∧ (r.analyzed P c).rxlen = r.rxlen := by
    rw [hrest]
    exact ⟨rfl, rfl, rfl, rfl⟩
  rcases r.analyzeStep_cases P c with ⟨-, e⟩ | ⟨-, e⟩ <;> rw [e]
  · rcases (r.analyzed P c).decodeStep_cases P c with ⟨-, e⟩ | ⟨m, l, -, e⟩ <;> rw [e]
    · exact .of_kept hkept
    · refine ⟨fun _ => ?_, nofun⟩
      rw [Rx.toListening_rxcount, Rx.commit_rxcount, hkept.1]
  · exact .of_kept hkept

theorem Rx.listenStep_rest (r : Rx) (b : Bool) : r.listenStep b =
    { r with run := (r.listenStep b).run, rxstate := (r.listenStep b).rxstate, rxt := (r.listenStep b).rxt } := by
  rcases r.listenStep_cases b with ⟨-, e⟩ | ⟨-, e⟩ <;> rw [e]

theorem Rx.lockedStep_rest (c : Cfg) (r : Rx) (b : Bool) (fl : Mag) : r.lockedStep c b fl =
    { r with run := (r.lockedStep c b fl).run, rxstate := (r.lockedStep c b fl).rxstate, rxt := satInc r.rxt,
             fltr := (r.lockedStep c b fl).fltr, recMem := (r.lockedStep c b fl).recMem, recf := (r.lockedStep c b fl).recf } := by
  cases b
  · rw [Rx.lockedStep_differ]
    rfl
  · rw [Rx.lockedStep_match]

theorem Rx.recordStep_rest (c : Cfg) (r : Rx) (fl : Mag) : r.recordStep c fl =
    { r with rxstate := (r.recordStep c fl).rxstate, rxt := satInc r.rxt, fltr := r.fltr - 1, flta := (r.recordStep c fl).flta,
             recMem := (r.recordStep c fl).recMem, recf := (r.recordStep c fl).recf, acc := (r.recordStep c fl).acc,
             facc := (r.recordStep c fl).facc, rxraw := (r.recordStep c fl).rxraw } := by
  rcases r.recordStep_cases c fl with ⟨-, e⟩ | ⟨-, e⟩ <;> rw [e] <;> rfl

/-- The report of every tick (R200, R230). -/
theorem Rx.tick_report (P : Params) (c : Cfg) (r : Rx) (a : Answer) : r.ReportSays (r.tick P c a) := by
  have hcap : (r.capture a).rxcount = r.rxcount ∧ (r.capture a).rxtSum = r.rxtSum ∧ (r.capture a).rxdata = r.rxdata ∧
      (r.capture a).rxlen = r.rxlen := by simp
  rcases r.tick_cases P c a with ⟨-, -, e⟩ | ⟨-, -, e⟩ | ⟨-, -, e⟩ | ⟨-, -, e⟩ | ⟨-, -, e⟩ | ⟨-, -, e⟩ <;> rw [e]
  · exact .of_kept ⟨rfl, rfl, rfl, rfl⟩
  · rw [Rx.listenStep_rest]
    exact .of_kept hcap
  · rw [Rx.lockedStep_rest]
    exact .of_kept hcap
  · rw [Rx.recordStep_rest]
    exact .of_kept hcap
  · exact r.analyzeStep_report P c
  · have hreport := (r.capture a).analyzeStep_report P c
    obtain ⟨hcount, hsum, hdata, hlen⟩ := hcap
    exact ⟨fun h => (hreport.decoded h).trans (by rw [hcount]), fun h => by
      rw [← hcount, ← hsum, ← hdata, ← hlen]
      exact hreport.kept h⟩

theorem Rx.decodeStep_rest (P : Params) (c : Cfg) (r : Rx) : (r.decodeStep P c).1 =
    { r with rxstate := .listening, run := 0, rxdata := (r.decodeStep P c).1.rxdata, rxlen := (r.decodeStep P c).1.rxlen,
             rxtSum := (r.decodeStep P c).1.rxtSum, rxcount := (r.decodeStep P c).1.rxcount } := by
  rcases r.decodeStep_cases P c with ⟨-, e⟩ | ⟨m, l, -, e⟩ <;> rw [e] <;> rfl

theorem Rx.analyzeStep_rest (P : Params) (c : Cfg) (r : Rx) : (r.analyzeStep P c).1 =
    { r with rxstate := (r.analyzeStep P c).1.rxstate, run := (r.analyzeStep P c).1.run, rxt := satInc r.rxt, flta := r.flta - 1,
             acc := (r.analyzed P c).acc, facc := (r.analyzed P c).facc, rxraw := (r.analyzed P c).rxraw,
             rxdata := (r.analyzeStep P c).1.rxdata, rxlen := (r.analyzeStep P c).1.rxlen,
             rxtSum := (r.analyzeStep P c).1.rxtSum, rxcount := (r.analyzeStep P c).1.rxcount } := by
  rcases r.analyzeStep_cases P c with ⟨-, e⟩ | ⟨-, e⟩ <;> rw [e]
  · rw [Rx.decodeStep_rest, Rx.analyzed_rest]
  · rw [Rx.analyzed_rest]

/-- Two receivers with the same count of bytes, frame, spectrum and history. -/
structure Rx.HeardAlike (r t : Rx) : Prop where
  tbc : t.tbc = r.tbc
  samp : t.samp = r.samp
  spec : t.spec = r.spec
  hist : t.hist = r.hist
  hid : t.hid = r.hid
  hcount : t.hcount = r.hcount

/-- A tick hears what the capture of a live frame takes in, and without one nothing, in every state (R201, R202). -/
theorem Rx.tick_heard (P : Params) (c : Cfg) (r : Rx) (a : Answer) :
    (if 0 < a.count.val then r.capture a else r).HeardAlike (r.tick P c a).1 := by
  rcases r.tick_cases P c a with ⟨-, hk, e⟩ | ⟨-, hk, e⟩ | ⟨-, hk, e⟩ | ⟨-, hk, e⟩ | ⟨-, hk, e⟩ | ⟨-, hk, e⟩ <;> rw [e]
  · rw [if_neg hk.not_gt]
    exact ⟨rfl, rfl, rfl, rfl, rfl, rfl⟩
  · rw [if_pos hk, Rx.listenStep_rest]
    exact ⟨rfl, rfl, rfl, rfl, rfl, rfl⟩
  · rw [if_pos hk, Rx.lockedStep_rest]
    exact ⟨rfl, rfl, rfl, rfl, rfl, rfl⟩
  · rw [if_pos hk, Rx.recordStep_rest]
    exact ⟨rfl, rfl, rfl, rfl, rfl, rfl⟩
  · rw [if_neg hk.not_gt, Rx.analyzeStep_rest]
    exact ⟨rfl, rfl, rfl, rfl, rfl, rfl⟩
  · rw [if_pos hk, Rx.analyzeStep_rest]
    exact ⟨rfl, rfl, rfl, rfl, rfl, rfl⟩

end

/-! ### RECEIVE in every state (R200 to R207) -/

/-- Settles O36: the response is the tick's report. -/
theorem receivePullsOnceAndReportsIt : Obligations.ReceivePullsOnceAndReportsIt := by
  refine fun s => ⟨rfl, fun P => ?_⟩
  have hreport := s.rx.tick_report P s.cfg s.port.answer
  refine ⟨rfl, rfl, receiveResult (s.rx.tick P s.cfg s.port.answer).2 s.port.answer.count.val, rfl, ?_⟩
  rw [getLsbD_receiveResult, toNat_receiveResult _ (Nat.lt_succ_iff.1 s.port.answer.count.isLt)]
  exact ⟨rfl, hreport.decoded, hreport.kept⟩

/-- Settles O19: no effect but a tick's writes the payload, and a tick reports it. -/
theorem payloadChangesOnlyByAReceiveThatSaysSo : Obligations.PayloadChangesOnlyByAReceiveThatSaysSo := by
  refine ⟨fun i s t hi h => ?_, fun P s r hr hbit => ?_⟩
  · cases exec_effect h with
    | answers | retunes | recodes | stages | starts | sends => exact ⟨rfl, rfl⟩
    | receives => exact absurd rfl hi
  · obtain rfl := (List.cons.inj hr).1
    rw [getLsbD_receiveResult] at hbit
    obtain ⟨-, -, hdata, hlen⟩ := (s.rx.tick_report P s.cfg s.port.answer).kept hbit
    exact ⟨hdata, hlen⟩

/-- Settles O37: outside ANALYZING the tick is idle, and the analysis writes none of the registers named. -/
theorem zeroLengthPullDoesOnlyTheAnalysis : Obligations.ZeroLengthPullDoesOnlyTheAnalysis := by
  intro s hk
  refine ⟨_, rfl, ?_⟩
  simp only [State.receiveFrame, State.respond_rx]
  by_cases hs : s.rx.rxstate = .analyzing
  · rw [Rx.tick_analyzing _ _ hs, if_neg hk.not_gt]
    refine ⟨fun hn => absurd hs hn, ?_⟩
    have hgoing := s.rx.analyzeStep_cases Config.params s.cfg
    have hanalyzed : (s.rx.analyzed Config.params s.cfg).rxstate = .analyzing := by rw [Rx.analyzed_rest]; exact hs
    have hflta : (s.rx.analyzeStep Config.params s.cfg).1.flta = s.rx.flta - 1 := by rw [Rx.analyzeStep_rest]
    refine ⟨?_, ?_, ?_, ?_, ?_, ?_, ?_, ?_, ?_, fun hinv _ => ⟨?_, fun hne => ?_⟩⟩
    iterate 9 · rw [Rx.analyzeStep_rest]
    · have hcur := hinv.rx.cursors
      simp only [Rx.CursorsFit, hs] at hcur
      rw [hflta, toNat_sub_one (by omega) hcur.2.1]
    · rw [hflta] at hne
      rcases hgoing with ⟨hz, -⟩ | ⟨-, e⟩
      · exact absurd hz hne
      · rw [e]
        exact hanalyzed
  · rw [Rx.tick_idle _ _ hs hk]
    exact ⟨fun _ => rfl, rfl, rfl, rfl, rfl, rfl, rfl, rfl, rfl, rfl, fun _ h => absurd h hs⟩

/-- Settles O38: a tick hears what the capture takes in. -/
theorem liveFrameEntersCountSpectrumAndHistory : Obligations.LiveFrameEntersCountSpectrumAndHistory := by
  intro s hk
  have hheard := s.rx.tick_heard Config.params s.cfg s.port.answer
  rw [if_pos hk] at hheard
  obtain ⟨htbc, hsamp, hspec, hhist, hhid, hhcount⟩ := hheard
  refine ⟨_, rfl, ?_⟩
  simp only [State.receiveFrame, State.respond_rx, htbc, hsamp, hspec, hhist, hhid, hhcount]
  refine ⟨?_, ?_, ?_, ?_, ?_, ?_, ?_⟩
  · simp only [Rx.capture_tbc, Config.sampleBytesIn, BitVec.toNat_add, BitVec.toNat_ofNat, Nat.add_mod_mod]
  · intro n
    rw [Rx.capture_samp, get_zeroPad]
  · rw [Rx.capture_spec, Rx.capture_samp]
  · intro b
    rw [Rx.capture_spec, Rx.capture_samp, get_spectrum]
    rfl
  · intro h
    rw [Rx.capture_hist, ← Rx.historyPush_hist, get_historyPush_hist, Rx.capture_spec]
  · rw [Rx.capture_hid, BitVec.toNat_add]
    rfl
  · rw [Rx.capture_hcount, toNat_hcount]

/-! ### LISTENING, MARKER_LOCKED and RECORDING (R211 to R217) -/

section
variable {P : Params} {s : State}

theorem State.receiveFrame_rx (P : Params) (s : State) : (s.receiveFrame P).rx = (s.rx.tick P s.cfg s.port.answer).1 := rfl

theorem State.receiveFrame_spec (hk : 0 < s.port.answer.count.val) :
    (s.receiveFrame P).rx.spec = (s.rx.capture s.port.answer).spec := by
  have hheard := s.rx.tick_heard P s.cfg s.port.answer
  rw [if_pos hk] at hheard
  exact hheard.spec

theorem Rx.listenStep_says {r : Rx} (hrun : r.run.toNat < 8) (b : Bool) :
    (r.listenStep b).run.toNat = (if b then r.run.toNat + 1 else 0) ∧
      (r.listenStep b).rxstate = (if b = true ∧ 8 ≤ r.run.toNat + 1 then .markerLocked else r.rxstate) ∧
      (r.listenStep b).rxt = if b = true ∧ 8 ≤ r.run.toNat + 1 then 0 else r.rxt := by
  have hinc : (if b then satInc r.run else 0).toNat = if b then r.run.toNat + 1 else 0 := by
    cases b
    · rfl
    · simp only [if_true, toNat_satInc]
      omega
  have hlock : 8 ≤ (if b then r.run.toNat + 1 else 0) ↔ b = true ∧ 8 ≤ r.run.toNat + 1 := by
    cases b <;> simp
  rcases r.listenStep_cases b with ⟨h, e⟩ | ⟨h, e⟩ <;> rw [e] <;> rw [hinc] at h
  · rw [if_pos (hlock.1 h), if_pos (hlock.1 h)]
    exact ⟨hinc, rfl, rfl⟩
  · rw [if_neg (mt hlock.2 h.not_ge), if_neg (mt hlock.2 h.not_ge)]
    exact ⟨hinc, rfl, rfl⟩

theorem Rx.lockedStep_differ_rest (c : Cfg) (r : Rx) (fl : Mag) : r.lockedStep c false fl =
    { r with rxstate := .recording, rxt := (r.lockedStep c false fl).rxt, fltr := (r.lockedStep c false fl).fltr,
             recMem := (r.lockedStep c false fl).recMem, recf := (r.lockedStep c false fl).recf } := by
  rw [Rx.lockedStep_differ]
  rfl

/-- The first mismatch is recorded as row 0 (R213, R214). -/
theorem Rx.lockedStep_differ_says {c : Cfg} {r : Rx} (hr : r.Held) (fl : Mag) : Rx.RecordSays c r 0 fl
    { r with recMem := (r.lockedStep c false fl).recMem, recf := (r.lockedStep c false fl).recf } := by
  have S := Rx.recordRow_says c (r := { r with rxt := satInc r.rxt }) hr.recMem hr.recf (i := 0) (by norm_num) fl
  rw [Rx.lockedStep_differ]
  exact ⟨S.row, S.floor, S.others, S.wfRec, S.wfRecf, rfl⟩

end

/-- Settles O41: RUN is below 8 in LISTENING, so it does not saturate. -/
theorem listeningCountsMatchesAndLocks : Obligations.ListeningCountsMatchesAndLocks := by
  intro P s _ hinv hs hk m t
  have hcur := hinv.rx.cursors
  simp only [Rx.CursorsFit, hs, ← s.rx.capture_run s.port.answer] at hcur
  have ht : t.rx = (s.rx.capture s.port.answer).listenStep m := by
    rw [State.receiveFrame_rx, Rx.tick_listening P s.cfg hs hk]
  have hsays := Rx.listenStep_says hcur.2.2 m
  rw [← ht, Rx.capture_run, Rx.capture_rxstate, Rx.capture_rxt, hs] at hsays
  obtain ⟨hrun, hstate, hrxt⟩ := hsays
  refine ⟨hrun, hstate, hrxt, ?_⟩
  rw [ht]
  exact Rx.listenStep_rest ..

/-- Settles O42: a match only counts, and a mismatch records row 0. -/
theorem lockedTickRecordsTheFirstMismatch : Obligations.LockedTickRecordsTheFirstMismatch := by
  intro P s _ hinv hs hk m t
  have hheld := hinv.rx.held.capture s.port.answer
  have hspec : t.rx.spec = (s.rx.capture s.port.answer).spec := State.receiveFrame_spec hk
  have ht : t.rx = (s.rx.capture s.port.answer).lockedStep s.cfg m s.rx.floor := by
    rw [State.receiveFrame_rx, Rx.tick_locked P s.cfg hs hk]
  refine ⟨?_, fun hm => ?_, fun hm => ?_⟩
  · rw [ht, Rx.lockedStep_rest, Rx.capture_rxt, toNat_satInc]
  · rw [ht, hm, Rx.lockedStep_match, Rx.capture_run, toNat_satInc]
    exact ⟨rfl, rfl⟩
  · have S := Rx.lockedStep_differ_says (c := s.cfg) hheld s.rx.floor
    have hrest := Rx.lockedStep_differ_rest s.cfg (s.rx.capture s.port.answer) s.rx.floor
    rw [hm] at ht
    rw [← ht] at S hrest
    have hfltr : t.rx.fltr = BitVec.ofNat 16 (s.cfg.ftr - 1) := by rw [ht, Rx.lockedStep_differ]
    obtain ⟨hrow, hfloor, hothers, -, -, -⟩ := S
    simp only [Rx.capture_recMem, Rx.capture_recf, ← hspec] at hrow hothers
    refine ⟨by rw [hrest], ?_, hrow, hfloor, hothers, hrest⟩
    rw [hfltr]
    exact Rx.toNat_ftr hinv.cfg (Nat.sub_le _ _)

/-- Settles O43: RecordStep on the captured frame. -/
theorem recordingTickStoresItsRowAndCountsDown : Obligations.RecordingTickStoresItsRowAndCountsDown := by
  intro P s _ hinv hs hk i t
  have hheld := hinv.rx.held.capture s.port.answer
  have hspec : t.rx.spec = (s.rx.capture s.port.answer).spec := State.receiveFrame_spec hk
  have hcur := hinv.rx.cursors
  simp only [Rx.CursorsFit, hs, ← s.rx.capture_fltr s.port.answer] at hcur
  have ht : t.rx = (s.rx.capture s.port.answer).recordStep s.cfg s.rx.floor := by
    rw [State.receiveFrame_rx, Rx.tick_recording P s.cfg hs hk]
  have S := Rx.recordStep_says hinv.cfg hheld.recMem hheld.recf hcur.1 s.rx.floor
  rw [← ht] at S
  obtain ⟨hrxt, hfltr, ⟨hrow, hfloor, hothers, -, -, -⟩, hgoing, hlast⟩ := S
  simp only [Rx.capture_recMem, Rx.capture_recf, Rx.capture_fltr, ← hspec] at hrow hfloor hothers hfltr
  rw [Rx.capture_fltr] at hgoing hlast
  refine ⟨?_, hfltr, hrow, hfloor, hothers, hgoing, fun h => ?_⟩
  · rw [hrxt, Rx.capture_rxt, toNat_satInc]
  · have e := hlast h
    generalize s.rx.capture s.port.answer = q at e
    rw [e]
    exact ⟨Rx.toNat_ftr hinv.cfg (le_refl _), get_replicate_zero, rfl, fun _ => rfl, rfl⟩

/-! ### ANALYZING (R219 to R232) -/

section
variable {P : Params} {c : Cfg} {r : Rx}

/-- Every bit of a group's bytes is the bit of one of its slots (R219). -/
theorem exists_slot_of_byte (hc : c.Legal) {g b j : Nat} (h1 : g * c.bpt.toNat ≤ b) (h2 : b < (g + 1) * c.bpt.toNat)
    (hj : j < 8) : ∃ k : Fin 256, k.val < c.ndb ∧ g * c.bpt.toNat + k.val / 8 = b ∧ k.val % 8 = j := by
  rw [Nat.add_mul, Nat.one_mul] at h2
  have hbpt := hc.bpt_le
  refine ⟨⟨8 * (b - g * c.bpt.toNat) + j, by omega⟩, ?_, ?_, ?_⟩
  · simp only [Cfg.ndb]
    omega
  · simp only
    omega
  · simp only
    omega

/-- Before the last record an analysis tick decodes nothing (R219). -/
theorem Rx.analyzeStep_going (h : 1 < r.flta.toNat) : r.analyzeStep P c = (r.analyzed P c, false) := by
  rcases r.analyzeStep_cases P c with ⟨hz, -⟩ | ⟨-, e⟩
  · rw [eq_zero_iff_toNat, toNat_sub_one (by omega) h.le] at hz
    omega
  · exact e

/-- A bit that no exceeding slot sets is as before (R224). -/
theorem Rx.AnalyzeSays.bit_kept (hc : c.Legal) {a : Nat} {t : Rx} (h : Rx.AnalyzeSays P c r a t)
    (hlast : 2 ≤ a ∧ (a - 2) % c.fpt.toNat = c.fpt.toNat - 1) {b j : Nat}
    (hno : ∀ k : Fin 256, k.val < c.ndb → (a - 2) / c.fpt.toNat * c.bpt.toNat + k.val / 8 = b → k.val % 8 = j →
      ¬ 3 * (P.val r.facc + P.val (Memory.read Space.recf r.recf a)) <
        2 * (P.val (r.acc.get k) + P.val ((Memory.read Space.recMem r.recMem a).get k))) :
    (Memory.read Space.rxraw t.rxraw b).getLsbD j = (Memory.read Space.rxraw r.rxraw b).getLsbD j := by
  obtain ⟨-, -, hbits, hothers⟩ := h.last hlast
  by_cases hb : b < (a - 2) / c.fpt.toNat * c.bpt.toNat ∨ ((a - 2) / c.fpt.toNat + 1) * c.bpt.toNat ≤ b
  · rw [hothers b hb]
  rcases Nat.lt_or_ge j 8 with hj | hj
  · rw [not_or, not_lt, not_le] at hb
    obtain ⟨k, hk, rfl, rfl⟩ := exists_slot_of_byte hc hb.1 hb.2 hj
    rw [Bool.eq_iff_iff, hbits k hk, or_iff_right (hno k hk rfl rfl)]
  · rw [BitVec.getLsbD_of_ge _ _ hj, BitVec.getLsbD_of_ge _ _ hj]

end

/-- Settles O44: the tick analyses record FTA - FLTA, and what follows the last record keeps the accumulator and RXRAW. -/
theorem analyzingTickAccumulatesAndDecides : Obligations.AnalyzingTickAccumulatesAndDecides := by
  intro P s _ hinv hs a g i inWindow acc facc decides t
  have hcur := hinv.rx.cursors
  simp only [Rx.CursorsFit, hs] at hcur
  obtain ⟨-, h1, h2⟩ := hcur
  have hnbl := Cfg.nbl_lt_fpt hinv.cfg
  obtain ⟨p, hflta, hrxt, hstate, -, hrec, hrecf, -, -, -, -, S, hgoing, hlast⟩ :=
    Rx.tick_analysis P s.cfg hs h1 s.port.answer
  have S := S hinv.cfg hinv.rx.rxraw h2
  have hkept : t.rx.rxt = p.rxt ∧ t.rx.flta = p.flta ∧ t.rx.recMem = p.recMem ∧ t.rx.recf = p.recf ∧ t.rx.acc = p.acc ∧
      t.rx.facc = p.facc ∧ t.rx.rxraw = p.rxraw := by
    rw [State.receiveFrame_rx]
    rcases (show 1 < s.rx.flta.toNat ∨ s.rx.flta.toNat = 1 by omega) with h | h
    · rw [hgoing h]
      exact ⟨rfl, rfl, rfl, rfl, rfl, rfl, rfl⟩
    · rw [hlast h, Rx.decodeStep_rest]
      exact ⟨rfl, rfl, rfl, rfl, rfl, rfl, rfl⟩
  obtain ⟨etrxt, etflta, etrec, etrecf, etacc, etfacc, etraw⟩ := hkept
  rw [← etacc, ← etfacc, ← etraw] at S
  refine ⟨by rw [etrxt, hrxt, toNat_satInc], by rw [etflta, hflta], etrec.trans hrec, etrecf.trans hrecf, S.going,
    fun hd => ?_, fun h => ?_⟩
  · obtain ⟨hacc0, hfacc0, hbits, -⟩ := S.last hd
    have hwin : inWindow := ⟨hd.1, by have := hd.2; omega⟩
    have hacc : ∀ k : Fin 256, k.val < s.cfg.ndb →
        acc k = P.val (s.rx.acc.get k) + P.val ((Memory.read Space.recMem s.rx.recMem a).get k) := fun k hk => by
      simp only [acc, if_pos (And.intro hwin hk)]
    have hfacc : facc = P.val s.rx.facc + P.val (Memory.read Space.recf s.rx.recf a) := by simp only [facc, if_pos hwin]
    refine ⟨fun k => (congrArg (Vector.get · k) hacc0).trans (get_replicate_zero k), hfacc0,
      fun b j hno => ?_, fun k hk hex => ?_⟩
    · refine S.bit_kept hinv.cfg hd fun k hk hb hj => ?_
      rw [← hacc k hk, ← hfacc]
      exact hno k hk hb hj
    · rw [hacc k hk, hfacc] at hex
      exact (hbits k hk).2 (.inl hex)
  · have htick := Rx.tick_analyzing P s.cfg hs s.port.answer
    have hq : (if 0 < s.port.answer.count.val then s.rx.capture s.port.answer else s.rx).flta = s.rx.flta := by split <;> simp
    rw [Rx.analyzeStep_going (by rwa [hq])] at htick
    have ht : t.rx = _ := (State.receiveFrame_rx P s).trans (congrArg Prod.fst htick)
    refine ⟨⟨_, rfl, ?_⟩, ?_, ?_⟩
    · rw [getLsbD_receiveResult, htick]
    · rw [State.receiveFrame_rx, hgoing h]
      exact hstate
    · rw [ht, Rx.analyzed_rest]

/-! ### The decode (R225 to R229) -/

section
variable {P : Params} {c : Cfg} {raw : ByteMem} {m : List Byte} {l : Nat}

/-- Decode() in VariableLength mode: the length codeword, the bound on the length, the payload codeword (R226). -/
theorem decodePayload_variable_iff (hc : c.mode = .variable) : decodePayload P c raw = some (m, l) ↔
    ∃ h, P.dec 2 (Memory.readN Space.rxraw raw 0 3) = some h ∧ l = (h.getD 0 0).toNat ∧ l ≤ 140 ∧
      P.dec c.ecc.toNat (Memory.readN Space.rxraw raw 3 (l + c.ecc.toNat)) = some m := by
  simp only [decodePayload, hc, Config.lenEcc, Config.maxLength]
  cases P.dec 2 (Memory.readN Space.rxraw raw 0 3) with
  | none => simp
  | some h =>
    simp only [Option.some.injEq, exists_eq_left']
    by_cases hl : 140 < (h.getD 0 0).toNat
    · simp only [if_pos hl, reduceCtorEq, false_iff]
      rintro ⟨rfl, hle, -⟩
      omega
    · simp only [if_neg hl, Option.map_eq_some_iff, Prod.mk.injEq]
      constructor
      · rintro ⟨_, hdec, rfl, rfl⟩
        exact ⟨rfl, not_lt.1 hl, hdec⟩
      · rintro ⟨rfl, -, hdec⟩
        exact ⟨m, hdec, rfl, rfl⟩

/-- Decode() in FixedLength mode: the payload codeword (R226). -/
theorem decodePayload_fixed_iff (hc : c.mode = .fixed) : decodePayload P c raw = some (m, l) ↔
    l = 32 ∧ P.dec c.ecc.toNat (Memory.readN Space.rxraw raw 0 (32 + c.ecc.toNat)) = some m := by
  rw [decodePayload_fixed hc, Option.map_eq_some_iff]
  simp only [Prod.mk.injEq]
  constructor
  · rintro ⟨_, hdec, rfl, rfl⟩
    exact ⟨rfl, hdec⟩
  · rintro ⟨rfl, hdec⟩
    exact ⟨m, hdec, rfl, rfl⟩

end

/-- Settles O45: what the statement calls a decode is `decodePayload`. -/
theorem lastAnalysisTickDecodes : Obligations.LastAnalysisTickDecodes := by
  intro P s hP hinv hs hlast t
  obtain ⟨p, hflta, -, -, -, -, -, hdata, hlen, hcount, hsum, -, -, hdecode⟩ :=
    Rx.tick_analysis P s.cfg hs hlast.ge s.port.answer
  have ht : t.rx = (p.decodeStep P s.cfg).1 := congrArg Prod.fst (hdecode hlast)
  have hbit : (receiveResult (s.rx.tick P s.cfg s.port.answer).2 s.port.answer.count.val).getLsbD 12 =
      (p.decodeStep P s.cfg).2 := by rw [getLsbD_receiveResult, hdecode hlast]
  have hraw : t.rx.rxraw = p.rxraw := by rw [ht, Rx.decodeStep_rest]
  refine ⟨_, rfl, ?_, ?_, ?_, ?_⟩
  · rw [ht, Rx.decodeStep_rest]
  · rw [ht, Rx.decodeStep_rest]
  · rw [ht, Rx.decodeStep_rest, eq_zero_iff_toNat, hflta, hlast]
  intro raw decodes
  have hdec : ∀ m l, decodes m l ↔ decodePayload P s.cfg p.rxraw = some (m, l) := fun m l => by
    simp only [decodes, raw, hraw]
    cases hmode : s.cfg.mode
    · exact (decodePayload_variable_iff hmode).symm
    · exact (decodePayload_fixed_iff hmode).symm
  have hq : t.rx = _ := congrArg Prod.fst (Rx.tick_analyzing P s.cfg hs s.port.answer)
  refine ⟨fun m l h => ?_, fun hno => ?_, by rw [hq, Rx.analyzeStep_rest]⟩
  · rw [hdec] at h
    obtain ⟨hm, hl⟩ := decodePayload_length hP hinv.cfg h
    have e : p.decodeStep P s.cfg = ((p.commit m l).toListening, true) := by simp only [Rx.decodeStep, h]
    rw [hbit, ht, e, ← hcount, ← hsum]
    refine ⟨rfl, toNat_commit_rxlen p m hl, hm, read_commit_rxdata p hm hl, rfl, ?_⟩
    simp only [Rx.toListening_rxtSum, Rx.commit_rxtSum, Rx.toListening_rxt, Rx.commit_rxt, BitVec.toNat_add,
      BitVec.toNat_setWidth]
    omega
  · have hnone : decodePayload P s.cfg p.rxraw = none := by
      cases h : decodePayload P s.cfg p.rxraw with
      | none => rfl
      | some d => exact absurd ⟨d.1, d.2, (hdec d.1 d.2).2 h⟩ hno
    have e : p.decodeStep P s.cfg = (p.toListening, false) := by simp only [Rx.decodeStep, hnone]
    rw [hbit, ht, e]
    exact ⟨rfl, hdata, hlen, hcount, hsum⟩

end Sys2Proof.Machine
end

section
/-! PROOFS. Stale recording rows are not observed (spec/42_rx.md R214, R218): every operation of a tick does the same on another
recording that agrees with this one on the rows the current candidate has written. -/

namespace Sys2Proof.Machine

/-- The receiver with another recording. -/
def Rx.withRec (r : Rx) (m : RowMem RecRow) (f : RowMem Mag) : Rx := { r with recMem := m, recf := f }

/-- The state with another recording. -/
def State.withRec (s : State) (m : RowMem RecRow) (f : RowMem Mag) : State := { s with rx := s.rx.withRec m f }

section
variable {P : Params} {c : Cfg} {r : Rx} {m : RowMem RecRow} {f : RowMem Mag}

theorem Rx.ite_withRec (p : Prop) [Decidable p] (q : Rx) :
    (if p then r.withRec m f else q.withRec m f) = (if p then r else q).withRec m f := by
  split <;> rfl

/-! ### Operations that do not read the recording -/

theorem Rx.capture_withRec (a : Answer) : (r.withRec m f).capture a = (r.capture a).withRec m f := rfl

theorem Rx.listenStep_withRec (b : Bool) : (r.withRec m f).listenStep b = (r.listenStep b).withRec m f := by
  by_cases hlock : Config.lockFrames ≤ (if b then satInc r.run else 0).toNat <;>
    simp only [listenStep, withRec, hlock, if_true, if_false]

theorem Rx.decodeStep_withRec :
    (r.withRec m f).decodeStep P c = ((r.decodeStep P c).1.withRec m f, (r.decodeStep P c).2) := by
  unfold decodeStep
  rw [show (r.withRec m f).rxraw = r.rxraw from rfl]
  cases decodePayload P c r.rxraw <;> rfl

theorem Rx.decideGroup_withRec (g : Nat) : (r.withRec m f).decideGroup P c g = (r.decideGroup P c g).withRec m f := by
  rw [Rx.decideGroup_rest]
  rfl

/-! ### Agreement on the rows written -/

/-- No row is written yet: any two recordings agree. -/
theorem Rx.SameButStale.of_rowsWritten_zero (h : r.rowsWritten c = 0) (hm : Memory.wf Space.recMem m)
    (hf : Memory.wf Space.recf f) : r.SameButStale c (r.withRec m f) where
  wfRec := hm
  wfRecf := hf
  rest := rfl
  rows i hi := by omega
  floors i hi := by omega

/-- Agreement is about the recording and the number of rows written only. -/
theorem Rx.SameButStale.congr {q : Rx} (h : r.SameButStale c (r.withRec m f)) (hm : q.recMem = r.recMem) (hf : q.recf = r.recf)
    (hn : q.rowsWritten c ≤ r.rowsWritten c) : q.SameButStale c (q.withRec m f) where
  wfRec := h.wfRec
  wfRecf := h.wfRecf
  rest := rfl
  rows i hi := by rw [hm]; exact h.rows i (hi.trans_le hn)
  floors i hi := by rw [hf]; exact h.floors i (hi.trans_le hn)

/-- Recording the row after those written, on both sides, leaves one more row on which they agree. -/
theorem Rx.SameButStale.recordRow {i : Nat} (hw : r.Held) (hi : i < 4096) (fl : Mag) (hm : Memory.wf Space.recMem m)
    (hf : Memory.wf Space.recf f)
    (hrows : ∀ j < i, ∀ k : Fin 256, k.val < c.ndb →
      (Memory.read Space.recMem m j).get k = (Memory.read Space.recMem r.recMem j).get k)
    (hfloors : ∀ j < i, Memory.read Space.recf f j = Memory.read Space.recf r.recf j) {q : Rx}
    (hqm : q.recMem = (r.recordRow c i fl).recMem) (hqf : q.recf = (r.recordRow c i fl).recf) (hn : q.rowsWritten c ≤ i + 1) :
    q.SameButStale c (q.withRec ((r.withRec m f).recordRow c i fl).recMem ((r.withRec m f).recordRow c i fl).recf) := by
  have S := Rx.recordRow_says c hw.recMem hw.recf hi fl
  have S' := Rx.recordRow_says c (r := r.withRec m f) hm hf hi fl
  refine ⟨S'.wfRec, S'.wfRecf, rfl, fun j hj k hk => ?_, fun j hj => ?_⟩
  · rw [hqm]
    rcases (show j < i ∨ j = i by omega) with hlt | rfl
    · rw [(S.others j hlt.ne).1]
      exact (congrArg (Vector.get · k) (S'.others j hlt.ne).1).trans (hrows j hlt k hk)
    · rw [S.row k, if_pos hk]
      exact (S'.row k).trans (if_pos hk)
  · rw [hqf]
    rcases (show j < i ∨ j = i by omega) with hlt | rfl
    · rw [(S.others j hlt.ne).2]
      exact (S'.others j hlt.ne).2.trans (hfloors j hlt)
    · rw [S.floor]
      exact S'.floor

/-! ### The symbol decision -/

/-- A record on which the recordings agree enters the accumulator alike (R223). -/
theorem Rx.accumulate_withRec {a : Nat}
    (hrow : ∀ k : Fin 256, k.val < c.ndb → (Memory.read Space.recMem m a).get k = (Memory.read Space.recMem r.recMem a).get k)
    (hfloor : Memory.read Space.recf f a = Memory.read Space.recf r.recf a) :
    (r.withRec m f).accumulate c a = (r.accumulate c a).withRec m f := by
  have hacc : ((r.withRec m f).accumulate c a).acc = (r.accumulate c a).acc := by
    simp only [accumulate, withRec]
    congr 1
    funext k
    split
    · next hk => rw [hrow k hk]
    · rfl
  have hfacc : ((r.withRec m f).accumulate c a).facc = (r.accumulate c a).facc := by
    rw [Rx.accumulate_facc, Rx.accumulate_facc]
    exact congrArg (Mag.add r.facc) hfloor
  rw [Rx.accumulate_rest, hacc, hfacc]
  rfl

/-- A record on which the recordings agree is analysed alike (R219 to R224). -/
theorem Rx.analyzeRow_withRec {a : Nat}
    (hrow : ∀ k : Fin 256, k.val < c.ndb → (Memory.read Space.recMem m a).get k = (Memory.read Space.recMem r.recMem a).get k)
    (hfloor : Memory.read Space.recf f a = Memory.read Space.recf r.recf a) :
    (r.withRec m f).analyzeRow P c a = (r.analyzeRow P c a).withRec m f := by
  simp only [analyzeRow, Rx.accumulate_withRec hrow hfloor, Rx.decideGroup_withRec, Rx.ite_withRec]

/-- An analysis tick reads the one record it analyses. -/
theorem Rx.analyzeStep_withRec
    (hrow : ∀ k : Fin 256, k.val < c.ndb → (Memory.read Space.recMem m (c.fta - r.flta.toNat)).get k =
      (Memory.read Space.recMem r.recMem (c.fta - r.flta.toNat)).get k)
    (hfloor : Memory.read Space.recf f (c.fta - r.flta.toNat) = Memory.read Space.recf r.recf (c.fta - r.flta.toNat)) :
    (r.withRec m f).analyzeStep P c = ((r.analyzeStep P c).1.withRec m f, (r.analyzeStep P c).2) := by
  have hanalyzed : (r.withRec m f).analyzed P c = (r.analyzed P c).withRec m f := by
    have hrow' := Rx.analyzeRow_withRec (P := P) (r := { r with rxt := satInc r.rxt }) hrow hfloor
    unfold analyzed
    rw [show ({ r.withRec m f with rxt := satInc (r.withRec m f).rxt } : Rx) =
      ({ r with rxt := satInc r.rxt } : Rx).withRec m f from rfl]
    rw [show (r.withRec m f).flta = r.flta from rfl, hrow']
    rfl
  rcases r.analyzeStep_cases P c with ⟨hz, e⟩ | ⟨hz, e⟩ <;>
    rcases (r.withRec m f).analyzeStep_cases P c with ⟨hz', e'⟩ | ⟨hz', e'⟩
  · rw [e, e', hanalyzed, Rx.decodeStep_withRec]
  · exact absurd hz hz'
  · exact absurd hz' hz
  · rw [e, e', hanalyzed]

/-- ANALYZING ends in ANALYZING or LISTENING, so the rows written are no more than FTR. -/
theorem Rx.rowsWritten_analyzeStep (hs : r.rxstate = .analyzing) : (r.analyzeStep P c).1.rowsWritten c ≤ c.ftr := by
  rcases r.analyzeStep_cases P c with ⟨-, e⟩ | ⟨-, e⟩ <;> rw [e]
  · rw [Rx.decodeStep_rest]
    exact Nat.zero_le _
  · rw [Rx.analyzed_rest]
    simp only [rowsWritten, hs, le_refl]

theorem Rx.analyzeStep_keeps_recording :
    (r.analyzeStep P c).1.recMem = r.recMem ∧ (r.analyzeStep P c).1.recf = r.recf := by
  rw [Rx.analyzeStep_rest]
  exact ⟨rfl, rfl⟩

/-! ### The recording steps -/

/-- A mismatch records row 0 on both sides (R213). -/
theorem Rx.lockedStep_withRec (hc : c.Legal) (hr : r.Held) (hs : r.rxstate = .markerLocked) (hm : Memory.wf Space.recMem m)
    (hf : Memory.wf Space.recf f) (b : Bool) (fl : Mag) : ∃ m' f',
    (r.withRec m f).lockedStep c b fl = (r.lockedStep c b fl).withRec m' f' ∧
      (r.lockedStep c b fl).SameButStale c ((r.lockedStep c b fl).withRec m' f') := by
  cases b with
  | true =>
    refine ⟨m, f, by rw [Rx.lockedStep_match, Rx.lockedStep_match]; rfl, .of_rowsWritten_zero ?_ hm hf⟩
    rw [Rx.lockedStep_match]
    simp only [rowsWritten, hs]
  | false =>
    have hr' : Rx.Held { r with rxt := satInc r.rxt } := hr.cursors r.rxstate r.run r.fltr r.flta _
    have hrows : (BitVec.ofNat 16 (c.ftr - 1)).toNat = c.ftr - 1 := Rx.toNat_ftr hc (Nat.sub_le _ _)
    rw [Rx.lockedStep_differ, Rx.lockedStep_differ]
    refine ⟨_, _, rfl, .recordRow hr' (i := 0) (by norm_num) fl hm hf (fun j hj => absurd hj (Nat.not_lt_zero j))
      (fun j hj => absurd hj (Nat.not_lt_zero j)) rfl rfl ?_⟩
    simp only [rowsWritten, hrows]
    omega

/-- A frame of the candidate is recorded on both sides in the row after those written (R216). -/
theorem Rx.recordStep_withRec (hc : c.Legal) (hr : r.Held) (hs : r.rxstate = .recording) (h1 : 1 ≤ r.fltr.toNat)
    (hsame : r.SameButStale c (r.withRec m f)) (fl : Mag) : ∃ m' f',
    (r.withRec m f).recordStep c fl = (r.recordStep c fl).withRec m' f' ∧
      (r.recordStep c fl).SameButStale c ((r.recordStep c fl).withRec m' f') := by
  have hr' : Rx.Held { r with rxt := satInc r.rxt } := hr.cursors r.rxstate r.run r.fltr r.flta _
  have hrows : r.rowsWritten c = c.ftr - r.fltr.toNat := by simp only [rowsWritten, hs]
  have hftr := hc.ftr_le
  have hsub := toNat_sub_one (w := 16) (by omega) h1
  have hagree : ∀ q : Rx, q.recMem = (({ r with rxt := satInc r.rxt } : Rx).recordRow c (c.ftr - r.fltr.toNat) fl).recMem →
      q.recf = (({ r with rxt := satInc r.rxt } : Rx).recordRow c (c.ftr - r.fltr.toNat) fl).recf →
      q.rowsWritten c ≤ c.ftr - r.fltr.toNat + 1 → _ := fun q hqm hqf hn =>
    Rx.SameButStale.recordRow (q := q) hr' (by omega) fl hsame.wfRec hsame.wfRecf (fun j hj => hsame.rows j (hrows ▸ hj))
      (fun j hj => hsame.floors j (hrows ▸ hj)) hqm hqf hn
  rcases r.recordStep_cases c fl with ⟨hz, e⟩ | ⟨hz, e⟩ <;>
    rcases (r.withRec m f).recordStep_cases c fl with ⟨hz', e'⟩ | ⟨hz', e'⟩
  · rw [e, e']
    refine ⟨_, _, rfl, hagree _ rfl rfl ?_⟩
    rw [eq_zero_iff_toNat, hsub] at hz
    simp only [rowsWritten, Rx.enterAnalyzing_rxstate]
    omega
  · exact absurd hz hz'
  · exact absurd hz' hz
  · rw [e, e']
    refine ⟨_, _, rfl, hagree _ rfl rfl ?_⟩
    simp only [rowsWritten, Rx.recordRow_rxstate, hs, hsub]
    omega

/-- A record of the candidate is analysed alike, because all FTR rows are written (R219). -/
theorem Rx.analyzeStep_agrees (hc : c.Legal) (hs : r.rxstate = .analyzing) (h1 : 1 ≤ r.flta.toNat)
    (hsame : r.SameButStale c (r.withRec m f)) :
    (r.withRec m f).analyzeStep P c = ((r.analyzeStep P c).1.withRec m f, (r.analyzeStep P c).2) ∧
      (r.analyzeStep P c).1.SameButStale c ((r.analyzeStep P c).1.withRec m f) := by
  have hrows : r.rowsWritten c = c.ftr := by simp only [rowsWritten, hs]
  have hftr := hc.ftr_pos
  have ha : c.fta - r.flta.toNat < r.rowsWritten c := by rw [hrows, Cfg.fta_eq]; omega
  obtain ⟨hm, hf⟩ := r.analyzeStep_keeps_recording (P := P) (c := c)
  exact ⟨Rx.analyzeStep_withRec (hsame.rows _ ha) (hsame.floors _ ha),
    hsame.congr hm hf ((Rx.rowsWritten_analyzeStep hs).trans_eq hrows.symm)⟩

/-! ### The tick -/

/-- A tick on another recording that agrees where it is written does the same, and the two agree afterwards. -/
theorem Rx.tick_withRec (hc : c.Legal) (h : r.Wf c) (hsame : r.SameButStale c (r.withRec m f)) (a : Answer) : ∃ m' f',
    (r.withRec m f).tick P c a = ((r.tick P c a).1.withRec m' f', (r.tick P c a).2) ∧
      (r.tick P c a).1.SameButStale c ((r.tick P c a).1.withRec m' f') := by
  have hcur := h.cursors
  have hcap := h.held.capture a
  have hstate := r.capture_rxstate a
  have hsameCap : (r.capture a).SameButStale c ((r.capture a).withRec m f) :=
    hsame.congr (r.capture_recMem a) (r.capture_recf a) (by simp only [rowsWritten, capture_rxstate, capture_fltr, le_refl])
  rcases r.tick_cases P c a with ⟨hs, hk, e⟩ | ⟨hs, hk, e⟩ | ⟨hs, hk, e⟩ | ⟨hs, hk, e⟩ | ⟨hs, hk, e⟩ | ⟨hs, hk, e⟩
  · rw [e, Rx.tick_idle P c (r := r.withRec m f) hs hk]
    exact ⟨m, f, rfl, hsame⟩
  · rw [e, Rx.tick_listening P c (r := r.withRec m f) hs hk, Rx.capture_withRec, Rx.listenStep_withRec]
    refine ⟨m, f, rfl, .of_rowsWritten_zero ?_ hsame.wfRec hsame.wfRecf⟩
    rcases (r.capture a).listenStep_cases (r.matchesMarker P c a) with ⟨-, e⟩ | ⟨-, e⟩ <;> rw [e] <;>
      simp only [rowsWritten, hstate, hs]
  · rw [e, Rx.tick_locked P c (r := r.withRec m f) hs hk, Rx.capture_withRec]
    obtain ⟨m', f', e', hagree⟩ :=
      Rx.lockedStep_withRec hc hcap (hstate.trans hs) hsame.wfRec hsame.wfRecf (r.matchesMarker P c a) r.floor
    exact ⟨m', f', Prod.ext e' rfl, hagree⟩
  · rw [e, Rx.tick_recording P c (r := r.withRec m f) hs hk, Rx.capture_withRec]
    simp only [CursorsFit, hs, ← r.capture_fltr a] at hcur
    obtain ⟨m', f', e', hagree⟩ := Rx.recordStep_withRec hc hcap (hstate.trans hs) hcur.1 hsameCap r.floor
    exact ⟨m', f', Prod.ext e' rfl, hagree⟩
  · simp only [CursorsFit, hs] at hcur
    obtain ⟨e', hagree⟩ := Rx.analyzeStep_agrees (P := P) hc hs hcur.2.1 hsame
    rw [e, Rx.tick_analyzing P c (r := r.withRec m f) hs, if_neg hk.not_gt]
    exact ⟨m, f, e', hagree⟩
  · simp only [CursorsFit, hs, ← r.capture_flta a] at hcur
    obtain ⟨e', hagree⟩ := Rx.analyzeStep_agrees (P := P) hc (hstate.trans hs) hcur.2.1 hsameCap
    rw [e, Rx.tick_analyzing P c (r := r.withRec m f) hs, if_pos hk, Rx.capture_withRec]
    exact ⟨m, f, e', hagree⟩

end

/-! ### Commands and steps -/

/-- A command run on another recording that agrees where it is written does the same, and the two agree afterwards. -/
theorem exec_withRec {i : Instr} {s t : State} (hinv : s.Inv) {m : RowMem RecRow} {f : RowMem Mag}
    (hsame : s.rx.SameButStale s.cfg (s.rx.withRec m f)) (h : exec i s = .next t) :
    ∃ m' f', exec i (s.withRec m f) = .next (t.withRec m' f') ∧ t.rx.SameButStale t.cfg (t.rx.withRec m' f') := by
  have haborted : ∀ c : Cfg, s.rx.abort.SameButStale c (s.rx.abort.withRec m f) := fun c =>
    .of_rowsWritten_zero rfl hsame.wfRec hsame.wfRecf
  cases i with
  | setparam fd fs fpt bpt vol =>
    by_cases hr : rejectedWhen (.setparam fd fs fpt bpt vol)
    · obtain rfl := Host.Outcome.next.inj ((exec_setparam_of_rejected s hr).symm.trans h)
      exact ⟨m, f, exec_setparam_of_rejected _ hr, hsame⟩
    · obtain rfl := Host.Outcome.next.inj ((exec_setparam_of_not_rejected s hr).symm.trans h)
      exact ⟨m, f, exec_setparam_of_not_rejected _ hr, haborted _⟩
  | setrate rin rout =>
    by_cases hr : rejectedWhen (.setrate rin rout)
    · obtain rfl := Host.Outcome.next.inj ((exec_setrate_of_rejected s hr).symm.trans h)
      exact ⟨m, f, exec_setrate_of_rejected _ hr, hsame⟩
    · obtain rfl := Host.Outcome.next.inj ((exec_setrate_of_not_rejected s hr).symm.trans h)
      exact ⟨m, f, exec_setrate_of_not_rejected _ hr, haborted _⟩
  | setmode | setecc =>
    obtain rfl := Host.Outcome.next.inj h
    exact ⟨m, f, rfl, haborted _⟩
  | wtxb idx data =>
    rcases Nat.lt_or_ge idx.toNat 140 with hidx | hidx
    · obtain rfl := Host.Outcome.next.inj ((exec_wtxb_of_accepted hidx data s).symm.trans h)
      exact ⟨m, f, exec_wtxb_of_accepted hidx data _, hsame⟩
    · obtain rfl := Host.Outcome.next.inj ((exec_wtxb_of_rejected hidx data s).symm.trans h)
      exact ⟨m, f, exec_wtxb_of_rejected hidx data _, hsame⟩
  | send =>
    cases hd : s.tx.hasdata with
    | true =>
      obtain rfl := Host.Outcome.next.inj ((exec_send_of_session hd).symm.trans h)
      exact ⟨m, f, exec_send_of_session (s := s.withRec m f) hd, hsame⟩
    | false =>
      obtain rfl := Host.Outcome.next.inj ((exec_send_of_no_session hd).symm.trans h)
      exact ⟨m, f, exec_send_of_no_session (s := s.withRec m f) hd, hsame⟩
  | receive =>
    obtain rfl := Host.Outcome.next.inj h
    obtain ⟨m', f', e, hagree⟩ := Rx.tick_withRec (P := Config.params) hinv.cfg hinv.rx hsame s.port.answer
    refine ⟨m', f', congrArg Host.Outcome.next ?_, hagree⟩
    unfold State.receiveFrame
    dsimp only
    rw [show (s.withRec m f).rx.tick Config.params (s.withRec m f).cfg (s.withRec m f).port.answer = _ from e]
    rfl
  | rdrx idx =>
    obtain rfl := Host.Outcome.next.inj ((exec_rdrx_eq idx s).symm.trans h)
    exact ⟨m, f, exec_rdrx_eq idx _, hsame⟩
  | init | getrxlen | gethasdata | getavgrxt | getftr | getfltr | getfta | getflta | gettbc | getrxstate | getratein
  | getrateout | getspf | getssbin | getssbout =>
    obtain rfl := Host.Outcome.next.inj h
    exact ⟨m, f, rfl, hsame⟩

/-- Settles O21: a step that runs no command leaves or clears the candidate, and `exec_withRec` is the step that runs one. -/
theorem staleRecordingCannotBeObserved : Obligations.StaleRecordingCannotBeObserved := by
  intro s t s' hinv hs' hsame h
  have hrx : s'.rx = s.rx.withRec s'.rx.recMem s'.rx.recf := hsame.rest
  rw [hrx] at hs' hsame
  generalize s'.rx.recMem = m at *
  generalize s'.rx.recf = f at *
  obtain rfl : s' = s.withRec m f := hs'
  suffices key : ∃ m' f', step (s.withRec m f) = .next (t.withRec m' f') ∧ t.rx.SameButStale t.cfg (t.rx.withRec m' f') by
    obtain ⟨m', f', hstep, hagree⟩ := key
    exact ⟨_, hstep, rfl, hagree⟩
  cases hev : s.port.events with
  | nil =>
    simp only [step, hev] at h
    obtain rfl := Host.Outcome.next.inj h
    exact ⟨m, f, by simp only [step, State.withRec, hev]; rfl, hsame⟩
  | cons e rest =>
    have hev' : (s.withRec m f).port.events = e :: rest := hev
    cases e with
    | resetInput =>
      simp only [step, hev] at h
      obtain rfl := Host.Outcome.next.inj h
      exact ⟨[], [], by simp only [step, hev']; rfl, .of_rowsWritten_zero rfl (Memory.wf_nil _) (Memory.wf_nil _)⟩
    | command w =>
      have htaken : s.takeEvent.Inv := hinv.of_block_eq rfl rfl rfl
      cases hdec : decode w with
      | ok i =>
        rw [step_command hev hdec] at h
        rw [step_command hev' hdec]
        exact exec_withRec htaken hsame h
      | error e =>
        obtain rfl := Host.Outcome.next.inj ((step_illegal hev hdec).symm.trans h)
        exact ⟨m, f, step_illegal hev' hdec, hsame⟩

end Sys2Proof.Machine
end

section
/-! PROOFS. The statements about reading the payload and the recording budget (spec/42_rx.md R215, R240; spec/43_query.md R265,
R267). -/

namespace Sys2Proof.Machine

/-- Settles O54: the index check is the rejection. -/
theorem rdrxReadsOnePayloadByteOrRejects : Obligations.RdrxReadsOnePayloadByteOrRejects := by
  intro idx s
  rw [exec_rdrx_eq]
  simp only [indexInRange_iff]
  split
  · next hidx =>
    rw [if_neg hidx.not_ge, BitVec.ofNat_toNat]
    rfl
  · next hidx =>
    rw [if_pos (not_lt.1 hidx)]
    rfl

/-- Settles O55: the invariant says that RXDATA is zero from RXLEN on. -/
theorem rdrxBeyondTheLengthReadsZero : Obligations.RdrxBeyondTheLengthReadsZero := by
  intro idx s hinv hlen hidx
  refine ⟨_, rdrxReadsOnePayloadByteOrRejects idx s, ?_⟩
  rw [if_neg hidx.not_ge, hinv.rx.tail _ hlen]
  rfl

/-- Settles O57: the budget of a legal configuration fits the result. -/
theorem budgetQueriesAnswerTheRecordingBudget : Obligations.BudgetQueriesAnswerTheRecordingBudget := by
  intro s hinv encmax
  have hencmax : s.cfg.encmax = encmax := by
    unfold Cfg.encmax encmax
    cases s.cfg.mode <;> rfl
  have hftr := hinv.cfg.ftr_le
  refine ⟨decode_encode .getftr, decode_encode .getfta, BitVec.ofNat 32 s.cfg.ftr, ?_, rfl, rfl⟩
  rw [← hencmax, BitVec.toNat_ofNat, Nat.mod_eq_of_lt (by omega)]
  rfl

end Sys2Proof.Machine
end

section
/-! PROOFS. The statements about runs of RECEIVE (spec/42_rx.md R235, R211, R233, R216): commands and ticks, when a run locks,
what the recording holds and what the analysis decides. -/

namespace Sys2Proof.Machine

/-! ### Commands and ticks (R200; 20_memory.md R76) -/

/-- Settles O46, by induction on the answers: each step pulls one and takes one tick. -/
theorem runOfReceivesIsRunOfTicks : Obligations.RunOfReceivesIsRunOfTicks := by
  intro s as more rest hsource hevents
  induction as generalizing s with
  | nil => exact ⟨s, rfl, rfl, rfl, rfl, hsource, hevents, rfl⟩
  | cons a as ih =>
    have hanswer : s.takeEvent.port.answer = a := congrArg (List.headD · _) hsource
    have hrx : (s.takeEvent.receiveFrame Config.params).rx = (s.rx.tick Config.params s.cfg a).1 := by
      rw [State.receiveFrame_rx, hanswer]
      rfl
    obtain ⟨t, hrun, ht, hcfg, htx, hsrc, hev, hsink⟩ := ih (s.takeEvent.receiveFrame Config.params)
      (congrArg List.tail hsource) (congrArg List.tail hevents)
    refine ⟨t, (run_command (i := .receive) hevents rfl as.length).trans hrun, ?_, hcfg, htx, hsrc, hev, hsink⟩
    rw [ht, hrx]
    rfl

/-! ### When a run locks (R211, R235) -/

section
variable {P : Params} {c : Cfg} {r : Rx} {a : Answer}

/-- A frame that stays below the threshold at the even marker bins does not match: bin 0 of the marker is not ON. -/
theorem Rx.not_matchesMarker_of_belowThreshold (h : r.belowThreshold P c a) : r.matchesMarker P c a = false := by
  rw [Bool.eq_false_iff, matchesMarker, Ne, markerMatch_iff]
  intro hmatch
  exact (h 0 (by norm_num) rfl).not_gt ((hmatch 0 (by norm_num)).2 rfl)

/-- A tick below the threshold keeps LISTENING with RUN = 0. -/
theorem Rx.tick_belowThreshold (hs : r.rxstate = .listening) (hrun : r.run = 0)
    (h : 0 < a.count.val → r.belowThreshold P c a) : (r.tick P c a).1.rxstate = .listening ∧ (r.tick P c a).1.run = 0 := by
  rcases Nat.eq_zero_or_pos a.count.val with hk | hk
  · rw [Rx.tick_idle P c (by simp [hs]) hk]
    exact ⟨hs, hrun⟩
  · have hrun' : (r.capture a).run.toNat < 8 := by rw [Rx.capture_run, hrun]; decide
    have hsays := Rx.listenStep_says hrun' false
    simp only [Bool.false_eq_true, false_and, if_false] at hsays
    rw [Rx.tick_listening P c hs hk, Rx.not_matchesMarker_of_belowThreshold (h hk), eq_zero_iff_toNat]
    exact ⟨hsays.2.1.trans ((r.capture_rxstate a).trans hs), hsays.1⟩

end

/-- Settles O47, by induction on the ticks. -/
theorem subthresholdFramesNeverLock : Obligations.SubthresholdFramesNeverLock := by
  intro P c r as hs hrun h
  induction as generalizing r with
  | nil => exact ⟨hs, hrun⟩
  | cons a as ih =>
    obtain ⟨htick, hlater⟩ := h
    obtain ⟨hs', hrun'⟩ := Rx.tick_belowThreshold hs hrun htick
    exact ih _ hs' hrun' hlater

/-- The run as ends in a stretch of ticks whose n live frames all match the start marker. -/
def Rx.EndsInMatches (P : Params) (c : Cfg) (r : Rx) (as : List Answer) (n : Nat) : Prop :=
  ∃ before last : List Answer, as = before ++ last ∧ (last.filter fun b => decide (0 < b.count.val)).length = n ∧
    (r.ticks P c before).AllTicks P c (fun r b => 0 < b.count.val → r.matchesMarker P c b = true) last

section
variable {P : Params} {c : Cfg} {r : Rx} {as : List Answer} {a : Answer} {n : Nat}

theorem Rx.EndsInMatches.zero (P : Params) (c : Cfg) (r : Rx) (as : List Answer) : r.EndsInMatches P c as 0 :=
  ⟨as, [], (List.append_nil as).symm, rfl, trivial⟩

/-- A tick whose live frame, if it has one, matches extends the stretch. -/
theorem Rx.EndsInMatches.concat (h : r.EndsInMatches P c as n)
    (ha : 0 < a.count.val → (r.ticks P c as).matchesMarker P c a = true) :
    r.EndsInMatches P c (as ++ [a]) (n + if 0 < a.count.val then 1 else 0) := by
  obtain ⟨before, last, rfl, hlast, hall⟩ := h
  rw [Rx.ticks_append] at ha
  refine ⟨before, last ++ [a], List.append_assoc .., ?_, (Rx.allTicks_append _ last [a]).2 ⟨hall, ha, trivial⟩⟩
  rw [List.filter_append, List.length_append, hlast]
  by_cases hk : 0 < a.count.val <;>
    simp only [List.filter_cons, List.filter_nil, hk, decide_true, decide_false, if_true, if_false, Bool.false_eq_true,
      List.length_cons, List.length_nil]

/-- A tick ends in LISTENING after a frame heard there, after a pull of no samples, or from ANALYZING with RUN cleared. -/
theorem Rx.tick_to_listening (h : (r.tick P c a).1.rxstate = .listening) :
    (r.rxstate = .listening ∧ a.count.val = 0 ∧ (r.tick P c a).1 = r) ∨
    (r.rxstate = .listening ∧ 0 < a.count.val ∧ (r.tick P c a).1 = (r.capture a).listenStep (r.matchesMarker P c a)) ∨
    (r.tick P c a).1.run = 0 := by
  have hanalyze : ∀ q : Rx, q.rxstate = .analyzing → (q.analyzeStep P c).1.rxstate = .listening →
      (q.analyzeStep P c).1.run = 0 := by
    intro q hq hl
    rcases q.analyzeStep_cases P c with ⟨-, e⟩ | ⟨-, e⟩ <;> rw [e] at hl ⊢
    · rw [Rx.decodeStep_rest]
    · rw [Rx.analyzed_rest, hq] at hl
      cases hl
  have hstate := r.capture_rxstate a
  rcases r.tick_cases P c a with ⟨hs, hk, e⟩ | ⟨hs, hk, e⟩ | ⟨hs, hk, e⟩ | ⟨hs, hk, e⟩ | ⟨hs, hk, e⟩ | ⟨hs, hk, e⟩ <;>
    rw [e] at h ⊢
  · exact .inl ⟨h, hk, rfl⟩
  · exact .inr (.inl ⟨hs, hk, rfl⟩)
  · cases hm : r.matchesMarker P c a <;> rw [hm] at h
    · rw [Rx.lockedStep_differ] at h
      cases h
    · rw [Rx.lockedStep_match, hstate, hs] at h
      cases h
  · rcases (r.capture a).recordStep_cases c r.floor with ⟨-, e⟩ | ⟨-, e⟩ <;> rw [e] at h
    · cases h
    · rw [show _ = _ from hstate.trans hs] at h
      cases h
  · exact .inr (.inr (hanalyze r hs h))
  · exact .inr (.inr (hanalyze _ (hstate.trans hs) h))

/-- In LISTENING RUN is below 8 and counts the live frames of a stretch of matches at the end of the run. -/
theorem Rx.ticks_run_counts (hrun : r.run = 0) (as : List Answer) (h : (r.ticks P c as).rxstate = .listening) :
    (r.ticks P c as).run.toNat < 8 ∧ r.EndsInMatches P c as (r.ticks P c as).run.toNat := by
  induction as using List.reverseRecOn with
  | nil =>
    rw [Rx.ticks_nil, hrun]
    exact ⟨by decide, .zero P c r []⟩
  | append_singleton as a ih =>
    rw [Rx.ticks_concat] at h ⊢
    rcases Rx.tick_to_listening h with ⟨hs, hk, e⟩ | ⟨hs, hk, e⟩ | hz
    · obtain ⟨hlt, hends⟩ := ih hs
      have hends' := hends.concat (a := a) (fun hpos => absurd hk hpos.ne')
      rw [e]
      rw [if_neg hk.not_gt] at hends'
      exact ⟨hlt, hends'⟩
    · obtain ⟨hlt, hends⟩ := ih hs
      rw [← Rx.capture_run _ a] at hlt
      obtain ⟨hcount, hstate, -⟩ := Rx.listenStep_says hlt ((r.ticks P c as).matchesMarker P c a)
      rw [← e] at hcount hstate
      cases hm : (r.ticks P c as).matchesMarker P c a with
      | false =>
        rw [hcount, hm]
        exact ⟨by norm_num, .zero P c r _⟩
      | true =>
        have hends' := hends.concat (fun _ => hm)
        rw [if_pos hk] at hends'
        rw [hm, if_pos rfl, Rx.capture_run] at hcount
        rw [← hcount] at hends'
        refine ⟨?_, hends'⟩
        by_contra hge
        rw [hm, if_pos ⟨rfl, by rw [Rx.capture_run]; omega⟩, h] at hstate
        cases hstate
    · rw [hz]
      exact ⟨by decide, .zero P c r _⟩

end

/-- Settles O48: RUN counts a stretch of matches, and the frame that locks is the eighth. -/
theorem lockNeedsEightMatchesInARow : Obligations.LockNeedsEightMatchesInARow := by
  intro P c r as a _ hrun hs hlock
  obtain ⟨hlt, hends⟩ := Rx.ticks_run_counts hrun as hs
  rw [Rx.ticks_concat] at hlock
  rcases Nat.eq_zero_or_pos a.count.val with hk | hk
  · rw [Rx.tick_idle P c (by simp [hs]) hk, hs] at hlock
    cases hlock
  · rw [Rx.tick_listening P c hs hk] at hlock
    rw [← Rx.capture_run _ a] at hlt
    obtain ⟨-, hstate, -⟩ := Rx.listenStep_says hlt ((r.ticks P c as).matchesMarker P c a)
    rw [show _ = _ from hlock, Rx.capture_rxstate, hs] at hstate
    split at hstate
    · next hmatch =>
      rw [Rx.capture_run] at hlt hmatch
      have hends' := hends.concat (fun _ => hmatch.1)
      rw [if_pos hk, show (r.ticks P c as).run.toNat + 1 = 8 by omega] at hends'
      exact hends'
    · cases hstate

/-! ### What the recording holds (R213, R216, R233) -/

/-- Matching live frames keep MARKER_LOCKED (R213). -/
theorem Rx.ticks_locked {P : Params} {c : Cfg} {r : Rx} (hs : r.rxstate = .markerLocked) {marks : List Answer}
    (hlive : ∀ a ∈ marks, 0 < a.count.val) (hmatch : r.AllTicks P c (fun r a => r.matchesMarker P c a = true) marks) :
    (r.ticks P c marks).rxstate = .markerLocked := by
  induction marks generalizing r with
  | nil => exact hs
  | cons a as ih =>
    obtain ⟨hlivea, hlive⟩ := List.forall_mem_cons.1 hlive
    obtain ⟨hm, hmatch⟩ := hmatch
    refine ih ?_ hlive hmatch
    rw [Rx.tick_locked P c hs hlivea, hm, Rx.lockedStep_match]
    exact (r.capture_rxstate a).trans hs

/-- Settles O49: the marker keeps the receiver locked, and `Rx.Recorded` says what the frames after it leave. -/
theorem recordingHoldsTheFramesAfterTheMarker : Obligations.RecordingHoldsTheFramesAfterTheMarker := by
  intro P c r marks first frames hP hc h hs hlive hmatch hfirst hlen t
  obtain ⟨hmarks, hframes⟩ := List.forall_mem_append.1 hlive
  obtain ⟨hlivef, hframes⟩ := List.forall_mem_cons.1 hframes
  have hrecorded := Rx.Recorded.ticks hP hc (h.ticks hP hc marks) (Rx.ticks_locked hs hmarks hmatch) hlivef hfirst frames
    hframes (by omega)
  simp only [← Rx.ticks_append] at hrecorded
  obtain ⟨hstate, hfltr⟩ := hrecorded.going hlen
  refine ⟨hstate, hfltr, fun i a hi => ?_⟩
  rw [Rx.ticks_append]
  exact hrecorded.rows i a hi

/-! ### What the analysis decides (R222 to R224) -/

/-- Settles O51: the analysis has decided every group when it ends, and the decode leaves RXRAW alone. -/
theorem analysisDecidesEveryGroupByItsWindow : Obligations.AnalysisDecidesEveryGroupByItsWindow := by
  intro P c r as hP hc h hs h0 hacc hfacc hraw hlen
  obtain ⟨p, hp, e⟩ := Rx.Progress.finish hP hc h hs h0 hacc hfacc hraw hlen
  have hrxraw : (r.ticks P c as).rxraw = p.rxraw := by rw [e, Rx.decodeStep_rest]
  rw [hrxraw]
  refine ⟨fun g hg k hk => ?_, hp.above⟩
  have hend : 2 + (g + 1) * c.fpt.toNat ≤ c.ftr := by
    rw [Cfg.ftr_eq]
    exact Nat.add_le_add_left (Nat.mul_le_mul_right _ hg) 2
  rw [hp.bits g hg k hk, and_iff_right hend]

end Sys2Proof.Machine
end

section
/-! PROOFS. The statements about the delivery of a payload (spec/42_rx.md R219 to R229, R236): from a recording to RXDATA, and
from the frames of a session to RXDATA. -/

namespace Sys2Proof.Machine

/-- The payload a session encodes: the text, or in FixedLength mode its first 32 bytes padded with zeros (41_tx.md R152). -/
def encodedPayload (m : Mode) (text : List Byte) : List Byte :=
  match m with
  | .variable => text
  | .fixed => fixedPayload text

theorem fixedPayload_eq (text : List Byte) : fixedPayload text = text.take 32 ++ List.replicate (32 - text.length) 0 := by
  have hpad : 32 - min text.length 32 = 32 - text.length := by omega
  simp only [fixedPayload, Config.fixedLength, hpad]

theorem encodedPayload_eq (m : Mode) (text : List Byte) : encodedPayload m text = match m with
    | .variable => text
    | .fixed => text.take 32 ++ List.replicate (32 - text.length) 0 := by
  cases m
  · rfl
  · exact fixedPayload_eq text

/-- The codec corrects what a session of a text encodes (20_memory.md R71). -/
structure CorrectsSession (P : Params) (c : Cfg) (text : List Byte) : Prop where
  length  : c.mode = .variable → P.Corrects 2 [BitVec.ofNat 8 text.length]
  payload : P.Corrects c.ecc.toNat (encodedPayload c.mode text)

/-- What a decode of a text leaves in t, counted from r (R229). -/
structure Rx.Delivers (c : Cfg) (text : List Byte) (r t : Rx) : Prop where
  rxlen   : t.rxlen.toNat = sendLength c.mode text.length
  rxdata  : ∀ a, Memory.read Space.rxdata t.rxdata a = (encodedPayload c.mode text).getD a 0
  rxcount : t.rxcount = r.rxcount + 1
  rxstate : t.rxstate = .listening

/-! ### From the recording to the payload (R219 to R229) -/

theorem byteWeight_replicate_zero (n : Nat) : byteWeight (List.replicate n 0) = 0 := by
  simp [byteWeight]

theorem xor_getD_replicate_zero (b : Byte) (n i : Nat) : b ^^^ (List.replicate n (0 : Byte)).getD i 0 = b := by
  have hzero : (List.replicate n (0 : Byte)).getD i 0 = 0 := by
    rw [List.getD_eq_getElem?_getD, List.getElem?_replicate]
    split <;> rfl
  rw [hzero]
  exact BitVec.xor_zero

section
variable {P : Params} {c : Cfg} {text : List Byte} {raw : ByteMem}

/-- The codeword without errors decodes to its payload (R226). -/
theorem decodePayload_codeword (hP : P.Admitted) (ht : text.length ≤ 140) (hL1 : CorrectsSession P c text)
    (h : ∀ i < (codeword P c text).length, Memory.read Space.rxraw raw i = (codeword P c text).getD i 0) :
    decodePayload P c raw = some (encodedPayload c.mode text, sendLength c.mode text.length) := by
  have hlen := hL1.length
  have hpay := hL1.payload
  cases hmode : c.mode
  · rw [hmode] at hpay
    refine decodePayload_codeword_variable (text := text) hP hmode ht (hlen hmode) hpay (e1 := List.replicate 3 0)
      (e2 := List.replicate (text.length + c.ecc.toNat) 0) List.length_replicate ?_ List.length_replicate ?_ fun i hi => ?_
    · exact (byteWeight_replicate_zero 3).le.trans (Nat.zero_le 1)
    · exact (byteWeight_replicate_zero _).le.trans (Nat.zero_le _)
    · rw [List.replicate_append_replicate, xor_getD_replicate_zero, h i hi]
  · rw [hmode] at hpay
    refine decodePayload_codeword_fixed (text := text) hP hmode hpay (e2 := List.replicate (32 + c.ecc.toNat) 0)
      List.length_replicate ?_ fun i hi => ?_
    · exact (byteWeight_replicate_zero _).le.trans (Nat.zero_le _)
    · rw [xor_getD_replicate_zero, h i hi]

/-- A receiver at the start of an analysis (R216). -/
structure Rx.AnalysisStarts (P : Params) (c : Cfg) (r : Rx) : Prop where
  rxstate : r.rxstate = .analyzing
  flta    : r.flta.toNat = c.fta
  acc     : ∀ k : Fin 256, P.val (r.acc.get k) = 0
  facc    : P.val r.facc = 0
  rxraw   : r.rxraw = []

/-- The window decisions of a recording are the bits of the encodedData of a text (R224). -/
def Rx.WindowsRead (P : Params) (c : Cfg) (text : List Byte) (r : Rx) : Prop :=
  ∀ g < c.gmax, ∀ k : Fin 256, k.val < c.ndb → g * c.bpt.toNat + k.val / 8 < (codeword P c text).length →
    (r.WindowBit P c g k ↔ ((codeword P c text).getD (g * c.bpt.toNat + k.val / 8) 0).getLsbD (k.val % 8) = true)

/-- When the analysis is over RXRAW holds the encodedData. -/
theorem Rx.Progress.read_codeword (hP : P.Admitted) (hc : c.Legal) (ht : text.length ≤ 140) {r p : Rx}
    (hp : Rx.Progress P c r c.ftr p) (hw : r.WindowsRead P c text) {i : Nat} (hi : i < (codeword P c text).length) :
    Memory.read Space.rxraw p.rxraw i = (codeword P c text).getD i 0 := by
  have hbpt := hc.bpt_pos
  have hg : i / c.bpt.toNat < c.gmax := Nat.div_lt_of_lt_mul (by
    have := length_codeword_le_encmax hP c ht
    have := hc.encmax_le_gmax_mul
    rw [Nat.mul_comm]
    omega)
  have hbyte : i / c.bpt.toNat * c.bpt.toNat ≤ i ∧ i < (i / c.bpt.toNat + 1) * c.bpt.toNat :=
    ⟨Nat.div_mul_le_self .., (Nat.div_lt_iff_lt_mul hbpt).1 (Nat.lt_succ_self _)⟩
  apply BitVec.eq_of_getLsbD_eq
  intro j hj
  obtain ⟨k, hk, hki, hkj⟩ := exists_slot_of_byte hc hbyte.1 hbyte.2 hj
  have hbits := hp.bits _ hg k hk
  have hend : 2 + (i / c.bpt.toNat + 1) * c.fpt.toNat ≤ c.ftr := by
    rw [Cfg.ftr_eq]
    exact Nat.add_le_add_left (Nat.mul_le_mul_right _ hg) 2
  have hwin := hw _ hg k hk (by omega)
  rw [hki, hkj] at hbits hwin
  rw [Bool.eq_iff_iff, hbits, and_iff_right hend, hwin]

/-- The analysis of such a recording delivers the text. -/
theorem Rx.AnalysisStarts.delivers (hP : P.Admitted) (hc : c.Legal) (ht : text.length ≤ 140) (hL1 : CorrectsSession P c text)
    {r : Rx} (h : r.Wf c) (hstart : r.AnalysisStarts P c) (hw : r.WindowsRead P c text) {as : List Answer}
    (hlen : as.length = c.fta) : Rx.Delivers c text r (r.ticks P c as) := by
  obtain ⟨p, hp, e⟩ := Rx.Progress.finish hP hc h hstart.rxstate hstart.flta hstart.acc hstart.facc hstart.rxraw hlen
  have hdec := decodePayload_codeword hP ht hL1 fun i hi => hp.read_codeword hP hc ht hw hi
  obtain ⟨hm, hl⟩ := decodePayload_length hP hc hdec
  have he : p.decodeStep P c = ((p.commit (encodedPayload c.mode text) (sendLength c.mode text.length)).toListening, true) := by
    simp only [Rx.decodeStep, hdec]
  rw [e, he]
  obtain ⟨-, -, hcount, -⟩ := hp.payload
  exact ⟨toNat_commit_rxlen p (encodedPayload c.mode text) hl, read_commit_rxdata p hm hl, congrArg (· + 1) hcount, rfl⟩

end

/-- Settles O53: the analysis delivers the text. -/
theorem cleanRecordingDeliversItsText : Obligations.CleanRecordingDeliversItsText := by
  intro P c r as text hP hc h hs h0 hacc hfacc hraw hlen ht payload hL1len hL1 hw t
  have hpayload : encodedPayload c.mode text = payload := encodedPayload_eq c.mode text
  have hd := Rx.AnalysisStarts.delivers hP hc ht ⟨hL1len, hpayload ▸ hL1⟩ h ⟨hs, h0, hacc, hfacc, hraw⟩ hw hlen
  rw [← hpayload]
  exact ⟨hd.rxlen, hd.rxdata, hd.rxcount, hd.rxstate⟩

/-! ### From the frames of a session to the payload (R233, R236) -/

section
variable {P : Params} {c : Cfg}

theorem Rx.ticks_take_add (r : Rx) (as : List Answer) (m n : Nat) :
    r.ticks P c (as.take (m + n)) = (r.ticks P c (as.take m)).ticks P c ((as.drop m).take n) := by
  rw [List.take_add, Rx.ticks_append]

/-- A recording that is full starts the analysis (R217). -/
theorem Rx.Recorded.analysisStarts {q t : Rx} {fs : List Answer} (h : Rx.Recorded P c q fs t) (hlen : fs.length = c.ftr) :
    t.AnalysisStarts P c := by
  obtain ⟨hs, hflta, hacc, hfacc, hraw⟩ := h.last hlen
  refine ⟨hs, hflta, fun k => ?_, ?_, hraw⟩
  · rw [hacc, get_replicate_zero, Params.val_zero]
  · rw [hfacc, Params.val_zero]

/-- The rows of the decision window of group g (R222). -/
def windowRows (c : Cfg) (g : Nat) : List Nat := (List.range c.window).map fun i => 2 + g * c.fpt.toNat + c.nbl + i

theorem lt_ftr_of_mem_windowRows (hc : c.Legal) {g : Nat} (hg : g < c.gmax) {a : Nat} (ha : a ∈ windowRows c g) :
    a < c.ftr := by
  obtain ⟨i, hi, rfl⟩ := List.mem_map.1 ha
  have hend : (g + 1) * c.fpt.toNat ≤ c.gmax * c.fpt.toNat := Nat.mul_le_mul_right _ hg
  have hwin := Cfg.nbl_add_window hc
  rw [Nat.add_mul, Nat.one_mul] at hend
  rw [List.mem_range] at hi
  rw [Cfg.ftr_eq]
  omega

/-- The window decision of a full recording, by the frames recorded and the floors in force (R222 to R224, R233). -/
theorem Rx.Recorded.windowBit_iff {q t : Rx} {fs : List Answer} (h : Rx.Recorded P c q fs t) (hc : c.Legal)
    (hlen : fs.length = c.ftr) {g : Nat} (hg : g < c.gmax) {k : Fin 256} (hk : k.val < c.ndb) :
    t.WindowBit P c g k ↔ 3 * ((windowRows c g).map fun a => P.val (q.ticks P c (fs.take a)).floor).sum <
      2 * ((windowRows c g).map fun a => P.val (elem (spectrum (zeroPad (fs.getD a default))) .zero (c.db k.val))).sum := by
  have hrec : ∀ a ∈ windowRows c g, _ := fun a ha => h.rows a (fs.getD a default) (by
    have hlt : a < fs.length := (lt_ftr_of_mem_windowRows hc hg ha).trans_eq hlen.symm
    rw [List.getElem?_eq_getElem hlt, List.getD_eq_getElem _ _ hlt])
  rw [← List.map_congr_left fun a ha => congrArg P.val (hrec a ha).2,
    ← List.map_congr_left fun a ha => congrArg P.val ((hrec a ha).1 k hk)]
  rfl

end

section
variable {P : Params} {c : Cfg} {q : Rx} {first : Answer} {later : List Answer}
variable (hP : P.Admitted) (hc : c.Legal) (hq : q.Wf c) (hs : q.rxstate = .markerLocked)
  (hlive : ∀ a ∈ first :: later, 0 < a.count.val) (hm : q.matchesMarker P c first = false)
include hP hc hq hs hlive hm

/-- The first mismatch and the live frames after it are the recording, up to its budget (R213, R216). -/
theorem Rx.recorded_take {n : Nat} (h1 : 1 ≤ n) (hn : n ≤ c.ftr) :
    Rx.Recorded P c q ((first :: later).take n) (q.ticks P c ((first :: later).take n)) := by
  obtain ⟨n, rfl⟩ := Nat.exists_eq_add_of_le' h1
  obtain ⟨hfirst, hlater⟩ := List.forall_mem_cons.1 hlive
  rw [List.take_succ_cons]
  refine Rx.Recorded.ticks hP hc hq hs hfirst hm _ (fun a ha => hlater a (List.mem_of_mem_take ha)) ?_
  rw [List.length_take]
  omega

/-- No decode completes before the last tick of the candidate (R225, R330). -/
theorem Rx.rxcount_take (hlen : 2 * c.ftr ≤ (first :: later).length) {n : Nat} (hn : n < 2 * c.ftr) :
    (q.ticks P c ((first :: later).take n)).rxcount = q.rxcount := by
  have hftr := hc.ftr_pos
  rcases Nat.eq_zero_or_pos n with rfl | h1
  · rfl
  rcases Nat.le_total n c.ftr with hle | hge
  · obtain ⟨-, -, hcount, -⟩ := (Rx.recorded_take hP hc hq hs hlive hm h1 hle).payload
    exact hcount
  · have hrec := Rx.recorded_take hP hc hq hs hlive hm (n := c.ftr) (by omega) le_rfl
    have hstart := hrec.analysisStarts (by rw [List.length_take]; omega)
    obtain ⟨k, rfl⟩ := Nat.exists_eq_add_of_le hge
    have hk : (((first :: later).drop c.ftr).take k).length < c.fta := by
      rw [List.length_take, Cfg.fta_eq]
      omega
    obtain ⟨hprogress, -, -⟩ := Rx.Progress.ticks hP hc (hq.ticks hP hc _) hstart.rxstate hstart.flta hstart.acc hstart.facc
      hstart.rxraw _ hk
    obtain ⟨-, -, hcount, -⟩ := hprogress.payload
    obtain ⟨-, -, hcount', -⟩ := hrec.payload
    rw [Rx.ticks_take_add, hcount, hcount']

/-- The candidate delivers the text its windows read as, on its last tick (R225 to R231). -/
theorem Rx.delivers_take {text : List Byte} (ht : text.length ≤ 140) (hL1 : CorrectsSession P c text)
    (hlen : 2 * c.ftr ≤ (first :: later).length)
    (hw : (q.ticks P c ((first :: later).take c.ftr)).WindowsRead P c text) :
    Rx.Delivers c text q (q.ticks P c ((first :: later).take (2 * c.ftr))) := by
  have hftr := hc.ftr_pos
  have hrec := Rx.recorded_take hP hc hq hs hlive hm (n := c.ftr) (by omega) le_rfl
  have hstart := hrec.analysisStarts (by rw [List.length_take]; omega)
  have hd := hstart.delivers hP hc ht hL1 (hq.ticks hP hc _) hw (as := ((first :: later).drop c.ftr).take c.ftr)
    (by rw [List.length_take, List.length_drop, Cfg.fta_eq]; omega)
  obtain ⟨-, -, hcount, -⟩ := hrec.payload
  rw [Nat.two_mul, Rx.ticks_take_add]
  exact ⟨hd.rxlen, hd.rxdata, by rw [hd.rxcount, hcount], hd.rxstate⟩

end

/-- Every frame of a session brings samples. -/
theorem sessionAnswers_live (c : Cfg) (enc : ByteMem) (G : Nat) : ∀ a ∈ sessionAnswers c enc G, 0 < a.count.val := by
  simp only [sessionAnswers, List.mem_map]
  rintro _ ⟨f, -, rfl⟩
  exact Nat.zero_lt_succ 1023

/-- Settles O60: frame 16 is the first of a candidate whose windows read as the encodedData. -/
theorem loopbackDeliversThePayload : Obligations.LoopbackDeliversThePayload := by
  intro P c r text silence hP hc h _ ht payload hL1len hL1 cw heard hsilence hlen at' frame hlocked hfirst hwindows t
  have hpayload : encodedPayload c.mode text = payload := encodedPayload_eq c.mode text
  have hcount : 16 < heard.length := by have := hc.ftr_pos; omega
  have hcandidate : heard.drop 16 = frame 16 :: heard.drop 17 := by
    rw [List.drop_eq_getElem_cons hcount, ← List.getD_eq_getElem _ default hcount]
  have hlive : ∀ a ∈ frame 16 :: heard.drop 17, 0 < a.count.val := by
    rw [← hcandidate]
    intro a ha
    rcases List.mem_append.1 (List.mem_of_mem_drop ha) with hsession | hafter
    · exact sessionAnswers_live _ _ _ a hsession
    · exact hsilence a hafter
  have hlen' : 2 * c.ftr ≤ (frame 16 :: heard.drop 17).length := by
    rw [← hcandidate, List.length_drop]
    omega
  have hafter : ∀ n, at' (16 + n) = (at' 16).ticks P c ((frame 16 :: heard.drop 17).take n) := fun n => by
    rw [← hcandidate]
    exact Rx.ticks_take_add r heard 16 n
  have hwf : (at' 16).Wf c := h.ticks hP hc _
  have hw : ((at' 16).ticks P c ((frame 16 :: heard.drop 17).take c.ftr)).WindowsRead P c text := by
    intro g hg k hk hin
    have hftr := hc.ftr_pos
    have hrec := Rx.recorded_take hP hc hwf hlocked hlive hfirst (n := c.ftr) (by omega) le_rfl
    have hframes : (windowRows c g).map (16 + ·) = (List.range c.window).map fun i => 18 + g * c.fpt.toNat + c.nbl + i := by
      simp only [windowRows, List.map_map, Function.comp_def, ← Nat.add_assoc]
    have hmargin := hwindows g hg k.val hk hin
    simp only [← hframes, List.map_map, Function.comp_def] at hmargin
    have hfloor : ∀ a ∈ windowRows c g, ((at' 16).ticks P c (((frame 16 :: heard.drop 17).take c.ftr).take a)).floor =
        (at' (16 + a)).floor := fun a ha => by
      rw [List.take_take, min_eq_left (lt_ftr_of_mem_windowRows hc hg ha).le, hafter]
    have hframe : ∀ a ∈ windowRows c g, ((frame 16 :: heard.drop 17).take c.ftr).getD a default = frame (16 + a) :=
        fun a ha => by
      rw [List.getD_eq_getElem?_getD, List.getElem?_take_of_lt (lt_ftr_of_mem_windowRows hc hg ha), ← hcandidate,
        List.getElem?_drop, ← List.getD_eq_getElem?_getD]
    rw [hmargin, hrec.windowBit_iff hc (by rw [List.length_take]; omega) hg hk,
      List.map_congr_left fun a ha => congrArg P.val (hfloor a ha),
      List.map_congr_left fun a ha => congrArg (fun x => P.val (elem (spectrum (zeroPad x)) .zero (c.db k.val))) (hframe a ha)]
  have hd := Rx.delivers_take hP hc hwf hlocked hlive hfirst ht ⟨hL1len, hpayload ▸ hL1⟩ hlen' hw
  rw [← hafter] at hd
  rw [← hpayload]
  refine ⟨hd.rxlen, hd.rxdata, hd.rxstate, hd.rxcount, fun n hn hn' => ?_⟩
  obtain ⟨n, rfl⟩ := Nat.exists_eq_add_of_le hn
  rw [hafter]
  exact Rx.rxcount_take hP hc hwf hlocked hlive hfirst hlen' (by omega)

end Sys2Proof.Machine
end

section
/-! PROOFS. The statements about the plain queries and the mean receive time (spec/43_query.md R260 to R276; spec/42_rx.md
R241). -/

namespace Sys2Proof.Machine

/-- The template of R277: the word of a query is its OPC and 56 zero bits, and the query answers its value and writes nothing. -/
theorem decode_and_exec_of_query {s : State} {i : Instr} {opc : BitVec 8} {v : Nat} (hword : encode i = encodeZ opc)
    (hexec : exec i s = s.query (BitVec.ofNat 32 v)) :
    decode (opc ++ 0#56) = .ok i ∧
      exec i s = .next { s with port := { s.port with responses := ⟨.ok, BitVec.ofNat 32 v⟩ :: s.port.responses } } :=
  ⟨(decode_eq_ok_iff _ i).2 hword, hexec⟩

/-- A query of a register answers the register's value, zero-extended. -/
theorem query_setWidth {n : Nat} (s : State) (x : BitVec n) : s.query (x.setWidth 32) = s.query (BitVec.ofNat 32 x.toNat) := by
  rw [BitVec.ofNat_toNat]

theorem flagResult_eq_ite (b : Bool) : flagResult b = BitVec.ofNat 32 (if b then 1 else 0) := by
  cases b <;> rfl

/-- Settles O56: each command is a query of its register or constant. -/
theorem queriesAnswerTheirRegister : Obligations.QueriesAnswerTheirRegister := by
  intro s answers
  refine ⟨decode_and_exec_of_query rfl (query_setWidth s s.rx.rxlen),
    decode_and_exec_of_query rfl (congrArg s.query (flagResult_eq_ite s.tx.hasdata)),
    decode_and_exec_of_query rfl (query_setWidth s s.rx.fltr),
    decode_and_exec_of_query rfl (query_setWidth s s.rx.flta),
    decode_and_exec_of_query rfl (query_setWidth s s.rx.tbc),
    decode_and_exec_of_query rfl ?rxstate,
    decode_and_exec_of_query rfl (query_setWidth s s.cfg.rateIn),
    decode_and_exec_of_query rfl (query_setWidth s s.cfg.rateOut),
    decode_and_exec_of_query rfl rfl, decode_and_exec_of_query rfl rfl, decode_and_exec_of_query rfl rfl⟩
  case rxstate =>
    change s.query (s.rx.rxstate.code.setWidth 32) = _
    cases s.rx.rxstate <;> rfl

/-- The mean saturates, so it fits the result (R263). -/
theorem averageRxTime_lt (c : Cfg) (r : Rx) : averageRxTime c r < 2 ^ 32 := by
  unfold averageRxTime
  split
  · decide
  · exact (min_le_left _ _).trans_lt (by decide)

/-- Settles O58: the answer is `averageRxTime`, which fits the result. -/
theorem averageReceiveTimeIsTheMeanInMilliseconds : Obligations.AverageReceiveTimeIsTheMeanInMilliseconds := by
  refine ⟨decode_encode .getavgrxt, fun s => ⟨BitVec.ofNat 32 (averageRxTime s.cfg s.rx), ?_, rfl⟩⟩
  rw [BitVec.toNat_ofNat, Nat.mod_eq_of_lt (averageRxTime_lt s.cfg s.rx)]
  exact if_congr BitVec.toNat_inj.symm rfl rfl

end Sys2Proof.Machine
end

section
/-! PROOFS. The statements about statuses and completion (spec/60_exceptions.md): every command completes with the status of the
table, a command turned away changes nothing, and every step completes. -/

namespace Sys2Proof.Machine

/-! ### How a command completes (R290 to R292) -/

/-- What the status table says of the state after a command: it is turned away as it was, or accepted with one new response,
which says whether an operand was clamped. No event is taken from the port. -/
inductive Completion (i : Instr) (s : State) : State → Prop
  | rejected (hr : rejectedWhen i) : Completion i s s.reject
  | accepted {t : State} {clamps : Bool} {result : Result} (hr : ¬ rejectedWhen i)
      (hc : clamps = true ↔ clampedWhen s.cfg.mode i) (hevents : t.port.events = s.port.events)
      (hresponses : t.port.responses = ⟨.ofClamp clamps, result⟩ :: s.port.responses) : Completion i s t

/-- A command without a cause in the table answers OK. -/
theorem Completion.ok {i : Instr} {s t : State} {result : Result} (hr : ¬ rejectedWhen i) (hc : ¬ clampedWhen s.cfg.mode i)
    (hevents : t.port.events = s.port.events) (hresponses : t.port.responses = ⟨.ok, result⟩ :: s.port.responses) :
    Completion i s t :=
  .accepted (clamps := false) hr (iff_of_false Bool.false_ne_true hc) hevents hresponses

theorem exec_rdrx_of_accepted {idx : BitVec 8} (hidx : idx.toNat < 140) (s : State) :
    exec (.rdrx idx) s = .next (s.respond .ok ((Memory.read Space.rxdata s.rx.rxdata idx.toNat).setWidth 32)) :=
  congrArg Host.Outcome.next (if_pos ((indexInRange_iff _).2 hidx))

theorem exec_rdrx_of_rejected {idx : BitVec 8} (hidx : 140 ≤ idx.toNat) (s : State) : exec (.rdrx idx) s = .next s.reject :=
  congrArg Host.Outcome.next (if_neg (mt (indexInRange_iff _).1 (not_lt.2 hidx)))

/-- Every command completes in every state, as the status table says (R291, R292, R297). -/
theorem exec_completes (i : Instr) (s : State) : ∃ t, exec i s = .next t ∧ Completion i s t := by
  cases i with
  | setparam fd fs fpt bpt vol =>
    by_cases hr : rejectedWhen (.setparam fd fs fpt bpt vol)
    · exact ⟨_, exec_setparam_of_rejected s hr, .rejected hr⟩
    · exact ⟨_, exec_setparam_of_not_rejected s hr, .accepted hr (clamps_setparamKnobs_iff ..) rfl rfl⟩
  | setecc e => exact ⟨_, exec_setecc e s, .accepted id (eccClamps_iff _) rfl rfl⟩
  | setrate rin rout =>
    by_cases hr : rejectedWhen (.setrate rin rout)
    · exact ⟨_, exec_setrate_of_rejected s hr, .rejected hr⟩
    · exact ⟨_, exec_setrate_of_not_rejected s hr, .ok hr id rfl rfl⟩
  | wtxb idx data =>
    rcases Nat.lt_or_ge idx.toNat 140 with hidx | hidx
    · exact ⟨_, exec_wtxb_of_accepted hidx data s, .ok hidx.not_ge id rfl rfl⟩
    · exact ⟨_, exec_wtxb_of_rejected hidx data s, .rejected hidx⟩
  | init len => exact ⟨_, exec_init len s, .accepted id (lengthClamps_iff _ _) rfl rfl⟩
  | send =>
    cases hd : s.tx.hasdata with
    | true => exact ⟨_, exec_send_of_session hd, .ok id id rfl rfl⟩
    | false => exact ⟨_, exec_send_of_no_session hd, .ok id id rfl rfl⟩
  | rdrx idx =>
    rcases Nat.lt_or_ge idx.toNat 140 with hidx | hidx
    · exact ⟨_, exec_rdrx_of_accepted hidx s, .ok hidx.not_ge id rfl rfl⟩
    · exact ⟨_, exec_rdrx_of_rejected hidx s, .rejected hidx⟩
  | setmode | receive | getrxlen | gethasdata | getavgrxt | getftr | getfltr | getfta | getflta | gettbc | getrxstate
  | getratein | getrateout | getspf | getssbin | getssbout => exact ⟨_, rfl, .ok id id rfl rfl⟩

/-- Settles O12: a rejection answers REJECTED, and an accepted command answers CLAMPED or OK as its clamp says. -/
theorem statusFollowsTheTable : Obligations.StatusFollowsTheTable := by
  intro i s
  obtain ⟨t, hexec, hcompletion⟩ := exec_completes i s
  cases hcompletion with
  | rejected hr => exact ⟨_, ⟨.rejected, 0⟩, hexec, rfl, by simp [hr]⟩
  | accepted hr hc _ hresponses => exact ⟨t, _, hexec, hresponses, by simp [hr, hc]⟩

/-- Settles O11: the word is turned away by the decoder or by the command, and both only answer; an accepted command's status is
neither REJECTED nor ILLEGAL. -/
theorem turnedAwayCommandChangesNothing : Obligations.TurnedAwayCommandChangesNothing := by
  intro s w rest hev
  have htaken := State.takeEvent_eq hev
  cases hdec : decode w with
  | error e =>
    rw [step_illegal hev hdec, htaken]
    exact ⟨_, ⟨.illegal, 0⟩, rfl, rfl, rfl, fun _ => ⟨rfl, rfl⟩⟩
  | ok i =>
    rw [step_command hev hdec, htaken]
    obtain ⟨t, hexec, hcompletion⟩ := exec_completes i { s with port := { s.port with events := rest } }
    cases hcompletion with
    | rejected => exact ⟨_, ⟨.rejected, 0⟩, hexec, rfl, rfl, fun _ => ⟨rfl, rfl⟩⟩
    | accepted _ _ hevents hresponses => exact ⟨t, _, hexec, hevents, hresponses, by simp⟩

/-! ### Every step completes (R297, R307, R308) -/

theorem step_no_event {s : State} (hev : s.port.events = []) : step s = .next s := by
  simp only [step, hev, State.idle]

theorem step_resetInput {s : State} {rest : List HostEvent} (hev : s.port.events = .resetInput :: rest) :
    step s = .next s.takeEvent.applyReset := by
  simp only [step, hev]

/-- Each kind of event ends in a next state. -/
theorem step_completes (s : State) : ∃ t, step s = .next t := by
  cases hev : s.port.events with
  | nil => exact ⟨s, step_no_event hev⟩
  | cons e rest =>
    cases e with
    | resetInput => exact ⟨_, step_resetInput hev⟩
    | command w =>
      obtain ⟨t, -, hstep, -⟩ := turnedAwayCommandChangesNothing s w rest hev
      exact ⟨t, hstep⟩

/-- Settles O10: commands complete by the status table, steps by the kind of their event. -/
theorem everyCommandAndEveryStepCompletes : Obligations.EveryCommandAndEveryStepCompletes := by
  refine ⟨fun i s => (exec_completes i s).imp fun _ => And.left, step_completes, fun _ => step_no_event, fun s rest hev => ?_⟩
  refine ⟨_, step_resetInput hev, ?_⟩
  rw [State.applyReset_port, State.takeEvent_eq hev]

end Sys2Proof.Machine
end

section
/-! PROOFS. The statements about reset and the end of a candidate (spec/70_reset_and_hazards.md R320, R330; spec/42_rx.md
R231). -/

namespace Sys2Proof.Machine

/-! ### How long a candidate takes (R231, R330) -/

/-- RXT counts the tick: a live frame of a candidate, or any tick of an analysis (R213, R216, R219). -/
def Rx.CountsTick (r : Rx) (a : Answer) : Prop :=
  r.rxstate ≠ .listening ∧ (r.rxstate = .analyzing ∨ 0 < a.count.val)

section
variable {P : Params} {c : Cfg} {r : Rx} {a : Answer} {as : List Answer}

theorem Rx.tick_rxt (h : r.CountsTick a) : (r.tick P c a).1.rxt = satInc r.rxt := by
  obtain ⟨hcandidate, hcounts⟩ := h
  have hrxt := r.capture_rxt a
  rcases r.tick_cases P c a with ⟨hs, hk, -⟩ | ⟨hs, -⟩ | ⟨-, -, e⟩ | ⟨-, -, e⟩ | ⟨-, -, e⟩ | ⟨-, -, e⟩
  · exact absurd hk (hcounts.resolve_left hs).ne'
  · exact absurd hs hcandidate
  · rw [e, Rx.lockedStep_rest, hrxt]
  · rw [e, Rx.recordStep_rest, hrxt]
  · rw [e, Rx.analyzeStep_rest]
  · rw [e, Rx.analyzeStep_rest, hrxt]

/-- A run of counted ticks adds its length to RXT, which saturates (R49, R231). -/
theorem Rx.ticks_rxt (h : ∀ n a, as[n]? = some a → (r.ticks P c (as.take n)).CountsTick a) :
    (r.ticks P c as).rxt.toNat = min (r.rxt.toNat + as.length) (2 ^ 32 - 1) := by
  induction as generalizing r with
  | nil =>
    rw [Rx.ticks_nil, List.length_nil]
    omega
  | cons a as ih =>
    have hcounts : r.CountsTick a := h 0 a rfl
    rw [Rx.ticks_cons, ih fun n => h (n + 1), Rx.tick_rxt hcounts, toNat_satInc, List.length_cons]
    omega

section
variable (hP : P.Admitted) (hc : c.Legal) (h : r.Wf c) (hstart : r.AnalysisStarts P c)
include hP hc h hstart

/-- The analysis is not over before its budget (R219). -/
theorem Rx.AnalysisStarts.ticks_analyzing (hlen : as.length < c.fta) : (r.ticks P c as).rxstate = .analyzing := by
  obtain ⟨-, hstate, -⟩ :=
    Rx.Progress.ticks hP hc h hstart.rxstate hstart.flta hstart.acc hstart.facc hstart.rxraw as hlen
  exact hstate

/-- The last tick of the analysis returns to LISTENING, whatever it decodes (R225). -/
theorem Rx.AnalysisStarts.ticks_listening (hlen : as.length = c.fta) : (r.ticks P c as).rxstate = .listening := by
  obtain ⟨p, -, e⟩ :=
    Rx.Progress.finish hP hc h hstart.rxstate hstart.flta hstart.acc hstart.facc hstart.rxraw hlen
  rw [e, Rx.decodeStep_rest]

/-- Every tick of the analysis counts in RXT (R219). -/
theorem Rx.AnalysisStarts.ticks_rxt (hlen : as.length = c.fta) :
    (r.ticks P c as).rxt.toNat = min (r.rxt.toNat + c.fta) (2 ^ 32 - 1) := by
  rw [← hlen]
  refine Rx.ticks_rxt fun n a ha => ?_
  have hn : n < as.length := (List.getElem?_eq_some_iff.1 ha).1
  have hstate := hstart.ticks_analyzing hP hc h (as := as.take n) (by rw [List.length_take]; omega)
  simp [CountsTick, hstate]

end

/-- Every frame of the recording, from the first mismatch on, counts in RXT (R213, R216). -/
theorem Rx.recording_rxt (hP : P.Admitted) (hc : c.Legal) (h : r.Wf c) (hs : r.rxstate = .markerLocked) {first : Answer}
    {frames : List Answer} (hlive : ∀ a ∈ first :: frames, 0 < a.count.val) (hm : r.matchesMarker P c first = false)
    (hlen : (first :: frames).length = c.ftr) :
    (r.ticks P c (first :: frames)).rxt.toNat = min (r.rxt.toNat + c.ftr) (2 ^ 32 - 1) := by
  rw [← hlen]
  refine Rx.ticks_rxt fun n a ha => ⟨?_, .inr (hlive a (List.mem_of_getElem? ha))⟩
  have hn : n < (first :: frames).length := (List.getElem?_eq_some_iff.1 ha).1
  rcases Nat.eq_zero_or_pos n with rfl | hpos
  · simp [hs]
  · have hrec := Rx.recorded_take hP hc h hs hlive hm hpos (by omega)
    obtain ⟨hstate, -⟩ := hrec.going (by rw [List.length_take]; omega)
    simp [hstate]

end

/-- Settles O50: the recording is full when the analysis starts, and every tick of either counts. -/
theorem candidateEndsAfterTwiceTheBudget : Obligations.CandidateEndsAfterTwiceTheBudget := by
  intro P c r first frames later hP hc h hs hfirst hm hframes hlen hlater
  have hlive : ∀ a ∈ first :: frames, 0 < a.count.val := List.forall_mem_cons.2 ⟨hfirst, hframes⟩
  have hfull : (first :: frames).length = c.ftr := hlen
  have hwf := h.ticks hP hc (first :: frames)
  have hrxt := Rx.recording_rxt hP hc h hs hlive hm hfull
  have hstart : (r.ticks P c (first :: frames)).AnalysisStarts P c :=
    (Rx.Recorded.ticks hP hc h hs hfirst hm frames hframes (by omega)).analysisStarts hfull
  simp only [Rx.ticks_append]
  refine ⟨hstart.rxstate, fun n hn => ?_, hstart.ticks_listening hP hc hwf hlater, ?_⟩
  · exact hstart.ticks_analyzing hP hc hwf (by rw [List.length_take]; omega)
  · rw [hstart.ticks_rxt hP hc hwf hlater, hrxt, Cfg.fta_eq]
    omega

/-! ### The reset input (R320, R321) -/

/-- Settles O9: the step applies the reset values, a memory that lists nothing reads as zero, and so does a vector of zeros. -/
theorem resetInputRestoresTheResetValues : Obligations.ResetInputRestoresTheResetValues := by
  intro s rest hev
  refine ⟨_, step_resetInput hev, rfl, fun _ => ⟨rfl, rfl, rfl, rfl, rfl⟩, ?_⟩
  simp [Rx.reset, Tx.reset, Vector.get_eq_getElem]

end Sys2Proof.Machine
end
